-- ==== Sys2Proof/Word.lean ====
section
/-!
DEFINITION. The words of the machine: bytes, command words, random answers, the
two register files, and how the voxel buffer's bytes are held.
-/

namespace Sys2Proof

/-- One byte: the buffer's unit (R49) and the width of every named register. -/
abbrev Byte := BitVec 8

/-- One command word (R60). -/
abbrev CommandWord := BitVec 32

/-- One answer on the `RAND_VAL` port, 3 bits wide (R29). -/
abbrev RandVal := BitVec 3

/-- `SLOT[0..4]`: five slots of 16 bits (R25). -/
abbrev Slots := Vector (BitVec 16) 5

/-- `LAST[0..4]`: five timestamps (R26); each is a `CLK_W`-bit value, which the
machine's invariant says. -/
abbrev Stamps := Vector Nat 5

/-- The bytes of the voxel buffer by linear address (R48): pairs of address and byte,
addresses strictly rising, no byte listed that equals what an unlisted address
reads as. -/
abbrev Memory := List Host.Cell

/-- A logical coordinate (R10): three unsigned integers. -/
structure Coord where
  x : Nat
  y : Nat
  z : Nat
deriving DecidableEq, Repr, Inhabited

end Sys2Proof
end

