-- ==== Sys2Proof/Syntax.lean ====
section
/-!
DEFINITION. The command set: one constructor of `Instr` per row of the opcode table
(30_encoding.md R65), with the operands of R61 to R63, and the
pseudo-instructions of R70.
-/

namespace Sys2Proof

/-- The box type field `T` of BOX (R140): 0, 1, 2, and 3, which selects no style (R144). -/
inductive BoxStyle where
  | filled
  | walls
  | frame
  | noStyle
deriving DecidableEq, Repr, Inhabited

/-- The axis field `T` of SHIFT (R170): 0 = X, 1 = Y, 2 = Z, 3 = no axis. -/
inductive Axis where
  | x
  | y
  | z
  | noAxis
deriving DecidableEq, Repr, Inhabited

/-- The direction field `DIR` of SHIFT (R63): 0 = -1 (toward index 0), 1 = +1. -/
inductive Dir where
  | minus
  | plus
deriving DecidableEq, Repr, Inhabited

/-- One command. Coordinates and bit positions are unsigned integers (R63): that they
fit their fields is `Instr.wellFormed`. -/
inductive Instr where
  /-- R80 -/
  | nop
  /-- R81 -/
  | inrange (x y z : Nat)
  /-- R83 -/
  | byteline (start stop : Nat)
  /-- R84 -/
  | rdb (addr : Byte)
  /-- R100 -/
  | setv (x y z : Nat)
  /-- R101 -/
  | clrv (x y z : Nat)
  /-- R102 -/
  | tglv (x y z : Nat)
  /-- R103 -/
  | altv (x y z : Nat) (state : Byte)
  /-- R104 -/
  | getv (x y z : Nat)
  /-- R120 -/
  | fill (pattern : Byte)
  /-- R121 -/
  | setpx (c : Nat)
  /-- R122 -/
  | setpy (c : Nat)
  /-- R123 -/
  | setpz (c : Nat)
  /-- R124 -/
  | clrpx (c : Nat)
  /-- R125 -/
  | clrpy (c : Nat)
  /-- R126 -/
  | clrpz (c : Nat)
  /-- R145 -/
  | box (style : BoxStyle) (x1 y1 z1 x2 y2 z2 : Nat)
  /-- R152; the word's `T` field is ignored (R62). -/
  | line (x1 y1 z1 x2 y2 z2 : Nat)
  /-- R170 -/
  | shift (axis : Axis) (dir : Dir)
  /-- R182 -/
  | start (index : Byte)
  /-- R183 -/
  | finish
  /-- R185 -/
  | process (sf : Bool)
  /-- R189 -/
  | getcur
  /-- R190 -/
  | getprev
  /-- R191 -/
  | isfin
  /-- R192 -/
  | getbright
deriving DecidableEq, Repr, Inhabited

/-- The pseudo-instructions of R70. -/
inductive Pseudo where
  | clear
  | setall
  | boxf (x1 y1 z1 x2 y2 z2 : Nat)
  | boxw (x1 y1 z1 x2 y2 z2 : Nat)
  | boxe (x1 y1 z1 x2 y2 z2 : Nat)
  | tick
  | tickf
deriving DecidableEq, Repr, Inhabited

/-- Their expansions (R70). -/
def Pseudo.expand : Pseudo → Instr
  | .clear => .fill 0x00
  | .setall => .fill 0xFF
  | .boxf x1 y1 z1 x2 y2 z2 => .box .filled x1 y1 z1 x2 y2 z2
  | .boxw x1 y1 z1 x2 y2 z2 => .box .walls x1 y1 z1 x2 y2 z2
  | .boxe x1 y1 z1 x2 y2 z2 => .box .frame x1 y1 z1 x2 y2 z2
  | .tick => .process false
  | .tickf => .process true

end Sys2Proof
end

