-- ==== Sys2Proof/WellFormed.lean ====
section
/-!
DEFINITION. Which commands fit the command word: the operand ranges of
30_encoding.md R63 and R69. A coordinate is 0 to 15, a bit position 0 to 7; the other operands
fit by their types.
-/

namespace Sys2Proof

/-- A coordinate field is 4 bits (R61). -/
def coordFits (c : Nat) : Bool := c < 16

/-- The bit-range fields `S3` and `E3` are 3 bits (R61). -/
def bitPosFits (b : Nat) : Bool := b < 8

/-- The three coordinates of a point command fit. -/
def pointFits (x y z : Nat) : Bool := coordFits x && coordFits y && coordFits z

/-- The command's operands fit their fields. -/
def Instr.wellFormed : Instr → Bool
  | .nop => true
  | .inrange x y z => pointFits x y z
  | .byteline lo hi => bitPosFits lo && bitPosFits hi
  | .rdb _ => true
  | .setv x y z => pointFits x y z
  | .clrv x y z => pointFits x y z
  | .tglv x y z => pointFits x y z
  | .altv x y z _ => pointFits x y z
  | .getv x y z => pointFits x y z
  | .fill _ => true
  | .setpx c => coordFits c
  | .setpy c => coordFits c
  | .setpz c => coordFits c
  | .clrpx c => coordFits c
  | .clrpy c => coordFits c
  | .clrpz c => coordFits c
  | .box _ x1 y1 z1 x2 y2 z2 => pointFits x1 y1 z1 && pointFits x2 y2 z2
  | .line x1 y1 z1 x2 y2 z2 => pointFits x1 y1 z1 && pointFits x2 y2 z2
  | .shift _ _ => true
  | .start _ => true
  | .finish => true
  | .process _ => true
  | .getcur => true
  | .getprev => true
  | .isfin => true
  | .getbright => true

end Sys2Proof
end

