-- ==== Sys2Proof/Decode.lean ====
section
/-!
DEFINITION. The decoder and the encoder of the command word (30_encoding.md R60 to R66).
The decoder is total on 32-bit words: a word is a command or a reserved opcode,
rejected by name. Bits a format does not use are not looked at (R64).
-/

namespace Sys2Proof

/-- What a command word stands for. -/
inductive Decoded where
  /-- One of the 26 commands of R65. -/
  | command (i : Instr)
  /-- A reserved opcode (R66): it selects no command. -/
  | reserved (op : Nat)
deriving DecidableEq, Repr, Inhabited

/-- `w[lo+len-1 : lo]`, zero-extended (R8, R63). -/
def wordField (w : CommandWord) (lo len : Nat) : Nat := w.toNat / 2 ^ lo % 2 ^ len

/-- The fields of R61, each under its own letter. -/
def fieldOP (w : CommandWord) : Nat := wordField w 26 6
def fieldT (w : CommandWord) : Nat := wordField w 24 2
def fieldA (w : CommandWord) : Nat := wordField w 20 4
def fieldB (w : CommandWord) : Nat := wordField w 16 4
def fieldC (w : CommandWord) : Nat := wordField w 12 4
def fieldD (w : CommandWord) : Nat := wordField w 8 4
def fieldE (w : CommandWord) : Nat := wordField w 4 4
def fieldF (w : CommandWord) : Nat := wordField w 0 4
def fieldIMM8 (w : CommandWord) : Byte := BitVec.ofNat 8 (wordField w 0 8)
def fieldS3 (w : CommandWord) : Nat := wordField w 20 3
def fieldE3 (w : CommandWord) : Nat := wordField w 16 3
def fieldBit0 (w : CommandWord) : Nat := wordField w 0 1

/-- The box type's code (R140). -/
def boxStyleOf : Nat → BoxStyle
  | 0 => .filled
  | 1 => .walls
  | 2 => .frame
  | _ => .noStyle

/-- The axis's code (R170). -/
def axisOf : Nat → Axis
  | 0 => .x
  | 1 => .y
  | 2 => .z
  | _ => .noAxis

/-- `DIR` (R63). -/
def dirOf : Nat → Dir
  | 0 => .minus
  | _ => .plus

/-- The opcode map of R65: the command that opcode `op` makes of the word's fields. Every
other opcode is reserved (R66). -/
def decodeAs (op : Nat) (w : CommandWord) : Decoded :=
  match op with
  | 0x00 => .command .nop
  | 0x01 => .command (.setv (fieldA w) (fieldB w) (fieldC w))
  | 0x02 => .command (.clrv (fieldA w) (fieldB w) (fieldC w))
  | 0x03 => .command (.tglv (fieldA w) (fieldB w) (fieldC w))
  | 0x04 => .command (.altv (fieldA w) (fieldB w) (fieldC w) (fieldIMM8 w))
  | 0x05 => .command (.getv (fieldA w) (fieldB w) (fieldC w))
  | 0x06 => .command (.fill (fieldIMM8 w))
  | 0x08 => .command (.setpx (fieldA w))
  | 0x09 => .command (.setpy (fieldA w))
  | 0x0A => .command (.setpz (fieldA w))
  | 0x0C => .command (.clrpx (fieldA w))
  | 0x0D => .command (.clrpy (fieldA w))
  | 0x0E => .command (.clrpz (fieldA w))
  | 0x10 => .command (.box (boxStyleOf (fieldT w)) (fieldA w) (fieldB w) (fieldC w)
      (fieldD w) (fieldE w) (fieldF w))
  | 0x11 => .command (.line (fieldA w) (fieldB w) (fieldC w) (fieldD w) (fieldE w) (fieldF w))
  | 0x12 => .command (.shift (axisOf (fieldT w)) (dirOf (fieldBit0 w)))
  | 0x18 => .command (.inrange (fieldA w) (fieldB w) (fieldC w))
  | 0x19 => .command (.byteline (fieldS3 w) (fieldE3 w))
  | 0x1A => .command (.rdb (fieldIMM8 w))
  | 0x20 => .command (.start (fieldIMM8 w))
  | 0x21 => .command .finish
  | 0x22 => .command (.process (fieldBit0 w != 0))
  | 0x23 => .command .getcur
  | 0x24 => .command .getprev
  | 0x25 => .command .isfin
  | 0x26 => .command .getbright
  | op => .reserved op

/-- The decoder, total on 32-bit words (R60). -/
def decode (w : CommandWord) : Decoded := decodeAs (fieldOP w) w

/-- The instruction the decoder reads from a word given as a number, bit 0 the least
significant; the bits above `nbits` are 0. -/
def decodeTableWord (nbits w : Nat) : Option Instr :=
  match decode (BitVec.ofNat 32 (w % 2 ^ nbits)) with
  | .command i => some i
  | .reserved _ => none

/-! The encoder. -/

/-- The box type's code (R140). -/
def boxStyleCode : BoxStyle → Nat
  | .filled => 0
  | .walls => 1
  | .frame => 2
  | .noStyle => 3

/-- The axis's code (R170). -/
def axisCode : Axis → Nat
  | .x => 0
  | .y => 1
  | .z => 2
  | .noAxis => 3

/-- `DIR` (R63). -/
def dirCode : Dir → Nat
  | .minus => 0
  | .plus => 1

/-- A host holding a coordinate of 16 or more encodes 15 instead (R63). -/
def coordCode (c : Nat) : Nat := min c 15

/-- The word with the given opcode and fields `T`, `A` to `F` (R61). -/
def encodeFields (op t a b c d e f : Nat) : CommandWord :=
  BitVec.ofNat 32 (op * 2 ^ 26 + t * 2 ^ 24 + a * 2 ^ 20 + b * 2 ^ 16 + c * 2 ^ 12 +
    d * 2 ^ 8 + e * 2 ^ 4 + f)

/-- Formats N, G (with `low` the flag) and I (with `low` the immediate). -/
def encodeLow (op low : Nat) : CommandWord := encodeFields op 0 0 0 0 0 0 low

/-- Format P, and PS with `low` the immediate. -/
def encodePoint (op x y z low : Nat) : CommandWord :=
  encodeFields op 0 (coordCode x) (coordCode y) (coordCode z) 0 0 low

/-- Format C. -/
def encodePlane (op c : Nat) : CommandWord := encodeFields op 0 (coordCode c) 0 0 0 0 0

/-- Format L2. -/
def encodeTwoPoints (op t x1 y1 z1 x2 y2 z2 : Nat) : CommandWord :=
  encodeFields op t (coordCode x1) (coordCode y1) (coordCode z1)
    (coordCode x2) (coordCode y2) (coordCode z2)

/-- The command's word, every ignored bit 0 (R64, R65). -/
def encode : Instr → CommandWord
  | .nop => encodeLow 0x00 0
  | .setv x y z => encodePoint 0x01 x y z 0
  | .clrv x y z => encodePoint 0x02 x y z 0
  | .tglv x y z => encodePoint 0x03 x y z 0
  | .altv x y z state => encodePoint 0x04 x y z state.toNat
  | .getv x y z => encodePoint 0x05 x y z 0
  | .fill pattern => encodeLow 0x06 pattern.toNat
  | .setpx c => encodePlane 0x08 c
  | .setpy c => encodePlane 0x09 c
  | .setpz c => encodePlane 0x0A c
  | .clrpx c => encodePlane 0x0C c
  | .clrpy c => encodePlane 0x0D c
  | .clrpz c => encodePlane 0x0E c
  | .box style x1 y1 z1 x2 y2 z2 => encodeTwoPoints 0x10 (boxStyleCode style) x1 y1 z1 x2 y2 z2
  | .line x1 y1 z1 x2 y2 z2 => encodeTwoPoints 0x11 0 x1 y1 z1 x2 y2 z2
  | .shift axis dir => encodeFields 0x12 (axisCode axis) 0 0 0 0 0 (dirCode dir)
  | .inrange x y z => encodePoint 0x18 x y z 0
  | .byteline start stop => encodeFields 0x19 0 start stop 0 0 0 0
  | .rdb addr => encodeLow 0x1A addr.toNat
  | .start index => encodeLow 0x20 index.toNat
  | .finish => encodeLow 0x21 0
  | .process sf => encodeLow 0x22 (if sf then 1 else 0)
  | .getcur => encodeLow 0x23 0
  | .getprev => encodeLow 0x24 0
  | .isfin => encodeLow 0x25 0
  | .getbright => encodeLow 0x26 0

/-- The bits of the word the command's format uses: those not marked `.` (R62). -/
def usedBits : Instr → CommandWord
  | .nop => 0xFC000000
  | .inrange _ _ _ => 0xFCFFF000
  | .byteline _ _ => 0xFC770000
  | .rdb _ => 0xFC0000FF
  | .setv _ _ _ => 0xFCFFF000
  | .clrv _ _ _ => 0xFCFFF000
  | .tglv _ _ _ => 0xFCFFF000
  | .altv _ _ _ _ => 0xFCFFF0FF
  | .getv _ _ _ => 0xFCFFF000
  | .fill _ => 0xFC0000FF
  | .setpx _ => 0xFCF00000
  | .setpy _ => 0xFCF00000
  | .setpz _ => 0xFCF00000
  | .clrpx _ => 0xFCF00000
  | .clrpy _ => 0xFCF00000
  | .clrpz _ => 0xFCF00000
  | .box _ _ _ _ _ _ _ => 0xFFFFFFFF
  | .line _ _ _ _ _ _ => 0xFCFFFFFF
  | .shift _ _ => 0xFF000001
  | .start _ => 0xFC0000FF
  | .finish => 0xFC000000
  | .process _ => 0xFC000001
  | .getcur => 0xFC000000
  | .getprev => 0xFC000000
  | .isfin => 0xFC000000
  | .getbright => 0xFC000000

/-- The assembler of R69 on one command: it refuses an operand outside its range. -/
def assemble (i : Instr) : Option CommandWord :=
  if i.wellFormed then some (encode i) else none

end Sys2Proof
end

