-- ==== Sys2Proof/Config.lean ====
section
/-!
DEFINITION. What a build of the block fixes (00_scope.md R7, R31), the open effect
parameters (45_sequencer.md R186 to R188) as one argument, and the free values.
The constants declared `opaque` have no body: nothing in Lean can evaluate them,
so what is proved holds for every value they could have.
-/

namespace Sys2Proof

/-- `CUBE_N`: 4 or 8 and no other value (R2). -/
inductive Geometry where
  | n4
  | n8
deriving DecidableEq, Repr, Inhabited

/-- The build parameters that are plain values (R7). `State` carries them and no step
changes them (log 1). -/
structure Config where
  /-- `CUBE_N` (R2). -/
  geometry : Geometry
  /-- `CLK_W`, the width of the millisecond clock. -/
  clkW : Nat
  /-- `BRIGHTNESS_MAX`, 1 to 255. -/
  brightnessMax : Byte
deriving DecidableEq, Repr, Inhabited

/-- The one limit R7 sets on a build: `BRIGHTNESS_MAX` is from 1 to 255. -/
def Config.wellFormed (cfg : Config) : Bool :=
  cfg.brightnessMax != 0

/-- One animation step of an effect (R186), as the engine sees it.
The shape carries R186's constraints: it changes the buffer only by drawing commands
(b), it asks the random collaborator and is told the answer (a), it ends with new
slots, a brightness and `fin` and touches nothing else (c), and every run of it is
finite (d). -/
inductive EffectProg where
  /-- The step ends: `SLOT'`, `BRIGHT'` and `fin`. -/
  | done (slots : Slots) (bright : Byte) (fin : Bool)
  /-- A drawing-engine operation, then the rest. -/
  | op (i : Instr) (rest : EffectProg)
  /-- `draw RAND`: the rest depends on the answer. -/
  | draw (rest : RandVal → EffectProg)
deriving Inhabited

/-- The open effect parameters (R7), taken as one argument by the tick. The build's own are
declared where their contract is, in Machine/Effects.lean. -/
structure EffectParams where
  /-- `EFFECT_INTERVAL(i, SLOT)` before it is cut to `CLK_W` bits (D25, U11). -/
  interval : Config → Nat → Slots → Nat
  /-- `EffectStep(i, SLOT, B, BRIGHT, sf, ...)` (D26, U12). -/
  step : Config → Nat → Slots → Memory → Byte → Bool → EffectProg
  /-- `CYCLE_BOUND(i)` (R187, D26, U13). -/
  cycleBound : Nat → Nat
  /-- How effects 2 and 3 write an axis in `SLOT[0]`; R188 does not give it (log 15). -/
  axisCode : Axis → BitVec 16

/-- Open: `CLK_W` of the build that `State.reset` belongs to (D24, U9). -/
opaque Config.openClkW : Nat

/-- Open: `BRIGHTNESS_MAX` of that build (D28, U10), before its limit. -/
opaque Config.openBrightnessMax : Byte

/-- The build that `State.reset` belongs to. DESIGN CHOICE (log 2): `CUBE_N` = 8. The
clock width and the maximum brightness stay open; R7's limit (1 to 255) is kept. -/
def Config.build : Config where
  geometry := .n8
  clkW := Config.openClkW
  brightnessMax := if Config.openBrightnessMax = 0 then 1 else Config.openBrightnessMax

/-- Free: the byte BYTELINE returns when start > end (R83, U1). -/
opaque Config.freeByte : Nat → Byte

/-- Free: the random generator's answer when none is lined up (R228, U3), before it is
cut to [0, `CUBE_N`). -/
opaque Config.freeDraw : Nat → RandVal

/-- Free: what the k-th display read at an address gives while `BUSY` = 1 (R50, U2). -/
opaque Config.freeDisplayByte : Nat → BitVec 6 → Byte

end Sys2Proof
end

