-- ==== Sys2Proof/Machine/State.lean ====
section
/-!
DEFINITION. The machine's state as plain data (10_state.md), the reasons a step can stop,
and the state after reset (70_reset_and_hazards.md R240).
-/

namespace Sys2Proof.Machine

open Sys2Proof

/-- `NONE`, the "no effect" value of `CUR` and `PREV` (R7, R22). -/
def noneEffect : Byte := 0xFF

/-- What the outside world can do to the block between commands (R29). -/
inductive HostEvent where
  /-- `CMD` with `CMD_VALID`: a command word, and the value on `NOW` when it is accepted. -/
  | command (word : CommandWord) (now : Nat)
  /-- `RST` is asserted (R240). -/
  | rst
deriving DecidableEq, Repr, Inhabited

/-- The state. The first eight fields are the block's own (10_state.md section 5); `cfg` carries
the build's configuration (R31); the last four are the model's own: what the
outside world feeds the ports of R29, and the counter of free values. -/
structure State where
  /-- `B[l][b]` by linear address (R20, R48). -/
  mem : Memory
  /-- `CUR` (R22). -/
  cur : Byte
  /-- `PREV` (R23). -/
  prev : Byte
  /-- `BRIGHT` (R24). -/
  bright : Byte
  /-- `SLOT[0..4]` (R25). -/
  slots : Slots
  /-- `LAST[0..4]` (R26). -/
  last : Stamps
  /-- `RESULT` (R27). -/
  result : Byte
  /-- `BUSY` (R28). -/
  busy : Bool
  /-- The build parameters; no step changes them (R31, log 1). -/
  cfg : Config
  /-- What the outside world will do, first event first (log 7). -/
  inputs : List HostEvent
  /-- `NOW` as sampled for the command in execution (R185, log 6). -/
  now : Nat
  /-- The random answers lined up on `RAND_VAL`, first answer first (log 5). -/
  rand : List RandVal
  /-- The model's counter that free values are applied to (log 10). -/
  freeIx : Nat
deriving DecidableEq, Repr, Inhabited

/-- The machine stops. No command raises anything in the states the block can be in
(R220). -/
inductive Fault where
  /-- Raised by PROCESS when `CUR` is neither an effect index nor `NONE`, a value that never
  occurs (R22, log 12). Safe: the machine stops where no run arrives. -/
  | noSuchEffect (cur : Byte)
deriving DecidableEq, Repr, Inhabited

/-- The model has no run. -/
inductive Refusal where
  /-- Raised by `exec` for an instruction that has no meaning yet; none is left. Safe. -/
  | notModelled (mnemonic : String)
  /-- Raised by PROCESS when the random generator answers a draw with a value outside
  [0, `CUBE_N`): host duty 3 of R242 is broken (R228, U5). Safe: the spec gives no
  behaviour. -/
  | randOutOfRange (answer : RandVal)
  /-- Raised by the step when a command is offered while `BUSY` = 1: host duty 1 of
  R242 is broken (R28, U6). Safe: the block does not accept the command. -/
  | commandWhileBusy (word : CommandWord)
deriving DecidableEq, Repr, Inhabited

/-- The state after reset (R240) of the build `cfg`; nothing is offered yet. The model's own
fields start empty or at 0 (DESIGN CHOICE, log 5, 6, 7 and 10). -/
def State.resetWith (cfg : Config) : State where
  mem := []
  cur := noneEffect
  prev := noneEffect
  bright := cfg.brightnessMax
  slots := Vector.replicate 5 0
  last := Vector.replicate 5 0
  result := 0
  busy := false
  cfg := cfg
  inputs := []
  now := 0
  rand := []
  freeIx := 0

/-- The machine right after reset, for the build of log 2. -/
def State.reset : State := State.resetWith Config.build

end Sys2Proof.Machine
end

