-- ==== Sys2Proof/Machine/Ops.lean ====
section
/-!
DEFINITION. The named operations over the buffer (20_memory.md) and over the named registers,
and the block's interface (10_state.md R28, R29; 70_reset_and_hazards.md R240).
The block has no exceptions (60_exceptions.md R220, R224, R225): there is no
operation that takes one and none that returns from one.
-/

namespace Sys2Proof

/-- What a byte that is not listed reads as: its reset value (R20, R240). -/
def Machine.unlistedByte : Byte := 0x00

/-- The buffer's canonical form (log 13): addresses strictly rising, no byte listed that
equals the unlisted one. -/
abbrev Memory.wf (m : Memory) : Prop :=
  m.Pairwise (fun c d => c.1 < d.1) ∧ ∀ c ∈ m, c.2 ≠ Machine.unlistedByte

end Sys2Proof

namespace Sys2Proof.Machine

open Sys2Proof

/-! Geometry (R41). -/

/-- `CUBE_N` (R2). -/
def cubeN : Geometry → Nat
  | .n4 => 4
  | .n8 => 8

/-- `BPL`, bytes per layer (R41). -/
def bpl : Geometry → Nat
  | .n4 => 2
  | .n8 => 8

/-- `TOTAL_BYTES` = `LAYER_COUNT` * `BPL`, with one layer for each z (R7, R41). -/
def totalBytes (g : Geometry) : Nat := cubeN g * bpl g

/-- The buffer is in its canonical form and lists nothing outside the buffer (R48, R53). -/
abbrev memOk (g : Geometry) (m : Memory) : Prop := m.wf ∧ ∀ c ∈ m, c.1 < totalBytes g

/-! Bytes (R48). -/

/-- The byte listed at `a`, if any. -/
def lookupByte : Memory → Nat → Byte
  | [], _ => unlistedByte
  | (b, v) :: rest, a => if b = a then v else lookupByte rest a

/-- Put a cell before the first cell with a larger address. -/
def insertCell (a : Nat) (v : Byte) : Memory → Memory
  | [] => [(a, v)]
  | (b, u) :: rest => if a < b then (a, v) :: (b, u) :: rest else (b, u) :: insertCell a v rest

/-- Take every cell at `a` out. -/
def dropByte (a : Nat) : Memory → Memory
  | [] => []
  | (b, u) :: rest => if b = a then dropByte a rest else (b, u) :: dropByte a rest

/-- Store a byte, keeping the canonical form. -/
def storeByte (m : Memory) (a : Nat) (v : Byte) : Memory :=
  if v = unlistedByte then dropByte a m else insertCell a v (dropByte a m)

/-- `MemRead(A, 1)` (R48): 0x00 at and above `TOTAL_BYTES`. -/
def memRead (g : Geometry) (m : Memory) (a : Nat) : Byte :=
  if a < totalBytes g then lookupByte m a else 0x00

/-- `MemWrite(A, 1, v)` (R48). -/
def memWrite (m : Memory) (a : Nat) (v : Byte) : Memory := storeByte m a v

/-- `for k in a..b` (R9): a to b inclusive, nothing when a > b. -/
def span (a b : Nat) : List Nat := List.range' a (b + 1 - a)

/-! The addressing decoder (R43, R44). -/

/-- Where a voxel lives: layer, byte in the layer, bit in the byte. -/
structure BitPlace where
  layer : Nat
  byte : Nat
  bit : Nat
deriving DecidableEq, Repr, Inhabited

/-- `decode8` and `decode4`; meant for in-range coordinates. -/
def place (g : Geometry) (p : Coord) : BitPlace :=
  match g with
  | .n8 => ⟨p.z, p.y, p.x⟩
  | .n4 => ⟨p.z, p.y / 2, p.x + 4 * (p.y % 2)⟩

/-- The linear address of the voxel's byte (R48). -/
def byteAddr (g : Geometry) (p : Coord) : Nat := (place g p).layer * bpl g + (place g p).byte

/-- The voxel's bit in that byte. -/
def bitIx (g : Geometry) (p : Coord) : Nat := (place g p).bit

/-- `V(x, y, z)` (R45). -/
def getV (g : Geometry) (m : Memory) (p : Coord) : Bool :=
  (lookupByte m (byteAddr g p)).getLsbD (bitIx g p)

/-- `1 << i` as a byte. -/
def bitMask (i : Nat) : Byte := 1#8 <<< i

/-- `SetV` (R46). -/
def setV (g : Geometry) (m : Memory) (p : Coord) : Memory :=
  memWrite m (byteAddr g p) (lookupByte m (byteAddr g p) ||| bitMask (bitIx g p))

/-- `ClrV` (R46). -/
def clrV (g : Geometry) (m : Memory) (p : Coord) : Memory :=
  memWrite m (byteAddr g p) (lookupByte m (byteAddr g p) &&& ~~~ bitMask (bitIx g p))

/-- `FlipV` (R46). -/
def flipV (g : Geometry) (m : Memory) (p : Coord) : Memory :=
  memWrite m (byteAddr g p) (lookupByte m (byteAddr g p) ^^^ bitMask (bitIx g p))

/-- Make the voxel `b`: `SetV` or `ClrV`. -/
def putV (g : Geometry) (m : Memory) (p : Coord) (b : Bool) : Memory :=
  if b then setV g m p else clrV g m p

/-- `SetV` at each coordinate of the list, in its order. -/
def setAll (g : Geometry) (m : Memory) (ps : List Coord) : Memory := ps.foldl (setV g) m

/-- `ClrV` at each coordinate of the list, in its order. -/
def clrAll (g : Geometry) (m : Memory) (ps : List Coord) : Memory := ps.foldl (clrV g) m

/-- Make each voxel of the list what `f` says of it. -/
def putAll (g : Geometry) (f : Coord → Bool) (m : Memory) (ps : List Coord) : Memory :=
  ps.foldl (fun acc p => putV g acc p (f p)) m

/-- The voxels of row (y, z), x from 0 up (R12, R47). -/
def rowCoords (g : Geometry) (y z : Nat) : List Coord :=
  (span 0 (cubeN g - 1)).map (fun x => ⟨x, y, z⟩)

/-- `Row(y, z)` (R47): bit x is voxel x. -/
def readRow (g : Geometry) (m : Memory) (y z : Nat) : Byte :=
  (rowCoords g y z).foldl (fun acc p => if getV g m p then acc ||| bitMask p.x else acc) 0

/-- `WriteRow(y, z, r)` (R47): the row's own bits are replaced, no others. -/
def writeRow (g : Geometry) (m : Memory) (y z : Nat) (r : Byte) : Memory :=
  putAll g (fun p => r.getLsbD p.x) m (rowCoords g y z)

/-- `for A in 0..TOTAL_BYTES-1: MemWrite(A, 1, v)` (R120, R181). -/
def fillBytes (g : Geometry) (m : Memory) (v : Byte) : Memory :=
  (span 0 (totalBytes g - 1)).foldl (fun acc a => memWrite acc a v) m

/-- `ClearBuffer()` (R181). -/
def clearBuffer (g : Geometry) (m : Memory) : Memory := fillBytes g m 0x00

/-! The named registers. -/

/-- `for s in 0..4: SLOT[s] <- 0` (R182, R183). -/
def zeroSlots : Slots := Vector.replicate 5 0

/-- `EFFECTS_COUNT` (R7). -/
def effectsCount : Nat := 5

/-- `CUR` and `PREV` hold an effect index or `NONE` (R22, R23). -/
abbrev effectLegal (b : Byte) : Prop := b.toNat < effectsCount ∨ b = noneEffect

/-- `LAST[i] <- t` (R185). -/
def setLast (last : Stamps) (i t : Nat) : Stamps := last.setIfInBounds i t

/-! The interface. -/

/-- The state a command leaves when it completes (R27, R28): its result is on `RESULT`,
`BUSY` is 0. -/
def completed (r : Byte) (s : State) : State := { s with result := r, busy := false }

/-- The state with another buffer. -/
def withMem (m : Memory) (s : State) : State := { s with mem := m }

/-- A command completes with a result. -/
def complete (r : Byte) (s : State) : Host.Outcome State Fault Refusal := .next (completed r s)

/-- A command that writes the buffer and has no result completes with 0x00 (R27, R68). -/
def completeDraw (m : Memory) (s : State) : Host.Outcome State Fault Refusal :=
  complete 0x00 (withMem m s)

/-- `CMD_READY` (R28). -/
def cmdReady (s : State) : Bool := !s.busy

/-- `BRIGHT_OUT` (R29). -/
def brightOut (s : State) : Byte := s.bright

/-- `DONE` (R29): a command completed in the step that answered `answer` from `s`. It does not
mark a step that idles, takes `RST` or accepts no command. -/
def commandDone (s : State) (answer : Host.Outcome State Fault Refusal) : Bool :=
  match s.inputs, answer with
  | .command _ _ :: _, .next _ => true
  | _, _ => false

/-- `NOW` has `CLK_W` wires (R29). -/
def sampleNow (cfg : Config) (now : Nat) : Nat := now % 2 ^ cfg.clkW

/-- A command is accepted (R28, R185): `BUSY` rises, `NOW` is sampled, the offer is gone. -/
def accept (now : Nat) (rest : List HostEvent) (s : State) : State :=
  { s with inputs := rest, now := sampleNow s.cfg now, busy := true }

/-- `RST` (R240): every piece of the block's state takes its reset value. -/
def assertRst (s : State) : State :=
  { s with
    mem := []
    cur := noneEffect
    prev := noneEffect
    bright := s.cfg.brightnessMax
    slots := zeroSlots
    last := Vector.replicate 5 0
    result := 0
    busy := false }

/-- The display port (R50): what the k-th read gives at `DISP_ADDR` = `a`. Exact while
`BUSY` = 0, any byte while `BUSY` = 1. -/
def displayData (s : State) (k : Nat) (a : BitVec 6) : Byte :=
  if s.busy then Config.freeDisplayByte k a else memRead s.cfg.geometry s.mem a.toNat

/-- A reserved opcode (R66): no state changes, `RESULT` is 0x00. -/
def execReserved (s : State) : Host.Outcome State Fault Refusal := complete 0x00 s

/-- One draw from the random collaborator (R9, R228): the next answer lined up; where none
is, a free value in [0, `CUBE_N`). An answer outside the range is no answer the
block has a rule for (U5). -/
def drawRand (g : Geometry) (rand : List RandVal) (freeIx : Nat) :
    Except RandVal (RandVal × List RandVal × Nat) :=
  match rand with
  | v :: rest => if v.toNat < cubeN g then .ok (v, rest, freeIx) else .error v
  | [] => .ok (BitVec.ofNat 3 ((Config.freeDraw freeIx).toNat % cubeN g), [], freeIx + 1)

end Sys2Proof.Machine
end

