-- ==== Sys2Proof/Machine/Flags.lean ====
section
/-!
DEFINITION. The block has no flags and no condition codes (10_state.md R30). What stands in their
place is the `RESULT` byte (R27, R68): these are the bytes the queries compute.
-/

namespace Sys2Proof.Machine

open Sys2Proof

/-- A truth value as a result byte: 0x01 or 0x00 (R68). -/
def resultBit (b : Bool) : Byte := if b then 0x01 else 0x00

/-- Whether no effect is running (R191). -/
def noEffectRunning (s : State) : Bool := s.cur == noneEffect

end Sys2Proof.Machine
end

