-- ==== Sys2Proof/Machine/Operands.lean ====
section
/-!
DEFINITION. The operand forms: the range test (20_memory.md R42), the bit-range mask
(40_addressing.md R82), planes (42_fill_plane.md), the prologues of BOX and LINE, the voxels of boxes
and lines (43_box_line.md), the neighbours of SHIFT (44_shift.md), the elapsed time (45_sequencer.md R184).
-/

namespace Sys2Proof.Machine

open Sys2Proof

/-- `inRange` (R42). -/
def inRange (g : Geometry) (p : Coord) : Bool := p.x < cubeN g && p.y < cubeN g && p.z < cubeN g

/-- A plane coordinate is below `CUBE_N` (R121). -/
def planeInRange (g : Geometry) (c : Nat) : Bool := c < cubeN g

/-- `byteline(s, e)` for s ≤ e ≤ 7 (R82). -/
def byteline (start stop : Nat) : Byte := (0xFF#8 <<< start) &&& (0xFF#8 >>> (7 - stop))

/-- The voxels with z in z1..z2, y in y1..y2, x in x1..x2, in that nesting (R141). -/
def boxCoords (x1 y1 z1 x2 y2 z2 : Nat) : List Coord :=
  (span z1 z2).flatMap fun z => (span y1 y2).flatMap fun y => (span x1 x2).map fun x => ⟨x, y, z⟩

/-- Every in-range coordinate. -/
def allCoords (g : Geometry) : List Coord :=
  boxCoords 0 0 0 (cubeN g - 1) (cubeN g - 1) (cubeN g - 1)

/-- The plane x = c (R121). -/
def planeX (g : Geometry) (c : Nat) : List Coord :=
  boxCoords c 0 0 c (cubeN g - 1) (cubeN g - 1)

/-- The plane y = c (R122). -/
def planeY (g : Geometry) (c : Nat) : List Coord :=
  boxCoords 0 c 0 (cubeN g - 1) c (cubeN g - 1)

/-- The plane z = c (R123). -/
def planeZ (g : Geometry) (c : Nat) : List Coord :=
  boxCoords 0 0 c (cubeN g - 1) (cubeN g - 1) c

/-- Two corners of a box, or two endpoints of a line. -/
structure TwoPoints where
  p : Coord
  q : Coord
deriving DecidableEq, Repr, Inhabited

/-- `BoxPrologue` (R140): nothing when a corner is out of range, else each axis in order. -/
def boxPrologue (g : Geometry) (p q : Coord) : Option TwoPoints :=
  if inRange g p && inRange g q then
    some ⟨⟨min p.x q.x, min p.y q.y, min p.z q.z⟩, ⟨max p.x q.x, max p.y q.y, max p.z q.z⟩⟩
  else none

/-- `LinePrologue` (R150): nothing when an endpoint is out of range, else the endpoints
swapped together when x1 > x2. -/
def linePrologue (g : Geometry) (p q : Coord) : Option TwoPoints :=
  if inRange g p && inRange g q then
    if p.x > q.x then some ⟨q, p⟩ else some ⟨p, q⟩
  else none

/-- The voxels of the box on an edge (R143): at least two coordinates at a bound. -/
def frameCoords (b : TwoPoints) : List Coord :=
  (boxCoords b.p.x b.p.y b.p.z b.q.x b.q.y b.q.z).filter fun v =>
    2 ≤ (v.x == b.p.x || v.x == b.q.x).toNat + (v.y == b.p.y || v.y == b.q.y).toNat +
      (v.z == b.p.z || v.z == b.q.z).toNat

/-- `RoundHalfUp(p, q)` (R151). -/
def roundHalfUp (p q : Nat) : Nat := (2 * p + q) / (2 * q)

/-- `Offset(a, b, k, dx)` (R151): the magnitude rounded, then the direction. -/
def lineOffset (a b k dx : Nat) : Int :=
  Int.sign ((b : Int) - a) * roundHalfUp (((b : Int) - a).natAbs * k) dx

/-- The start value plus the offset; never negative (R154). -/
def lineAt (a b k dx : Nat) : Nat := ((a : Int) + lineOffset a b k dx).toNat

/-- The voxels of a line after the prologue (R152, R153). -/
def lineCoords (l : TwoPoints) : List Coord :=
  let dx := l.q.x - l.p.x
  if dx = 0 then [l.p]
  else (span 0 dx).map fun k => ⟨l.p.x + k, lineAt l.p.y l.q.y k dx, lineAt l.p.z l.q.z k dx⟩

/-- `p.axis` (R170). -/
def along : Axis → Coord → Nat
  | .x, p => p.x
  | .y, p => p.y
  | .z, p => p.z
  | .noAxis, _ => 0

/-- The coordinate with `p.axis` replaced: `p + e` and `p - e` of R170. -/
def moveTo : Axis → Nat → Coord → Coord
  | .x, v, p => { p with x := v }
  | .y, v, p => { p with y := v }
  | .z, v, p => { p with z := v }
  | .noAxis, _, p => p

/-- `Vnew(p)` (R170). -/
def shiftedVoxel (g : Geometry) (axis : Axis) (dir : Dir) (m : Memory) (p : Coord) : Bool :=
  match dir with
  | .minus => if along axis p < cubeN g - 1 then getV g m (moveTo axis (along axis p + 1) p)
      else false
  | .plus => if 0 < along axis p then getV g m (moveTo axis (along axis p - 1) p) else false

/-- `Elapsed(time1, time2)` (R184). -/
def elapsed (clkW time1 time2 : Nat) : Nat := (((time2 : Int) - time1) % 2 ^ clkW).toNat

/-- `EFFECT_INTERVAL(i, SLOT)` as a `CLK_W`-bit value (U11). -/
def effectInterval (p : EffectParams) (cfg : Config) (i : Nat) (slots : Slots) : Nat :=
  p.interval cfg i slots % 2 ^ cfg.clkW

/-- The legal values of `BRIGHT` are 0 to `BRIGHTNESS_MAX` (R24): the limit on what an effect
step leaves there (log 4). -/
def legalBright (cfg : Config) (b : Byte) : Byte :=
  if b.toNat ≤ cfg.brightnessMax.toNat then b else cfg.brightnessMax

end Sys2Proof.Machine
end

