-- ==== Sys2Proof/Machine/Addressing.lean ====
section
/-!
DEFINITION. The addressing decoder commands (40_addressing.md): NOP, INRANGE, BYTELINE, RDB.
-/

namespace Sys2Proof.Machine

open Sys2Proof

/-- R80 -/
def execNop (s : State) : Host.Outcome State Fault Refusal := complete 0x00 s

/-- R81 -/
def execInrange (x y z : Nat) (s : State) : Host.Outcome State Fault Refusal :=
  complete (resultBit (inRange s.cfg.geometry ⟨x, y, z⟩)) s

/-- R83. With start > end the result is any byte: a free value (U1, log 10). -/
def execByteline (start stop : Nat) (s : State) : Host.Outcome State Fault Refusal :=
  if start ≤ stop then complete (byteline start stop) s
  else complete (Config.freeByte s.freeIx) { s with freeIx := s.freeIx + 1 }

/-- R84 -/
def execRdb (addr : Byte) (s : State) : Host.Outcome State Fault Refusal :=
  complete (memRead s.cfg.geometry s.mem addr.toNat) s

end Sys2Proof.Machine
end

