-- ==== Sys2Proof/Machine/BoxLine.lean ====
section
/-!
DEFINITION. The box and line commands (43_box_line.md): BOX, LINE.
-/

namespace Sys2Proof.Machine

open Sys2Proof

/-- FILLED (R141). -/
def drawFilled (g : Geometry) (b : TwoPoints) (m : Memory) : Memory :=
  setAll g m (boxCoords b.p.x b.p.y b.p.z b.q.x b.q.y b.q.z)

/-- One row (y, z) of WALLS (R142): a row on a y-face or a z-face is replaced by the mask
of x1..x2, every other row of the box gets its two side voxels. -/
def drawWallsRow (g : Geometry) (b : TwoPoints) (z : Nat) (m : Memory) (y : Nat) : Memory :=
  if z = b.p.z ∨ z = b.q.z ∨ y = b.p.y ∨ y = b.q.y then
    writeRow g m y z (byteline b.p.x b.q.x)
  else setV g (setV g m ⟨b.p.x, y, z⟩) ⟨b.q.x, y, z⟩

/-- WALLS (R142). -/
def drawWalls (g : Geometry) (b : TwoPoints) (m : Memory) : Memory :=
  (span b.p.z b.q.z).foldl
    (fun acc z => (span b.p.y b.q.y).foldl (drawWallsRow g b z) acc) m

/-- FRAME (R143). -/
def drawFrame (g : Geometry) (b : TwoPoints) (m : Memory) : Memory := setAll g m (frameCoords b)

/-- The four values of the type field (R141 to R144). -/
def drawStyle (g : Geometry) (style : BoxStyle) (b : TwoPoints) (m : Memory) : Memory :=
  match style with
  | .filled => drawFilled g b m
  | .walls => drawWalls g b m
  | .frame => drawFrame g b m
  | .noStyle => m

/-- R145 -/
def drawBox (g : Geometry) (style : BoxStyle) (p q : Coord) (m : Memory) : Memory :=
  match boxPrologue g p q with
  | some b => drawStyle g style b m
  | none => m

/-- R152 -/
def drawLine (g : Geometry) (p q : Coord) (m : Memory) : Memory :=
  match linePrologue g p q with
  | some l => setAll g m (lineCoords l)
  | none => m

/-- R145 -/
def execBox (style : BoxStyle) (x1 y1 z1 x2 y2 z2 : Nat) (s : State) :
    Host.Outcome State Fault Refusal :=
  completeDraw (drawBox s.cfg.geometry style ⟨x1, y1, z1⟩ ⟨x2, y2, z2⟩ s.mem) s

/-- R152 -/
def execLine (x1 y1 z1 x2 y2 z2 : Nat) (s : State) : Host.Outcome State Fault Refusal :=
  completeDraw (drawLine s.cfg.geometry ⟨x1, y1, z1⟩ ⟨x2, y2, z2⟩ s.mem) s

end Sys2Proof.Machine
end

