-- ==== Sys2Proof/Machine/FillPlane.lean ====
section
/-!
DEFINITION. The bulk fill and plane commands (42_fill_plane.md): FILL, SETPX, SETPY, SETPZ, CLRPX, CLRPY,
CLRPZ.
-/

namespace Sys2Proof.Machine

open Sys2Proof

/-- R120 -/
def drawFill (g : Geometry) (pattern : Byte) (m : Memory) : Memory := fillBytes g m pattern

/-- R121 -/
def drawSetpx (g : Geometry) (c : Nat) (m : Memory) : Memory :=
  if planeInRange g c then setAll g m (planeX g c) else m

/-- R122 -/
def drawSetpy (g : Geometry) (c : Nat) (m : Memory) : Memory :=
  if planeInRange g c then setAll g m (planeY g c) else m

/-- R123 -/
def drawSetpz (g : Geometry) (c : Nat) (m : Memory) : Memory :=
  if planeInRange g c then setAll g m (planeZ g c) else m

/-- R124 -/
def drawClrpx (g : Geometry) (c : Nat) (m : Memory) : Memory :=
  if planeInRange g c then clrAll g m (planeX g c) else m

/-- R125 -/
def drawClrpy (g : Geometry) (c : Nat) (m : Memory) : Memory :=
  if planeInRange g c then clrAll g m (planeY g c) else m

/-- R126 -/
def drawClrpz (g : Geometry) (c : Nat) (m : Memory) : Memory :=
  if planeInRange g c then clrAll g m (planeZ g c) else m

/-- R120 -/
def execFill (pattern : Byte) (s : State) : Host.Outcome State Fault Refusal :=
  completeDraw (drawFill s.cfg.geometry pattern s.mem) s

/-- R121 -/
def execSetpx (c : Nat) (s : State) : Host.Outcome State Fault Refusal :=
  completeDraw (drawSetpx s.cfg.geometry c s.mem) s

/-- R122 -/
def execSetpy (c : Nat) (s : State) : Host.Outcome State Fault Refusal :=
  completeDraw (drawSetpy s.cfg.geometry c s.mem) s

/-- R123 -/
def execSetpz (c : Nat) (s : State) : Host.Outcome State Fault Refusal :=
  completeDraw (drawSetpz s.cfg.geometry c s.mem) s

/-- R124 -/
def execClrpx (c : Nat) (s : State) : Host.Outcome State Fault Refusal :=
  completeDraw (drawClrpx s.cfg.geometry c s.mem) s

/-- R125 -/
def execClrpy (c : Nat) (s : State) : Host.Outcome State Fault Refusal :=
  completeDraw (drawClrpy s.cfg.geometry c s.mem) s

/-- R126 -/
def execClrpz (c : Nat) (s : State) : Host.Outcome State Fault Refusal :=
  completeDraw (drawClrpz s.cfg.geometry c s.mem) s

end Sys2Proof.Machine
end

