-- ==== Sys2Proof/Machine/Point.lean ====
section
/-!
DEFINITION. The point commands (41_point.md): SETV, CLRV, TGLV, ALTV, GETV. The `draw…` functions
are what a command does to the buffer; an effect step uses them too (45_sequencer.md R186).
-/

namespace Sys2Proof.Machine

open Sys2Proof

/-- R100 -/
def drawSetv (g : Geometry) (x y z : Nat) (m : Memory) : Memory :=
  if inRange g ⟨x, y, z⟩ then setV g m ⟨x, y, z⟩ else m

/-- R101 -/
def drawClrv (g : Geometry) (x y z : Nat) (m : Memory) : Memory :=
  if inRange g ⟨x, y, z⟩ then clrV g m ⟨x, y, z⟩ else m

/-- R102 -/
def drawTglv (g : Geometry) (x y z : Nat) (m : Memory) : Memory :=
  if inRange g ⟨x, y, z⟩ then flipV g m ⟨x, y, z⟩ else m

/-- R103 -/
def drawAltv (g : Geometry) (x y z : Nat) (state : Byte) (m : Memory) : Memory :=
  if state = 0 then drawClrv g x y z m else drawSetv g x y z m

/-- R100 -/
def execSetv (x y z : Nat) (s : State) : Host.Outcome State Fault Refusal :=
  completeDraw (drawSetv s.cfg.geometry x y z s.mem) s

/-- R101 -/
def execClrv (x y z : Nat) (s : State) : Host.Outcome State Fault Refusal :=
  completeDraw (drawClrv s.cfg.geometry x y z s.mem) s

/-- R102 -/
def execTglv (x y z : Nat) (s : State) : Host.Outcome State Fault Refusal :=
  completeDraw (drawTglv s.cfg.geometry x y z s.mem) s

/-- R103 -/
def execAltv (x y z : Nat) (state : Byte) (s : State) : Host.Outcome State Fault Refusal :=
  completeDraw (drawAltv s.cfg.geometry x y z state s.mem) s

/-- R104 -/
def execGetv (x y z : Nat) (s : State) : Host.Outcome State Fault Refusal :=
  complete (if inRange s.cfg.geometry ⟨x, y, z⟩ then
    resultBit (getV s.cfg.geometry s.mem ⟨x, y, z⟩) else 0x00) s

end Sys2Proof.Machine
end

