-- ==== Sys2Proof/Machine/Shift.lean ====
section
/-!
DEFINITION. The shift command (44_shift.md R170).
-/

namespace Sys2Proof.Machine

open Sys2Proof

/-- R170: every voxel takes `Vnew`, computed from the buffer before the command; no axis
changes nothing. -/
def drawShift (g : Geometry) (axis : Axis) (dir : Dir) (m : Memory) : Memory :=
  match axis with
  | .noAxis => m
  | a => putAll g (shiftedVoxel g a dir m) m (allCoords g)

/-- The plane at index k of an axis. -/
def planeAt (g : Geometry) (axis : Axis) (k : Nat) : List Coord :=
  match axis with
  | .x => planeX g k
  | .y => planeY g k
  | .z => planeZ g k
  | .noAxis => []

/-- R170's traversal, informative: one layer is copied from its neighbour, read from the
buffer as it stands. -/
def moveLayer (g : Geometry) (axis : Axis) (dir : Dir) (m : Memory) (k : Nat) : Memory :=
  putAll g (shiftedVoxel g axis dir m) m (planeAt g axis k)

/-- R170's traversal: toward index 0 the layers go from the lowest up and the plane
`CUBE_N` - 1 is cleared; toward `CUBE_N` - 1 they go from the highest down and plane 0
is cleared (C3). The command does not use it: that it gives what the command gives
is a claim. -/
def shiftInPlace (g : Geometry) (axis : Axis) (dir : Dir) (m : Memory) : Memory :=
  match dir with
  | .minus => clrAll g ((span 0 (cubeN g - 2)).foldl (moveLayer g axis .minus) m)
      (planeAt g axis (cubeN g - 1))
  | .plus => clrAll g ((span 1 (cubeN g - 1)).reverse.foldl (moveLayer g axis .plus) m)
      (planeAt g axis 0)

/-- R170 -/
def execShift (axis : Axis) (dir : Dir) (s : State) : Host.Outcome State Fault Refusal :=
  completeDraw (drawShift s.cfg.geometry axis dir s.mem) s

end Sys2Proof.Machine
end

