-- ==== Sys2Proof/Machine/Effects.lean ====
section
/-!
DEFINITION. The effects (45_sequencer.md R186 to R188): the running of one effect step, what a
cycle of steps reaches, the contract every admissible set of effects meets, and the
build's own effects, of which nothing but that contract is known.
-/

namespace Sys2Proof.Machine

open Sys2Proof

/-- What a drawing command does to the buffer (R186 (b): an effect changes the buffer only
so). The commands that draw nothing leave it alone. -/
def drawInstr (g : Geometry) (i : Instr) (m : Memory) : Memory :=
  match i with
  | .setv x y z => drawSetv g x y z m
  | .clrv x y z => drawClrv g x y z m
  | .tglv x y z => drawTglv g x y z m
  | .altv x y z state => drawAltv g x y z state m
  | .fill pattern => drawFill g pattern m
  | .setpx c => drawSetpx g c m
  | .setpy c => drawSetpy g c m
  | .setpz c => drawSetpz g c m
  | .clrpx c => drawClrpx g c m
  | .clrpy c => drawClrpy g c m
  | .clrpz c => drawClrpz g c m
  | .box style x1 y1 z1 x2 y2 z2 => drawBox g style ⟨x1, y1, z1⟩ ⟨x2, y2, z2⟩ m
  | .line x1 y1 z1 x2 y2 z2 => drawLine g ⟨x1, y1, z1⟩ ⟨x2, y2, z2⟩ m
  | .shift axis dir => drawShift g axis dir m
  | .nop => m
  | .inrange _ _ _ => m
  | .byteline _ _ => m
  | .rdb _ => m
  | .getv _ _ _ => m
  | .start _ => m
  | .finish => m
  | .process _ => m
  | .getcur => m
  | .getprev => m
  | .isfin => m
  | .getbright => m

/-- What an effect step leaves: `SLOT'`, `B'`, `BRIGHT'`, `fin`, and the random answers not
used. -/
structure EffectResult where
  slots : Slots
  mem : Memory
  bright : Byte
  fin : Bool
  rand : List RandVal
  freeIx : Nat
deriving DecidableEq, Repr, Inhabited

/-- Run one effect step to its end (R186); the error is a random answer out of range
(U5). -/
def runEffect (cfg : Config) :
    EffectProg → Memory → List RandVal → Nat → Except RandVal EffectResult
  | .done slots bright fin, m, rand, k => .ok ⟨slots, m, legalBright cfg bright, fin, rand, k⟩
  | .op i rest, m, rand, k => runEffect cfg rest (drawInstr cfg.geometry i m) rand k
  | .draw rest, m, rand, k =>
    match drawRand cfg.geometry rand k with
    | .ok (v, rand', k') => runEffect cfg (rest v) m rand' k'
    | .error v => .error v

/-! The cycle of an effect. -/

/-- `r` is what one step of effect i with `shouldFinish` = `sf` can leave from these slots and
this brightness, whatever the buffer and the random answers. -/
def StepsWith (p : EffectParams) (cfg : Config) (i : Nat) (sf : Bool) (slots : Slots)
    (bright : Byte) (r : EffectResult) : Prop :=
  ∃ (m : Memory) (rand : List RandVal) (k : Nat), memOk cfg.geometry m ∧
    runEffect cfg (p.step cfg i slots m bright sf) m rand k = .ok r

/-- The same, whatever `shouldFinish`. -/
def StepsTo (p : EffectParams) (cfg : Config) (i : Nat) (slots : Slots) (bright : Byte)
    (r : EffectResult) : Prop := ∃ sf, StepsWith p cfg i sf slots bright r

/-- The slots and the brightness effect i can have between its steps: those START leaves (R182),
and those an unfinished step leaves from them. -/
inductive InCycle (p : EffectParams) (cfg : Config) (i : Nat) : Slots → Byte → Prop where
  | start : InCycle p cfg i zeroSlots cfg.brightnessMax
  | step {slots : Slots} {bright : Byte} {r : EffectResult} (before : InCycle p cfg i slots bright)
      (stepped : StepsTo p cfg i slots bright r) (unfinished : r.fin = false) :
      InCycle p cfg i r.slots r.bright

/-- Of the next `n` steps of effect i with `shouldFinish` asserted, whatever the buffer and the
random answers at each, one asks to finish. -/
def FinishesWithin (p : EffectParams) (cfg : Config) (i : Nat) : Nat → Slots → Byte → Prop
  | 0, _, _ => False
  | n + 1, slots, bright =>
    ∀ (m : Memory) (rand : List RandVal) (k : Nat) (r : EffectResult), memOk cfg.geometry m →
      runEffect cfg (p.step cfg i slots m bright true) m rand k = .ok r →
        r.fin = true ∨ FinishesWithin p cfg i n r.slots r.bright

/-- The graceful-finish contract (R187): from every point of the cycle of every effect, one of
the first `CYCLE_BOUND(i)` steps with `shouldFinish` asserted asks to finish. -/
def GracefulFinish (p : EffectParams) : Prop :=
  ∀ (cfg : Config) (i : Nat) (slots : Slots) (bright : Byte), cfg.wellFormed = true →
    i < effectsCount → InCycle p cfg i slots bright →
    FinishesWithin p cfg i (p.cycleBound i) slots bright

/-! The registered effects (R188). -/

/-- `SLOT[0]` of effects 2 and 3: the axis. -/
def planeAxis (slots : Slots) : BitVec 16 := slots[0]

/-- `SLOT[1]` of effects 2 and 3: the position. -/
def planePosition (slots : Slots) : Nat := slots[1].toNat

/-- `SLOT[2]` of effects 2 and 3: the phase counter, of which R188 fixes only the place. -/
def planePhase (slots : Slots) : BitVec 16 := slots[2]

/-- The axis cycle Z, Y, X, Z. -/
def nextAxis : Axis → Axis
  | .z => .y
  | .y => .x
  | .x => .z
  | .noAxis => .noAxis

/-- The slots name an axis and a position in the cube (DEDUCED, log 15). -/
def OnAxis (p : EffectParams) (g : Geometry) (slots : Slots) : Prop :=
  (∃ a, a ≠ .noAxis ∧ planeAxis slots = p.axisCode a) ∧ planePosition slots < cubeN g

/-- From one step to the next the axis stays or goes to the next of its cycle. -/
def AxisCycles (p : EffectParams) (s t : Slots) : Prop :=
  ∀ a, a ≠ .noAxis → planeAxis s = p.axisCode a →
    planeAxis t = p.axisCode a ∨ planeAxis t = p.axisCode (nextAxis a)

/-- The steps a, a + 1, ..., b are along one axis. -/
def OneAxis (slots : Nat → Slots) (a b : Nat) : Prop :=
  ∀ k, a ≤ k → k ≤ b → planeAxis (slots k) = planeAxis (slots a)

/-- The position reverses at `q`: it arrives there after step a, rests there or not, and leaves
at step b to the side it came from. -/
structure TurnsAt (slots : Nat → Slots) (a b q : Nat) : Prop where
  between : a + 1 < b
  rests : ∀ k, a < k → k < b → planePosition (slots k) = q
  reverses : (planePosition (slots a) < q ∧ planePosition (slots b) < q) ∨
    (q < planePosition (slots a) ∧ q < planePosition (slots b))

/-- `q` is one of the two bounds 0 and `CUBE_N` - 1 of an axis. -/
abbrev atCubeBound (g : Geometry) (q : Nat) : Prop := q = 0 ∨ q = cubeN g - 1

/-- Along one axis the position reverses nowhere but at 0 and `CUBE_N` - 1, over the steps up to
`n` (DEDUCED, log 15). -/
def BouncesAtBounds (g : Geometry) (slots : Nat → Slots) (n : Nat) : Prop :=
  ∀ a b q, b ≤ n → OneAxis slots a b → TurnsAt slots a b q → atCubeBound g q

/-- `n` + 1 unfinished steps of effect i in a row, from a point of its cycle, with the values of
`shouldFinish` that `flag` gives. -/
structure UnfinishedRun (p : EffectParams) (cfg : Config) (i : Nat) (flag : Nat → Bool)
    (run : Nat → EffectResult) (n : Nat) : Prop where
  first : ∃ slots bright, InCycle p cfg i slots bright ∧
    StepsWith p cfg i (flag 0) slots bright (run 0) ∧ (run 0).fin = false
  next : ∀ k, k < n →
    StepsWith p cfg i (flag (k + 1)) (run k).slots (run k).bright (run (k + 1)) ∧
      (run (k + 1)).fin = false

/-- The slots along a run. -/
def slotsOf (run : Nat → EffectResult) (k : Nat) : Slots := (run k).slots

/-- What R188 fixes of a bouncing plane (DEDUCED, log 15). -/
structure BouncingPlane (p : EffectParams) (cfg : Config) (i : Nat) : Prop where
  on_axis : ∀ slots bright r, InCycle p cfg i slots bright → StepsTo p cfg i slots bright r →
    r.fin = false → OnAxis p cfg.geometry r.slots
  axis_cycles : ∀ slots bright r r', InCycle p cfg i slots bright →
    StepsTo p cfg i slots bright r → r.fin = false →
    StepsTo p cfg i r.slots r.bright r' → r'.fin = false → AxisCycles p r.slots r'.slots
  bounces : ∀ flag run n, UnfinishedRun p cfg i flag run n →
    BouncesAtBounds cfg.geometry (slotsOf run) n
  /-- It does reverse at 0 and at `CUBE_N` - 1. -/
  can_turn : ∀ q, atCubeBound cfg.geometry q → ∃ flag run n a b,
    UnfinishedRun p cfg i flag run n ∧ b ≤ n ∧ TurnsAt (slotsOf run) a b q
  /-- It does go from each axis to the next of the cycle. -/
  can_cycle : ∀ a, a ≠ .noAxis → ∃ flag run n k, UnfinishedRun p cfg i flag run n ∧ k < n ∧
    planeAxis (slotsOf run k) = p.axisCode a ∧
    planeAxis (slotsOf run (k + 1)) = p.axisCode (nextAxis a)
  /-- As long as it runs and is not asked to finish, it reverses at both bounds again and
  again. -/
  keeps_turning : ∀ run, (∀ n, UnfinishedRun p cfg i (fun _ => false) run n) →
    ∀ q, atCubeBound cfg.geometry q → ∀ n, ∃ a b, n ≤ a ∧ TurnsAt (slotsOf run) a b q
  /-- And takes each of the three axes again and again. -/
  keeps_cycling : ∀ run, (∀ n, UnfinishedRun p cfg i (fun _ => false) run n) →
    ∀ a, a ≠ .noAxis → ∀ n, ∃ m, n ≤ m ∧ planeAxis (slotsOf run m) = p.axisCode a

/-- Some run of the step takes a draw. -/
def takesDraw : EffectProg → Bool
  | .done _ _ _ => false
  | .op _ rest => takesDraw rest
  | .draw _ => true

/-- The contract of an admissible set of effects (D26): R187, and what R188 fixes of effects
1 to 4. R186 stands in the type of a step (log 3). -/
structure Admissible (p : EffectParams) : Prop where
  graceful : GracefulFinish p
  /-- The codes of the three axes differ. -/
  axis_codes : ∀ a b, a ≠ .noAxis → b ≠ .noAxis → p.axisCode a = p.axisCode b → a = b
  /-- Random-toggle uses the random collaborator. -/
  random_toggle : ∀ cfg : Config, cfg.wellFormed = true → ∃ slots bright m sf,
    InCycle p cfg 1 slots bright ∧ memOk cfg.geometry m ∧
      takesDraw (p.step cfg 1 slots m bright sf) = true
  bouncing_plane : ∀ cfg : Config, cfg.wellFormed = true → BouncingPlane p cfg 2
  sticky_bouncing_plane : ∀ cfg : Config, cfg.wellFormed = true → BouncingPlane p cfg 3
  /-- The interval of the blink depends on the slots (a clock of no bits has one value). -/
  accelerating_blink : ∀ cfg : Config, cfg.wellFormed = true → 0 < cfg.clkW →
    ∃ s t : Slots, effectInterval p cfg 4 s ≠ effectInterval p cfg 4 t

/-! The contract can be met. -/

/-- Slots at phase t of a cycle of 12: four steps along each of X, Z and Y, the position at the
two bounds in turn. -/
def sampleSlots (g : Geometry) (t : Nat) : Slots :=
  #v[if t / 4 = 0 then 0 else if t / 4 = 1 then 2 else 1,
    if t % 2 = 1 then BitVec.ofNat 16 (cubeN g - 1) else 0, BitVec.ofNat 16 t, 0, 0]

/-- Effects that show only that the contract can be met: their planes go round the cycle of
`sampleSlots`, and every step finishes when asked to. The build's effects are not these. -/
def sampleEffects : EffectParams where
  interval := fun _ i slots => if i = 4 then slots[0].toNat else 0
  step := fun cfg i slots _ bright sf =>
    let end_ := EffectProg.done
      (sampleSlots cfg.geometry (((planePhase slots).toNat + 1) % 12)) bright sf
    if i = 1 then .draw fun _ => end_ else end_
  cycleBound := fun _ => 1
  axisCode := fun
    | .x => 0
    | .y => 1
    | .z => 2
    | .noAxis => 3

theorem sampleEffects_result {cfg : Config} {i : Nat} {slots : Slots} {m m' : Memory}
    {bright : Byte} {sf : Bool} {rand : List RandVal} {k : Nat} {r : EffectResult}
    (h : runEffect cfg (sampleEffects.step cfg i slots m bright sf) m' rand k = .ok r) :
    r.fin = sf ∧ ∃ t, t < 12 ∧ r.slots = sampleSlots cfg.geometry t ∧
      t = ((planePhase slots).toNat + 1) % 12 := by
  unfold sampleEffects at h
  dsimp only at h
  split at h
  · rw [runEffect] at h
    split at h
    · cases h; exact ⟨rfl, _, Nat.mod_lt _ (by decide), rfl, rfl⟩
    · cases h
  · cases h; exact ⟨rfl, _, Nat.mod_lt _ (by decide), rfl, rfl⟩

theorem planePhase_sampleSlots (g : Geometry) {t : Nat} (ht : t < 12) :
    (planePhase (sampleSlots g t)).toNat = t := by
  show (BitVec.ofNat 16 t).toNat = t
  rw [BitVec.toNat_ofNat]; exact Nat.mod_eq_of_lt (by omega)

theorem planePosition_sampleSlots (g : Geometry) (t : Nat) :
    planePosition (sampleSlots g t) = if t % 2 = 1 then cubeN g - 1 else 0 := by
  have hN : (BitVec.ofNat 16 (cubeN g - 1)).toNat = cubeN g - 1 := by cases g <;> rfl
  show (if t % 2 = 1 then BitVec.ofNat 16 (cubeN g - 1) else 0).toNat = _
  split
  · exact hN
  · rfl

theorem planeAxis_sampleSlots (g : Geometry) (t : Nat) :
    planeAxis (sampleSlots g t) =
      sampleEffects.axisCode (if t / 4 = 0 then .x else if t / 4 = 1 then .z else .y) := by
  show (if t / 4 = 0 then (0 : BitVec 16) else if t / 4 = 1 then 2 else 1) = _
  split
  · rfl
  · split <;> rfl

/-- Along a run the phase goes up by one at each step. -/
theorem sampleEffects_run {cfg : Config} {i : Nat} {flag : Nat → Bool} {run : Nat → EffectResult}
    {n : Nat} (h : UnfinishedRun sampleEffects cfg i flag run n) :
    ∃ t, ∀ k, k ≤ n → slotsOf run k = sampleSlots cfg.geometry ((t + k) % 12) := by
  obtain ⟨_, _, _, ⟨_, _, _, _, h0⟩, _⟩ := h.first
  obtain ⟨_, t, ht, hs, _⟩ := sampleEffects_result h0
  refine ⟨t, fun k => ?_⟩
  induction k with
  | zero => intro _; rw [Nat.add_zero, Nat.mod_eq_of_lt ht]; exact hs
  | succ k ih =>
    intro hk
    obtain ⟨⟨_, _, _, _, h1⟩, _⟩ := h.next k (by omega)
    obtain ⟨_, u, _, hs', hu⟩ := sampleEffects_result h1
    have hk' : (run k).slots = sampleSlots cfg.geometry ((t + k) % 12) := ih (by omega)
    rw [hk', planePhase_sampleSlots _ (Nat.mod_lt _ (by decide))] at hu
    rw [slotsOf, hs', hu, Nat.mod_add_mod, Nat.add_assoc]

/-- The run that starts with START and is never asked to finish. -/
def sampleRun (cfg : Config) (k : Nat) : EffectResult :=
  ⟨sampleSlots cfg.geometry ((k + 1) % 12), [], cfg.brightnessMax, false, [], 0⟩

theorem sampleRun_steps (cfg : Config) {i : Nat} (hi : i ≠ 1) (slots : Slots) (k : Nat)
    (h : (planePhase slots).toNat = k % 12) :
    StepsWith sampleEffects cfg i false slots cfg.brightnessMax (sampleRun cfg k) := by
  refine ⟨[], [], 0, by simp [memOk, Memory.wf], ?_⟩
  show runEffect cfg (if i = 1 then _ else _) _ _ _ = _
  rw [if_neg hi, h, Nat.mod_add_mod, runEffect, legalBright, if_pos (Nat.le_refl _)]
  rfl

theorem sampleRun_run (cfg : Config) {i : Nat} (hi : i ≠ 1) (n : Nat) :
    UnfinishedRun sampleEffects cfg i (fun _ => false) (sampleRun cfg) n where
  first := ⟨_, _, .start, sampleRun_steps cfg hi _ 0 rfl, rfl⟩
  next := fun k _ => ⟨sampleRun_steps cfg hi _ (k + 1)
    (planePhase_sampleSlots _ (Nat.mod_lt _ (by decide))), rfl⟩

/-- Any long enough run reverses at both bounds. -/
theorem sampleEffects_turns {cfg : Config} {i : Nat} {flag : Nat → Bool}
    {run : Nat → EffectResult} (h : ∀ n, UnfinishedRun sampleEffects cfg i flag run n) (q : Nat)
    (hq : atCubeBound cfg.geometry q) (n : Nat) :
    ∃ a, n ≤ a ∧ TurnsAt (slotsOf run) a (a + 2) q := by
  obtain ⟨t, ht⟩ := sampleEffects_run (h (n + 3))
  have hpos : ∀ k, k ≤ n + 3 →
      planePosition (slotsOf run k) = if (t + k) % 2 = 1 then cubeN cfg.geometry - 1 else 0 := by
    intro k hk
    rw [ht k hk, planePosition_sampleSlots]
    have : (t + k) % 12 % 2 = (t + k) % 2 := by omega
    rw [this]
  have hN : 0 < cubeN cfg.geometry - 1 := by cases cfg.geometry <;> decide
  -- leave from the other bound
  have turn : ∀ a, n ≤ a → a ≤ n + 1 →
      ((t + a) % 2 = 1 ↔ q = 0) → TurnsAt (slotsOf run) a (a + 2) q := by
    intro a _ ha hodd
    have p0 := hpos a (by omega)
    have p1 := hpos (a + 1) (by omega)
    have p2 := hpos (a + 2) (by omega)
    refine ⟨by omega, fun k h1 h2 => ?_, ?_⟩
    · obtain rfl : k = a + 1 := by omega
      rw [p1]; split <;> omega
    · rw [p0, p2]
      by_cases h0 : q = 0
      · right; rw [if_pos (hodd.2 h0), if_pos (by have := hodd.2 h0; omega)]; omega
      · have := fun h => h0 (hodd.1 h)
        left; rw [if_neg this, if_neg (by omega)]; omega
  by_cases hp : (t + n) % 2 = 1 ↔ q = 0
  · exact ⟨n, Nat.le_refl _, turn n (Nat.le_refl _) (by omega) hp⟩
  · refine ⟨n + 1, by omega, turn (n + 1) (by omega) (by omega) ?_⟩
    by_cases h0 : q = 0
    · have : ¬ (t + n) % 2 = 1 := fun h => hp ⟨fun _ => h0, fun _ => h⟩
      exact ⟨fun _ => h0, fun _ => by omega⟩
    · have : (t + n) % 2 = 1 := Classical.byContradiction fun h =>
        hp ⟨fun h' => absurd h' h, fun h' => absurd h' h0⟩
      exact ⟨fun h => by omega, fun h => absurd h h0⟩

/-- Any long enough run goes from each axis to the next. -/
theorem sampleEffects_cycles {cfg : Config} {i : Nat} {flag : Nat → Bool}
    {run : Nat → EffectResult} (h : ∀ n, UnfinishedRun sampleEffects cfg i flag run n) (a : Axis)
    (ha : a ≠ .noAxis) (n : Nat) :
    ∃ m, n ≤ m ∧ planeAxis (slotsOf run m) = sampleEffects.axisCode a ∧
      planeAxis (slotsOf run (m + 1)) = sampleEffects.axisCode (nextAxis a) := by
  obtain ⟨t, ht⟩ := sampleEffects_run (h (n + 13))
  have main : ∀ c d : Nat, c < 12 → d = (c + 1) % 12 → ∃ m, n ≤ m ∧
      slotsOf run m = sampleSlots cfg.geometry c ∧
      slotsOf run (m + 1) = sampleSlots cfg.geometry d := by
    intro c d hc hd
    refine ⟨n + (12 + c - (t + n) % 12) % 12, by omega, ?_, ?_⟩
    · rw [ht _ (by omega)]; congr 1; omega
    · rw [ht _ (by omega)]; congr 1; omega
  cases a
  case x =>
    obtain ⟨m, hm, h1, h2⟩ := main 3 4 (by decide) rfl
    exact ⟨m, hm, by rw [h1, planeAxis_sampleSlots]; rfl, by rw [h2, planeAxis_sampleSlots]; rfl⟩
  case z =>
    obtain ⟨m, hm, h1, h2⟩ := main 7 8 (by decide) rfl
    exact ⟨m, hm, by rw [h1, planeAxis_sampleSlots]; rfl, by rw [h2, planeAxis_sampleSlots]; rfl⟩
  case y =>
    obtain ⟨m, hm, h1, h2⟩ := main 11 0 (by decide) rfl
    exact ⟨m, hm, by rw [h1, planeAxis_sampleSlots]; rfl, by rw [h2, planeAxis_sampleSlots]; rfl⟩
  case noAxis => exact absurd rfl ha

/-- From one phase to the next the axis stays or goes to the next. -/
theorem sampleSlots_axisCycles (g : Geometry) (t : Nat) (ht : t < 12) :
    AxisCycles sampleEffects (sampleSlots g t) (sampleSlots g ((t + 1) % 12)) := by
  have key : ∀ t, t < 12 → ∀ a, a ≠ Axis.noAxis →
      sampleEffects.axisCode (if t / 4 = 0 then .x else if t / 4 = 1 then .z else .y) =
        sampleEffects.axisCode a →
      sampleEffects.axisCode (if (t + 1) % 12 / 4 = 0 then .x
        else if (t + 1) % 12 / 4 = 1 then .z else .y) = sampleEffects.axisCode a ∨
      sampleEffects.axisCode (if (t + 1) % 12 / 4 = 0 then .x
        else if (t + 1) % 12 / 4 = 1 then .z else .y) = sampleEffects.axisCode (nextAxis a) := by
    intro t ht a
    cases a <;> revert t <;> decide
  intro a ha
  rw [planeAxis_sampleSlots, planeAxis_sampleSlots]
  exact key t ht a ha

theorem sampleEffects_bouncing (cfg : Config) {i : Nat} (hi : i ≠ 1) :
    BouncingPlane sampleEffects cfg i where
  on_axis := by
    rintro _ _ r _ ⟨_, _, _, _, _, h⟩ _
    obtain ⟨_, t, _, hs, _⟩ := sampleEffects_result h
    rw [hs]
    refine ⟨⟨_, ?_, planeAxis_sampleSlots _ t⟩, ?_⟩
    · split
      · decide
      · split <;> decide
    · rw [planePosition_sampleSlots]
      split <;> (cases cfg.geometry <;> decide)
  axis_cycles := by
    rintro _ _ r r' _ ⟨_, _, _, _, _, h⟩ _ ⟨_, _, _, _, _, h'⟩ _
    obtain ⟨_, t, ht, hs, _⟩ := sampleEffects_result h
    obtain ⟨_, u, _, hs', hu⟩ := sampleEffects_result h'
    rw [hs, planePhase_sampleSlots _ ht] at hu
    rw [hs, hs', hu]
    exact sampleSlots_axisCycles _ t ht
  bounces := by
    intro flag run n h a b q hb _ ht
    obtain ⟨t, hs⟩ := sampleEffects_run h
    have := ht.between
    have hr := ht.rests (a + 1) (by omega) (by omega)
    rw [hs _ (by omega), planePosition_sampleSlots] at hr
    split at hr
    · exact .inr hr.symm
    · exact .inl hr.symm
  can_turn := fun q hq =>
    have ⟨a, _, h⟩ := sampleEffects_turns (sampleRun_run cfg hi) q hq 0
    ⟨_, _, a + 2, a, a + 2, sampleRun_run cfg hi _, Nat.le_refl _, h⟩
  can_cycle := fun a ha =>
    have ⟨m, _, h1, h2⟩ := sampleEffects_cycles (sampleRun_run cfg hi) a ha 0
    ⟨_, _, m + 1, m, sampleRun_run cfg hi _, Nat.lt_succ_self _, h1, h2⟩
  keeps_turning := fun _ h q hq n =>
    have ⟨a, ha, ht⟩ := sampleEffects_turns h q hq n
    ⟨a, a + 2, ha, ht⟩
  keeps_cycling := fun _ h a ha n =>
    have ⟨m, hm, h1, _⟩ := sampleEffects_cycles h a ha n
    ⟨m, hm, h1⟩

theorem sampleEffects_admissible : Admissible sampleEffects where
  graceful := fun _ _ _ _ _ _ _ _ _ _ _ _ h => .inl (sampleEffects_result h).1
  axis_codes := fun a b => by cases a <;> cases b <;> decide
  random_toggle := fun _ _ => ⟨_, _, [], false, .start, by simp [memOk, Memory.wf], rfl⟩
  bouncing_plane := fun cfg _ => sampleEffects_bouncing cfg (by decide)
  sticky_bouncing_plane := fun cfg _ => sampleEffects_bouncing cfg (by decide)
  accelerating_blink := fun cfg _ hw => ⟨zeroSlots, zeroSlots.set 0 1, by
    show 0 % 2 ^ cfg.clkW ≠ 1 % 2 ^ cfg.clkW
    rw [Nat.zero_mod, Nat.mod_eq_of_lt (Nat.one_lt_two_pow (Nat.ne_of_gt hw))]
    exact Nat.zero_ne_one⟩

/-- An admissible set of effects. The defaults only show that there is one. -/
structure AdmissibleEffects where
  params : EffectParams := sampleEffects
  admissible : Admissible params := by exact sampleEffects_admissible
deriving Inhabited

end Sys2Proof.Machine

namespace Sys2Proof

/-- Open: the build's effects, with their intervals, steps, bounds and axis codes (D25, D26,
U11 to U13). Nothing is known of them but their contract. -/
opaque Config.openEffects : Machine.AdmissibleEffects

/-- The build's effects as the tick takes them. -/
def Config.effects : EffectParams := Config.openEffects.params

end Sys2Proof
end

