-- ==== Sys2Proof/Machine/Sequencer.lean ====
section
/-!
DEFINITION. The framebuffer state machine (45_sequencer.md): START, FINISH, PROCESS, GETCUR, GETPREV,
ISFIN, GETBRIGHT.
-/

namespace Sys2Proof.Machine

open Sys2Proof

/-- `FinishAction()` (R183). -/
def finishAction (s : State) : State :=
  { s with
    mem := clearBuffer s.cfg.geometry s.mem
    slots := zeroSlots
    prev := s.cur
    cur := noneEffect }

/-- R182 -/
def execStart (index : Byte) (s : State) : Host.Outcome State Fault Refusal :=
  complete 0x00
    { s with
      mem := clearBuffer s.cfg.geometry s.mem
      bright := s.cfg.brightnessMax
      slots := zeroSlots
      cur := if index.toNat < effectsCount then index else s.cur }

/-- R183 -/
def execFinish (s : State) : Host.Outcome State Fault Refusal := complete 0x00 (finishAction s)

/-- The state after effect i has stepped with result `r` at time `s.now` (R185): the step's
results are written, `LAST[i]` is set, and then the finish is done if asked for. -/
def afterStep (i : Nat) (r : EffectResult) (s : State) : State :=
  let stepped : State :=
    { s with
      slots := r.slots
      mem := r.mem
      bright := r.bright
      rand := r.rand
      freeIx := r.freeIx
      last := setLast s.last i s.now }
  if r.fin then finishAction stepped else stepped

/-- The gate of R185 is open for effect i: its interval has elapsed since `LAST[i]`. -/
def gateOpen (p : EffectParams) (i : Nat) (s : State) : Bool :=
  effectInterval p s.cfg i s.slots ≤ elapsed s.cfg.clkW (s.last.getD i 0) s.now

/-- One step of effect i, whose gate is open (R185). -/
def stepEffect (p : EffectParams) (i : Nat) (sf : Bool) (s : State) :
    Host.Outcome State Fault Refusal :=
  match runEffect s.cfg (p.step s.cfg i s.slots s.mem s.bright sf) s.mem s.rand s.freeIx with
  | .ok r => complete 0x01 (afterStep i r s)
  | .error v => .refused (.randOutOfRange v)

/-- The tick (R185) for given effect parameters, at the time `s.now` sampled when the
command was accepted. -/
def processWith (p : EffectParams) (sf : Bool) (s : State) : Host.Outcome State Fault Refusal :=
  if s.cur = noneEffect then complete 0x00 s
  else if s.cur.toNat < effectsCount then
    if gateOpen p s.cur.toNat s then stepEffect p s.cur.toNat sf s else complete 0x00 s
  else .fault (.noSuchEffect s.cur)

/-- R185 with the build's effects. -/
def execProcess (sf : Bool) (s : State) : Host.Outcome State Fault Refusal :=
  processWith Config.effects sf s

/-- R189 -/
def execGetcur (s : State) : Host.Outcome State Fault Refusal := complete s.cur s

/-- R190 -/
def execGetprev (s : State) : Host.Outcome State Fault Refusal := complete s.prev s

/-- R191 -/
def execIsfin (s : State) : Host.Outcome State Fault Refusal :=
  complete (resultBit (noEffectRunning s)) s

/-- R192 -/
def execGetbright (s : State) : Host.Outcome State Fault Refusal := complete s.bright s

end Sys2Proof.Machine
end

