-- ==== Sys2Proof/Machine/Dispatch.lean ====
section
/-!
DEFINITION. One arm per command of the opcode table (30_encoding.md R65).
-/

namespace Sys2Proof.Machine

open Sys2Proof

def exec (i : Instr) (s : State) : Host.Outcome State Fault Refusal :=
  match i with
  | .nop => Sys2Proof.Machine.execNop s
  | .inrange x y z => Sys2Proof.Machine.execInrange x y z s
  | .byteline start stop => Sys2Proof.Machine.execByteline start stop s
  | .rdb addr => Sys2Proof.Machine.execRdb addr s
  | .setv x y z => Sys2Proof.Machine.execSetv x y z s
  | .clrv x y z => Sys2Proof.Machine.execClrv x y z s
  | .tglv x y z => Sys2Proof.Machine.execTglv x y z s
  | .altv x y z state => Sys2Proof.Machine.execAltv x y z state s
  | .getv x y z => Sys2Proof.Machine.execGetv x y z s
  | .fill pattern => Sys2Proof.Machine.execFill pattern s
  | .setpx c => Sys2Proof.Machine.execSetpx c s
  | .setpy c => Sys2Proof.Machine.execSetpy c s
  | .setpz c => Sys2Proof.Machine.execSetpz c s
  | .clrpx c => Sys2Proof.Machine.execClrpx c s
  | .clrpy c => Sys2Proof.Machine.execClrpy c s
  | .clrpz c => Sys2Proof.Machine.execClrpz c s
  | .box style x1 y1 z1 x2 y2 z2 => Sys2Proof.Machine.execBox style x1 y1 z1 x2 y2 z2 s
  | .line x1 y1 z1 x2 y2 z2 => Sys2Proof.Machine.execLine x1 y1 z1 x2 y2 z2 s
  | .shift axis dir => Sys2Proof.Machine.execShift axis dir s
  | .start index => Sys2Proof.Machine.execStart index s
  | .finish => Sys2Proof.Machine.execFinish s
  | .process sf => Sys2Proof.Machine.execProcess sf s
  | .getcur => Sys2Proof.Machine.execGetcur s
  | .getprev => Sys2Proof.Machine.execGetprev s
  | .isfin => Sys2Proof.Machine.execIsfin s
  | .getbright => Sys2Proof.Machine.execGetbright s

end Sys2Proof.Machine
end

