-- ==== Sys2Proof/Machine/Step.lean ====
section
/-!
DEFINITION. One step: the block takes the next event the outside world offers (10_state.md R28,
R29) and, for a command, executes it to completion (20_memory.md R54). It fetches nothing from
memory (R56).
-/

namespace Sys2Proof.Machine

open Sys2Proof

/-- Execute an accepted command word. -/
def runWord (w : CommandWord) (s : State) : Host.Outcome State Fault Refusal :=
  match decode w with
  | .command i => exec i s
  | .reserved _ => execReserved s

/-- One step. With nothing offered the block idles (R231). A command offered while `BUSY`
= 1 is not accepted and has no run (R28, U6). -/
def step (s : State) : Host.Outcome State Fault Refusal :=
  match s.inputs with
  | [] => .next s
  | .rst :: rest => .next (assertRst { s with inputs := rest })
  | .command w now :: rest =>
    if cmdReady s then runWord w (accept now rest s) else .refused (.commandWhileBusy w)

/-- The port `DONE` at the end of the step from `s` (R29). -/
def doneAfter (s : State) : Bool := commandDone s (step s)

/-- `s` with the word offered next on `CMD`, at the time `s.now`, and the block ready for
it: the next step runs exactly this command (log 7). -/
def State.withFetchWord (s : State) (nbits w : Nat) : State :=
  { s with
    inputs := .command (BitVec.ofNat 32 (w % 2 ^ nbits)) s.now :: s.inputs
    busy := false }

end Sys2Proof.Machine
end

