-- ==== Sys2Proof/Safety.lean ====
section
/-!
DEFINITION. The terms the claims use: the invariant of the block, the host's duties, and what it
means for one state to keep the registers of another.
-/

namespace Sys2Proof.Machine

open Sys2Proof

/-- The legal values of the block's registers and a canonical buffer: R22, R23, R24, R26,
R53. `BUSY` is not in it: it holds inside a command too. -/
structure State.Inv (s : State) : Prop where
  mem_ok : memOk s.cfg.geometry s.mem
  cur_legal : effectLegal s.cur
  prev_legal : effectLegal s.prev
  bright_legal : s.bright.toNat ≤ s.cfg.brightnessMax.toNat
  last_fits : ∀ t ∈ s.last.toList, t < 2 ^ s.cfg.clkW

/-- Between two commands: the invariant holds and no command is in execution (R28). -/
structure State.Idle (s : State) : Prop where
  inv : s.Inv
  not_busy : s.busy = false

/-- Host duty 3 (R242): every random answer lined up is in [0, `CUBE_N`). -/
def State.RandInRange (s : State) : Prop := ∀ v ∈ s.rand, v.toNat < cubeN s.cfg.geometry

/-- Everything but the buffer, `RESULT` and `BUSY` is as it was: the sequencer's registers,
the build, the inputs and the model's own counter. -/
structure KeepsRegisters (s t : State) : Prop where
  cur : t.cur = s.cur
  prev : t.prev = s.prev
  bright : t.bright = s.bright
  slots : t.slots = s.slots
  last : t.last = s.last
  cfg : t.cfg = s.cfg
  inputs : t.inputs = s.inputs
  now : t.now = s.now
  rand : t.rand = s.rand
  freeIx : t.freeIx = s.freeIx

/-- `t` is `s` after a command that draws and has no result (R68). -/
structure Drew (s t : State) : Prop where
  regs : KeepsRegisters s t
  result : t.result = 0x00
  busy : t.busy = false

/-- `t` is `s` after a command that only answers `r` (R68): the buffer is untouched. -/
structure Answered (r : Byte) (s t : State) : Prop where
  regs : KeepsRegisters s t
  mem : t.mem = s.mem
  result : t.result = r
  busy : t.busy = false

/-- The drawing commands (R21, R186 (b)): the rules of 41_point.md, 42_fill_plane.md, 43_box_line.md and
44_shift.md that write the buffer. -/
def drawingCommand : Instr → Bool
  | .setv _ _ _ => true
  | .clrv _ _ _ => true
  | .tglv _ _ _ => true
  | .altv _ _ _ _ => true
  | .fill _ => true
  | .setpx _ => true
  | .setpy _ => true
  | .setpz _ => true
  | .clrpx _ => true
  | .clrpy _ => true
  | .clrpz _ => true
  | .box _ _ _ _ _ _ _ => true
  | .line _ _ _ _ _ _ => true
  | .shift _ _ => true
  | .nop => false
  | .inrange _ _ _ => false
  | .byteline _ _ => false
  | .rdb _ => false
  | .getv _ _ _ => false
  | .start _ => false
  | .finish => false
  | .process _ => false
  | .getcur => false
  | .getprev => false
  | .isfin => false
  | .getbright => false

/-- The commands of the sequencer that may write its registers (R180). -/
def sequencerCommand : Instr → Bool
  | .start _ => true
  | .finish => true
  | .process _ => true
  | .nop => false
  | .inrange _ _ _ => false
  | .byteline _ _ => false
  | .rdb _ => false
  | .setv _ _ _ => false
  | .clrv _ _ _ => false
  | .tglv _ _ _ => false
  | .altv _ _ _ _ => false
  | .getv _ _ _ => false
  | .fill _ => false
  | .setpx _ => false
  | .setpy _ => false
  | .setpz _ => false
  | .clrpx _ => false
  | .clrpy _ => false
  | .clrpz _ => false
  | .box _ _ _ _ _ _ _ => false
  | .line _ _ _ _ _ _ => false
  | .shift _ _ => false
  | .getcur => false
  | .getprev => false
  | .isfin => false
  | .getbright => false

/-- What the linear address `a` reads as in `s` (R48). -/
def State.byteAt (s : State) (a : Nat) : Byte := memRead s.cfg.geometry s.mem a

/-- The voxel `p` of `s` (R45). -/
def State.voxel (s : State) (p : Coord) : Bool := getV s.cfg.geometry s.mem p

/-- Every piece of the block's state has its reset value, in the build `cfg` (R240). -/
structure AtReset (cfg : Config) (t : State) : Prop where
  bytes : ∀ a, t.byteAt a = 0x00
  voxels : ∀ p, t.voxel p = false
  cur : t.cur = 0xFF
  prev : t.prev = 0xFF
  bright : t.bright = cfg.brightnessMax
  slots : ∀ k : Fin 5, t.slots[k] = 0
  last : ∀ k : Fin 5, t.last[k] = 0
  result : t.result = 0x00
  busy : t.busy = false
  build : t.cfg = cfg

/-- `p` is in range for the build of `s` (R42). -/
def State.inCube (s : State) (p : Coord) : Prop := inRange s.cfg.geometry p = true

/-- Every byte whose address is not that of a voxel in `P` reads as before. -/
def BytesKeptOutside (s t : State) (P : Coord → Prop) : Prop :=
  ∀ a, (∀ p, s.inCube p → P p → byteAddr s.cfg.geometry p ≠ a) → t.byteAt a = s.byteAt a

/-- v lies between the two bounds of an axis, whichever is larger (R140). -/
abbrev between (a b v : Nat) : Prop := min a b ≤ v ∧ v ≤ max a b

/-- v is at a bound of its axis (R142, R143). -/
abbrev atBound (a b v : Nat) : Prop := v = a ∨ v = b

/-- The voxel lies in the box with these two corners. -/
abbrev inTheBox (p q v : Coord) : Prop :=
  between p.x q.x v.x ∧ between p.y q.y v.y ∧ between p.z q.z v.z

/-- R151's value k steps of dx along the way from a to b: the magnitude of the offset rounded
half up, in the direction of b. -/
def roundedTo (a b k dx : Nat) : Nat :=
  if a ≤ b then a + (2 * ((b - a) * k) + dx) / (2 * dx)
  else a - (2 * ((a - b) * k) + dx) / (2 * dx)

/-- The voxel is on the line from p to q, p.x < q.x (R152). -/
def onLine (p q v : Coord) : Prop :=
  ∃ k, k ≤ q.x - p.x ∧ v.x = p.x + k ∧ v.y = roundedTo p.y q.y k (q.x - p.x) ∧
    v.z = roundedTo p.z q.z k (q.x - p.x)

/-- Execute commands one after the other, stopping at the first that does not complete. -/
def execAll : List Instr → State → Host.Outcome State Fault Refusal
  | [], s => .next s
  | i :: is, s =>
    match exec i s with
    | .next t => execAll is t
    | .fault f => .fault f
    | .refused r => .refused r

/-- Bits `lo` up to `lo + len - 1` of the word, zero-extended (R8). -/
abbrev bitsAt (w : CommandWord) (lo len : Nat) : Nat := (w.extractLsb' lo len).toNat

/-- The field `IMM8` as a byte (R61). -/
abbrev immediateOf (w : CommandWord) : Byte := w.extractLsb' 0 8

/-- Every word that has the bits `pattern` under `mask` is the command `i` makes of it: a row
of the opcode map (R65), whatever the ignored bits are (R64). -/
def EncodedAs (mask pattern : CommandWord) (i : CommandWord → Instr) : Prop :=
  ∀ w : CommandWord, w &&& mask = pattern → decode w = .command (i w)

/-- BYTELINE's operands fit; other commands have no operand that the word cannot stand for
(R63). -/
def bitPositionsFit : Instr → Bool
  | .byteline lo hi => bitPosFits lo && bitPosFits hi
  | _ => true

/-- What a host holding coordinate `c` puts into its field (R63). -/
def heldAsFifteen (c : Nat) : Nat := if c < 16 then c else 15

/-- The command with 15 in the place of every coordinate of 16 or more (R63). -/
def largeAsFifteen : Instr → Instr
  | .nop => .nop
  | .inrange x y z => .inrange (heldAsFifteen x) (heldAsFifteen y) (heldAsFifteen z)
  | .byteline start stop => .byteline start stop
  | .rdb addr => .rdb addr
  | .setv x y z => .setv (heldAsFifteen x) (heldAsFifteen y) (heldAsFifteen z)
  | .clrv x y z => .clrv (heldAsFifteen x) (heldAsFifteen y) (heldAsFifteen z)
  | .tglv x y z => .tglv (heldAsFifteen x) (heldAsFifteen y) (heldAsFifteen z)
  | .altv x y z state => .altv (heldAsFifteen x) (heldAsFifteen y) (heldAsFifteen z) state
  | .getv x y z => .getv (heldAsFifteen x) (heldAsFifteen y) (heldAsFifteen z)
  | .fill pattern => .fill pattern
  | .setpx c => .setpx (heldAsFifteen c)
  | .setpy c => .setpy (heldAsFifteen c)
  | .setpz c => .setpz (heldAsFifteen c)
  | .clrpx c => .clrpx (heldAsFifteen c)
  | .clrpy c => .clrpy (heldAsFifteen c)
  | .clrpz c => .clrpz (heldAsFifteen c)
  | .box style x1 y1 z1 x2 y2 z2 =>
    .box style (heldAsFifteen x1) (heldAsFifteen y1) (heldAsFifteen z1)
      (heldAsFifteen x2) (heldAsFifteen y2) (heldAsFifteen z2)
  | .line x1 y1 z1 x2 y2 z2 =>
    .line (heldAsFifteen x1) (heldAsFifteen y1) (heldAsFifteen z1)
      (heldAsFifteen x2) (heldAsFifteen y2) (heldAsFifteen z2)
  | .shift axis dir => .shift axis dir
  | .start index => .start index
  | .finish => .finish
  | .process sf => .process sf
  | .getcur => .getcur
  | .getprev => .getprev
  | .isfin => .isfin
  | .getbright => .getbright

/-- The op nodes a run of an effect step meets, in their order, along the answers its draws
get. -/
def opsAlong (g : Geometry) : EffectProg → List RandVal → Nat → List Instr
  | .done _ _ _, _, _ => []
  | .op i rest, rand, k => i :: opsAlong g rest rand k
  | .draw rest, rand, k =>
    match drawRand g rand k with
    | .ok (v, rand', k') => opsAlong g (rest v) rand' k'
    | .error _ => []

/-- The running effect's registers are ones its cycle reaches from a START, if an effect is
running. -/
def State.InCycle (p : EffectParams) (s : State) : Prop :=
  s.cur.toNat < effectsCount → Machine.InCycle p s.cfg s.cur.toNat s.slots s.bright

/-- `u` is `s` after anything that leaves the running effect's registers alone: other commands,
the passing of time, other random answers. -/
structure SameEffect (s u : State) : Prop where
  cfg : u.cfg = s.cfg
  cur : u.cur = s.cur
  slots : u.slots = s.slots
  bright : u.bright = s.bright
  mem_ok : memOk u.cfg.geometry u.mem

/-- A tick at some later moment steps the running effect (result 0x01) and does not end it. -/
def SteppedTo (p : EffectParams) (sf : Bool) (s t : State) : Prop :=
  ∃ u, SameEffect s u ∧ processWith p sf u = .next t ∧ t.result = 0x01 ∧ t.cur = s.cur

/-- `n` ticks in a row from a point of the cycle of effect i, each of which steps it and does not
end it, with the values of `shouldFinish` that `flag` gives; between two ticks anything may
come that leaves the effect's registers alone. -/
structure TickRun (p : EffectParams) (cfg : Config) (i : Byte) (flag : Nat → Bool)
    (run : Nat → State) (n : Nat) : Prop where
  build : (run 0).cfg = cfg
  running : (run 0).cur = i
  in_cycle : (run 0).InCycle p
  ticks : ∀ k, k < n → SteppedTo p (flag k) (run k) (run (k + 1))

/-- A run of `n` ticks with `shouldFinish` asserted, each of which steps the running effect and
none of which ends it. -/
def SteppedUnfinished (p : EffectParams) : Nat → State → Prop
  | 0, _ => True
  | n + 1, s => ∃ t, SteppedTo p true s t ∧ SteppedUnfinished p n t

end Sys2Proof.Machine
end

