-- ==== Sys2Proof/Certificates/Slice0/Obligations.lean ====
section
/-!
DEFINITION. The statements for the provers, about the machine and no program. Each docstring
names the rules of spec/ it formalises. Free values (the byte of BYTELINE out of order,
random draws, the effect parameters) are never given a value here.
-/

open Sys2Proof Sys2Proof.Machine

/-! Reset and the step. -/

/-- R240: asserting `RST`, in any state, puts every piece of state into its reset value, and the
state after reset of any build is that table. That `RST` is an event of its own, which keeps
the host's later offers, the random answers to come, `NOW` and the model's counter, is the
model's reading (log 14). -/
def Obligations.ResetPutsEveryRegisterAtItsResetValue : Prop :=
  (∀ cfg : Config, AtReset cfg (State.resetWith cfg)) ∧
  ∀ (s : State) (rest : List HostEvent), s.inputs = .rst :: rest →
    ∃ t, step s = .next t ∧ AtReset s.cfg t ∧
      t.inputs = rest ∧ t.rand = s.rand ∧ t.now = s.now ∧ t.freeIx = s.freeIx

/-- The reset state of every build meets the block's invariant, is idle, and meets the invariant
of the running effect's cycle (R240). The build `State.reset` belongs to is the model's
choice (log 2). -/
def Obligations.ResetMeetsTheBlockInvariant : Prop :=
  (∀ cfg : Config, (State.resetWith cfg).Idle) ∧ State.reset.Idle ∧
    ∀ (cfg : Config) (p : EffectParams), (State.resetWith cfg).InCycle p

/-- Every step from an idle state that meets the invariant leaves one, with the same build
(R20 to R28, R31, R53, R54): the buffer stays canonical and inside its bytes, `CUR` and
`PREV` stay legal, `BRIGHT` stays at most `BRIGHTNESS_MAX` (after an effect step by the
model's limit, log 4), every timestamp fits `CLK_W` bits, and `BUSY` is 0 again. -/
def Obligations.EveryStepKeepsTheBlockInvariant : Prop :=
  ∀ s t : State, s.Idle → step s = .next t → t.Idle ∧ t.cfg = s.cfg

/-- A command word offered to an idle block that decodes to `i` runs `i`, in the state in
which `BUSY` is 1, the offer is taken and `NOW` is sampled on `CLK_W` wires (R28, R54, R60).
That a whole command is one step, run with `BUSY` = 1, is the model's reading (log 8), and
that `NOW` is sampled for every command, where R185 asks for PROCESS only, is the model's
choice (log 6). -/
def Obligations.StepRunsTheDecodedCommand : Prop :=
  ∀ (s : State) (w : CommandWord) (now : Nat) (rest : List HostEvent) (i : Instr),
    s.inputs = .command w now :: rest → s.busy = false → decode w = .command i →
      step s = exec i { s with inputs := rest, now := now % 2 ^ s.cfg.clkW, busy := true }

/-- With nothing offered the block is idle and holds all its state (R231); a command offered
while `BUSY` = 1 is not accepted, and the model has no run for it (R28, R242, U6); the port
`CMD_READY` is 1 exactly while `BUSY` = 0 (R28, R29); and the port `DONE` marks exactly the
steps in which a command completes (R29). -/
def Obligations.NothingRunsUnlessACommandIsAccepted : Prop :=
  ∀ s : State, (s.inputs = [] → step s = .next s) ∧
    (cmdReady s = true ↔ s.busy = false) ∧
    (∀ (w : CommandWord) (now : Nat) (rest : List HostEvent),
      s.inputs = .command w now :: rest → s.busy = true →
      step s = .refused (.commandWhileBusy w)) ∧
    (doneAfter s = true ↔ ∃ (w : CommandWord) (now : Nat) (rest : List HostEvent) (t : State),
      s.inputs = .command w now :: rest ∧ s.busy = false ∧ runWord w (accept now rest s) = .next t)

/-- R66: the reserved opcodes select no command, change no state and set `RESULT` to
0x00. -/
def Obligations.ReservedOpcodesChangeNoState : Prop :=
  (∀ w : CommandWord, (∃ op, decode w = .reserved op) ↔
    fieldOP w ∈ [0x07, 0x0B, 0x0F] ∨ (0x13 ≤ fieldOP w ∧ fieldOP w ≤ 0x17) ∨
      (0x1B ≤ fieldOP w ∧ fieldOP w ≤ 0x1F) ∨ (0x27 ≤ fieldOP w ∧ fieldOP w ≤ 0x3F)) ∧
  (∀ (s : State) (w : CommandWord) (now : Nat) (rest : List HostEvent) (op : Nat),
    s.inputs = .command w now :: rest → s.busy = false → decode w = .reserved op →
      ∃ t, step s = .next t ∧ Answered 0x00 (accept now rest s) t)

/-- Every command completes from a state that meets the invariant, whatever its operands,
when the random answers lined up are in range: nothing is raised (R220, R246). -/
def Obligations.EveryCommandCompletes : Prop :=
  ∀ (i : Instr) (s : State), s.Inv → s.RandInRange → ∃ t, exec i s = .next t

/-- Every step from an idle state that meets the invariant completes, when the random answers
are in range; then those left over still are (R220, R242, R246). -/
def Obligations.EveryStepFromIdleCompletes : Prop :=
  ∀ s : State, s.Idle → s.RandInRange → ∃ t, step s = .next t ∧ t.RandInRange

/-! Encoding. -/

/-- The encoding of every well-formed command decodes to it, every operand at every value
(R60 to R65). -/
def Obligations.DecodeOfEncodeIsTheCommand : Prop :=
  ∀ i : Instr, i.wellFormed = true → decode (encode i) = .command i

/-- A word that decodes to a command is that command's encoding on the bits the format uses,
and the command is well-formed (R61, R62, R63). -/
def Obligations.DecodedWordIsItsEncodingOnUsedBits : Prop :=
  ∀ (w : CommandWord) (i : Instr), decode w = .command i →
    i.wellFormed = true ∧ encode i = w &&& usedBits i

/-- R64: a bit the format marks `.` is ignored, and an assembler writes it as 0. -/
def Obligations.IgnoredBitsChangeNothing : Prop :=
  (∀ (w w' : CommandWord) (i : Instr), decode w = .command i →
    w &&& usedBits i = w' &&& usedBits i → decode w' = .command i) ∧
  (∀ i : Instr, i.wellFormed = true → encode i &&& ~~~ usedBits i = 0)

/-- R63: a coordinate of 16 or more is encoded as 15, a smaller one as itself, in every
coordinate field of every command, and the command so encoded does the same. -/
def Obligations.LargeCoordinatesActAsFifteen : Prop :=
  (∀ c : Nat, (16 ≤ c → coordCode c = 15) ∧ (c < 16 → coordCode c = c)) ∧
  ∀ i : Instr, bitPositionsFit i = true →
    decode (encode i) = .command (largeAsFifteen i) ∧
      ∀ s : State, exec (largeAsFifteen i) s = exec i s

/-- Words written out from R62 and R65, one or more of each format, decode to their
commands. -/
def Obligations.WrittenOutWordsDecode : Prop :=
  decode 0x00000000 = .command .nop ∧
  decode 0x04123000 = .command (.setv 1 2 3) ∧
  decode 0x10777002 = .command (.altv 7 7 7 2) ∧
  decode 0x180000A5 = .command (.fill 0xA5) ∧
  decode 0x34200000 = .command (.clrpy 2) ∧
  decode 0x42001334 = .command (.box .frame 0 0 1 3 3 4) ∧
  decode 0x44030220 = .command (.line 0 3 0 2 2 0) ∧
  decode 0x48FFFFFE = .command (.shift .x .minus) ∧
  decode 0x64AD0000 = .command (.byteline 2 5) ∧
  decode 0x88000001 = .command (.process true)

/-! The addressing decoder. -/

/-- R43, R44 and R48: where a coordinate lives, its byte's linear address, what `MemRead` gives
below and above the top, and that `MemWrite` writes its own byte only. -/
def Obligations.DecoderPlacesVoxels : Prop :=
  (∀ x y z, place .n8 ⟨x, y, z⟩ = ⟨z, y, x⟩) ∧
  (∀ x y z, place .n4 ⟨x, y, z⟩ = ⟨z, y / 2, x + 4 * (y % 2)⟩) ∧
  (∀ x y z, byteAddr .n8 ⟨x, y, z⟩ = z * 8 + y) ∧
  (∀ x y z, byteAddr .n4 ⟨x, y, z⟩ = z * 2 + y / 2) ∧
  (∀ g m a v, a < totalBytes g → memRead g (memWrite m a v) a = v) ∧
  (∀ g m a b v, a ≠ b → memRead g (memWrite m a v) b = memRead g m b) ∧
  (∀ g m a, totalBytes g ≤ a → memRead g m a = 0x00)

/-- R52: the decoder is a bijection between the in-range coordinates and the buffer's bits. -/
def Obligations.DecoderIsABijection : Prop :=
  (∀ g p, inRange g p = true → byteAddr g p < totalBytes g ∧ bitIx g p < 8) ∧
  (∀ g p q, inRange g p = true → inRange g q = true → byteAddr g p = byteAddr g q →
    bitIx g p = bitIx g q → p = q) ∧
  (∀ g a i, a < totalBytes g → i < 8 →
    ∃ p, inRange g p = true ∧ byteAddr g p = a ∧ bitIx g p = i) ∧
  totalBytes .n8 = 64 ∧ totalBytes .n4 = 8

/-- R46: a voxel write changes exactly one bit. -/
def Obligations.VoxelWritesChangeOneBit : Prop :=
  ∀ (g : Geometry) (m : Memory) (p : Coord), inRange g p = true →
    getV g (setV g m p) p = true ∧ getV g (clrV g m p) p = false ∧
    getV g (flipV g m p) p = !getV g m p ∧
    (∀ a i, i < 8 → ¬ (a = byteAddr g p ∧ i = bitIx g p) →
      (lookupByte (setV g m p) a).getLsbD i = (lookupByte m a).getLsbD i ∧
      (lookupByte (clrV g m p) a).getLsbD i = (lookupByte m a).getLsbD i ∧
      (lookupByte (flipV g m p) a).getLsbD i = (lookupByte m a).getLsbD i)

/-- R47: a row reads as its voxels, and writing it replaces its own voxels and no others:
with 8 voxels a row it is the whole byte. -/
def Obligations.RowsReadAndWriteTheirOwnVoxels : Prop :=
  ∀ (g : Geometry) (m : Memory) (y z : Nat) (r : Byte), y < cubeN g → z < cubeN g →
    (∀ x, x < 8 → (readRow g m y z).getLsbD x =
      (decide (x < cubeN g) && getV g m ⟨x, y, z⟩)) ∧
    (∀ q, inRange g q = true → getV g (writeRow g m y z r) q =
      if q.y = y ∧ q.z = z then r.getLsbD q.x else getV g m q) ∧
    (g = .n8 → lookupByte (writeRow g m y z r) (z * 8 + y) = r)

/-- R50: a display read while `BUSY` = 0 gives the buffer byte at its address. R24 and R29: the
display driver's other port, `BRIGHT_OUT`, shows `BRIGHT`, whatever `BUSY` is. -/
def Obligations.DisplayReadIsExactWhenNotBusy : Prop :=
  (∀ (s : State) (k : Nat) (a : BitVec 6), s.busy = false →
    displayData s k a = s.byteAt a.toNat) ∧
  ∀ s : State, brightOut s = s.bright

/-! Addressing commands. -/

/-- R80: NOP does nothing and answers 0x00. -/
def Obligations.NopChangesNothing : Prop :=
  EncodedAs 0xFC000000 0x00000000 (fun _ => .nop) ∧
  ∀ s : State, ∃ t, exec .nop s = .next t ∧ Answered 0x00 s t

/-- R81: INRANGE answers whether the coordinate is in range. -/
def Obligations.InrangeAnswersTheRangeTest : Prop :=
  EncodedAs 0xFC000000 0x60000000 (fun w => .inrange (bitsAt w 20 4) (bitsAt w 16 4)
    (bitsAt w 12 4)) ∧
  ∀ (s : State) (x y z : Nat), ∃ t, exec (.inrange x y z) s = .next t ∧
    Answered (if x < cubeN s.cfg.geometry ∧ y < cubeN s.cfg.geometry ∧ z < cubeN s.cfg.geometry
      then 0x01 else 0x00) s t

/-- R82 and R83: in order, BYTELINE answers the byte with the bits start..end set; out of
order it answers some byte (any: the answer is not constrained) and nothing else of the
block changes. -/
def Obligations.BytelineAnswersTheBitRange : Prop :=
  EncodedAs 0xFC000000 0x64000000 (fun w => .byteline (bitsAt w 20 3) (bitsAt w 16 3)) ∧
  ∀ (s : State) (lo hi : Nat), hi ≤ 7 →
    (lo ≤ hi → ∃ t, exec (.byteline lo hi) s = .next t ∧ Answered t.result s t ∧
      ∀ k, k < 8 → (t.result.getLsbD k = true ↔ lo ≤ k ∧ k ≤ hi)) ∧
    (hi < lo → ∃ t, exec (.byteline lo hi) s = .next t ∧
      Answered t.result { s with freeIx := t.freeIx } t)

/-- R84: RDB answers the buffer byte at its address, 0x00 above the top. -/
def Obligations.RdbAnswersTheBufferByte : Prop :=
  EncodedAs 0xFC000000 0x68000000 (fun w => .rdb (immediateOf w)) ∧
  ∀ (s : State) (addr : Byte), ∃ t, exec (.rdb addr) s = .next t ∧ Answered t.result s t ∧
    (∀ p, s.inCube p → byteAddr s.cfg.geometry p = addr.toNat →
      t.result.getLsbD (bitIx s.cfg.geometry p) = s.voxel p) ∧
    (totalBytes s.cfg.geometry ≤ addr.toNat → t.result = 0x00)

/-! Point commands. -/

/-- R100: SETV sets one voxel; out of range it changes nothing. -/
def Obligations.SetvSetsOneVoxel : Prop :=
  EncodedAs 0xFC000000 0x04000000 (fun w => .setv (bitsAt w 20 4) (bitsAt w 16 4)
    (bitsAt w 12 4)) ∧
  ∀ (s : State) (c : Coord), ∃ t, exec (.setv c.x c.y c.z) s = .next t ∧ Drew s t ∧
    (∀ p, s.inCube p → t.voxel p = if p = c then true else s.voxel p) ∧
    BytesKeptOutside s t (fun p => p = c)

/-- R101: CLRV clears one voxel; out of range it changes nothing. -/
def Obligations.ClrvClearsOneVoxel : Prop :=
  EncodedAs 0xFC000000 0x08000000 (fun w => .clrv (bitsAt w 20 4) (bitsAt w 16 4)
    (bitsAt w 12 4)) ∧
  ∀ (s : State) (c : Coord), ∃ t, exec (.clrv c.x c.y c.z) s = .next t ∧ Drew s t ∧
    (∀ p, s.inCube p → t.voxel p = if p = c then false else s.voxel p) ∧
    BytesKeptOutside s t (fun p => p = c)

/-- R102: TGLV flips one voxel; out of range it changes nothing. -/
def Obligations.TglvFlipsOneVoxel : Prop :=
  EncodedAs 0xFC000000 0x0C000000 (fun w => .tglv (bitsAt w 20 4) (bitsAt w 16 4)
    (bitsAt w 12 4)) ∧
  ∀ (s : State) (c : Coord), ∃ t, exec (.tglv c.x c.y c.z) s = .next t ∧ Drew s t ∧
    (∀ p, s.inCube p → t.voxel p = if p = c then !s.voxel p else s.voxel p) ∧
    BytesKeptOutside s t (fun p => p = c)

/-- R103: ALTV clears the voxel when its state is 0 and sets it otherwise; out of range it
changes nothing. -/
def Obligations.AltvWritesOneVoxel : Prop :=
  EncodedAs 0xFC000000 0x10000000 (fun w => .altv (bitsAt w 20 4) (bitsAt w 16 4)
    (bitsAt w 12 4) (immediateOf w)) ∧
  ∀ (s : State) (c : Coord) (v : Byte), ∃ t, exec (.altv c.x c.y c.z v) s = .next t ∧ Drew s t ∧
    (∀ p, s.inCube p → t.voxel p = if p = c then decide (v ≠ 0) else s.voxel p) ∧
    BytesKeptOutside s t (fun p => p = c)

/-- R104: GETV answers the voxel, and 0x00 out of range. -/
def Obligations.GetvAnswersTheVoxel : Prop :=
  EncodedAs 0xFC000000 0x14000000 (fun w => .getv (bitsAt w 20 4) (bitsAt w 16 4)
    (bitsAt w 12 4)) ∧
  ∀ (s : State) (c : Coord), ∃ t, exec (.getv c.x c.y c.z) s = .next t ∧ Answered t.result s t ∧
    (s.inCube c → t.result = if s.voxel c then 0x01 else 0x00) ∧
    (¬ s.inCube c → t.result = 0x00)

/-- R105: the point laws, in range and out of range. -/
def Obligations.PointCommandLaws : Prop :=
  ∀ (s : State) (c : Coord),
    (s.inCube c →
      (∃ t, execAll [.setv c.x c.y c.z, .getv c.x c.y c.z] s = .next t ∧ t.result = 0x01) ∧
      (∃ t, execAll [.clrv c.x c.y c.z, .getv c.x c.y c.z] s = .next t ∧ t.result = 0x00) ∧
      (∃ t, execAll [.tglv c.x c.y c.z, .tglv c.x c.y c.z] s = .next t ∧
        (∀ p, s.inCube p → t.voxel p = s.voxel p) ∧ ∀ a, t.byteAt a = s.byteAt a) ∧
      (∀ i ∈ [Instr.setv c.x c.y c.z, .clrv c.x c.y c.z, .tglv c.x c.y c.z],
        ∃ t, exec i s = .next t ∧ ∀ p, s.inCube p → p ≠ c → t.voxel p = s.voxel p)) ∧
    (¬ s.inCube c →
      (∀ v : Byte, ∀ i ∈ [Instr.setv c.x c.y c.z, .clrv c.x c.y c.z, .tglv c.x c.y c.z,
          .altv c.x c.y c.z v],
        ∃ t, exec i s = .next t ∧ t.mem = s.mem) ∧
      ∃ t, exec (.getv c.x c.y c.z) s = .next t ∧ t.result = 0x00)

/-! Fill and planes. -/

/-- R120: FILL stores its byte into every byte of the buffer; what that means in voxels. -/
def Obligations.FillStoresEveryByte : Prop :=
  EncodedAs 0xFC000000 0x18000000 (fun w => .fill (immediateOf w)) ∧
  ∀ (s : State) (pattern : Byte), ∃ t, exec (.fill pattern) s = .next t ∧ Drew s t ∧
    (∀ a, a < totalBytes s.cfg.geometry → t.byteAt a = pattern) ∧
    (∀ p, s.inCube p → t.voxel p =
      match s.cfg.geometry with
      | .n8 => pattern.getLsbD p.x
      | .n4 => pattern.getLsbD (p.x + 4 * (p.y % 2)))

/-- R121, R122 and R123: SETPX, SETPY and SETPZ set their plane and nothing else; with c at or
above `CUBE_N` they change nothing. -/
def Obligations.SetPlaneCommandsSetTheirPlane : Prop :=
  EncodedAs 0xFC000000 0x20000000 (fun w => .setpx (bitsAt w 20 4)) ∧
  EncodedAs 0xFC000000 0x24000000 (fun w => .setpy (bitsAt w 20 4)) ∧
  EncodedAs 0xFC000000 0x28000000 (fun w => .setpz (bitsAt w 20 4)) ∧
  ∀ (s : State) (c : Nat),
    (∃ t, exec (.setpx c) s = .next t ∧ Drew s t ∧
      (∀ p, s.inCube p → t.voxel p = if p.x = c then true else s.voxel p) ∧
      BytesKeptOutside s t (fun p => p.x = c)) ∧
    (∃ t, exec (.setpy c) s = .next t ∧ Drew s t ∧
      (∀ p, s.inCube p → t.voxel p = if p.y = c then true else s.voxel p) ∧
      BytesKeptOutside s t (fun p => p.y = c)) ∧
    (∃ t, exec (.setpz c) s = .next t ∧ Drew s t ∧
      (∀ p, s.inCube p → t.voxel p = if p.z = c then true else s.voxel p) ∧
      BytesKeptOutside s t (fun p => p.z = c)) ∧
    (cubeN s.cfg.geometry ≤ c → ∀ i ∈ [Instr.setpx c, .setpy c, .setpz c],
      ∃ t, exec i s = .next t ∧ t.mem = s.mem)

/-- R124, R125 and R126: CLRPX, CLRPY and CLRPZ clear their plane and nothing else; with c at
or above `CUBE_N` they change nothing. -/
def Obligations.ClearPlaneCommandsClearTheirPlane : Prop :=
  EncodedAs 0xFC000000 0x30000000 (fun w => .clrpx (bitsAt w 20 4)) ∧
  EncodedAs 0xFC000000 0x34000000 (fun w => .clrpy (bitsAt w 20 4)) ∧
  EncodedAs 0xFC000000 0x38000000 (fun w => .clrpz (bitsAt w 20 4)) ∧
  ∀ (s : State) (c : Nat),
    (∃ t, exec (.clrpx c) s = .next t ∧ Drew s t ∧
      (∀ p, s.inCube p → t.voxel p = if p.x = c then false else s.voxel p) ∧
      BytesKeptOutside s t (fun p => p.x = c)) ∧
    (∃ t, exec (.clrpy c) s = .next t ∧ Drew s t ∧
      (∀ p, s.inCube p → t.voxel p = if p.y = c then false else s.voxel p) ∧
      BytesKeptOutside s t (fun p => p.y = c)) ∧
    (∃ t, exec (.clrpz c) s = .next t ∧ Drew s t ∧
      (∀ p, s.inCube p → t.voxel p = if p.z = c then false else s.voxel p) ∧
      BytesKeptOutside s t (fun p => p.z = c)) ∧
    (cubeN s.cfg.geometry ≤ c → ∀ i ∈ [Instr.clrpx c, .clrpy c, .clrpz c],
      ∃ t, exec i s = .next t ∧ t.mem = s.mem)

/-! Boxes and lines. -/

/-- R140: the codes of the four styles; a corner out of range makes the whole command do
nothing; each axis pair is put in order on its own. -/
def Obligations.BoxChecksItsCornersAndOrdersThem : Prop :=
  EncodedAs 0xFF000000 0x40000000 (fun w => .box .filled (bitsAt w 20 4) (bitsAt w 16 4)
    (bitsAt w 12 4) (bitsAt w 8 4) (bitsAt w 4 4) (bitsAt w 0 4)) ∧
  EncodedAs 0xFF000000 0x41000000 (fun w => .box .walls (bitsAt w 20 4) (bitsAt w 16 4)
    (bitsAt w 12 4) (bitsAt w 8 4) (bitsAt w 4 4) (bitsAt w 0 4)) ∧
  EncodedAs 0xFF000000 0x42000000 (fun w => .box .frame (bitsAt w 20 4) (bitsAt w 16 4)
    (bitsAt w 12 4) (bitsAt w 8 4) (bitsAt w 4 4) (bitsAt w 0 4)) ∧
  EncodedAs 0xFF000000 0x43000000 (fun w => .box .noStyle (bitsAt w 20 4) (bitsAt w 16 4)
    (bitsAt w 12 4) (bitsAt w 8 4) (bitsAt w 4 4) (bitsAt w 0 4)) ∧
  ∀ (s : State) (style : BoxStyle) (c d : Coord),
    (¬ (s.inCube c ∧ s.inCube d) →
      ∃ t, exec (.box style c.x c.y c.z d.x d.y d.z) s = .next t ∧ Drew s t ∧ t.mem = s.mem) ∧
    exec (.box style c.x c.y c.z d.x d.y d.z) s =
      exec (.box style (min c.x d.x) (min c.y d.y) (min c.z d.z) (max c.x d.x) (max c.y d.y)
        (max c.z d.z)) s

/-- R141: FILLED sets every voxel of the box and never clears; the corners come in any order
(R140). -/
def Obligations.BoxFilledSetsTheBox : Prop :=
  EncodedAs 0xFF000000 0x40000000 (fun w => .box .filled (bitsAt w 20 4) (bitsAt w 16 4)
    (bitsAt w 12 4) (bitsAt w 8 4) (bitsAt w 4 4) (bitsAt w 0 4)) ∧
  ∀ (s : State) (c d : Coord), s.inCube c → s.inCube d →
    ∃ t, exec (.box .filled c.x c.y c.z d.x d.y d.z) s = .next t ∧ Drew s t ∧
      (∀ p, s.inCube p → (t.voxel p = true ↔ inTheBox c d p ∨ s.voxel p = true)) ∧
      BytesKeptOutside s t (fun p => inTheBox c d p)

/-- R142: WALLS replaces each row of the box on a y-face or a z-face by the mask of x1..x2, sets
the two side voxels of every other row of the box, and leaves the rest. -/
def Obligations.BoxWallsOverwritesBoundaryRows : Prop :=
  EncodedAs 0xFF000000 0x41000000 (fun w => .box .walls (bitsAt w 20 4) (bitsAt w 16 4)
    (bitsAt w 12 4) (bitsAt w 8 4) (bitsAt w 4 4) (bitsAt w 0 4)) ∧
  ∀ (s : State) (c d : Coord), s.inCube c → s.inCube d →
    ∃ t, exec (.box .walls c.x c.y c.z d.x d.y d.z) s = .next t ∧ Drew s t ∧
      (∀ p, s.inCube p → (t.voxel p = true ↔
        if between c.y d.y p.y ∧ between c.z d.z p.z then
          if atBound c.y d.y p.y ∨ atBound c.z d.z p.z then between c.x d.x p.x
          else atBound c.x d.x p.x ∨ s.voxel p = true
        else s.voxel p = true)) ∧
      BytesKeptOutside s t (fun p => between c.y d.y p.y ∧ between c.z d.z p.z)

/-- R143: FRAME sets the voxels of the box with at least two coordinates at a bound of their
axis, and clears none. -/
def Obligations.BoxFrameSetsTheEdges : Prop :=
  EncodedAs 0xFF000000 0x42000000 (fun w => .box .frame (bitsAt w 20 4) (bitsAt w 16 4)
    (bitsAt w 12 4) (bitsAt w 8 4) (bitsAt w 4 4) (bitsAt w 0 4)) ∧
  ∀ (s : State) (c d : Coord), s.inCube c → s.inCube d →
    ∃ t, exec (.box .frame c.x c.y c.z d.x d.y d.z) s = .next t ∧ Drew s t ∧
      (∀ p, s.inCube p → (t.voxel p = true ↔
        (inTheBox c d p ∧
          ((atBound c.x d.x p.x ∧ atBound c.y d.y p.y) ∨
            (atBound c.y d.y p.y ∧ atBound c.z d.z p.z) ∨
            (atBound c.x d.x p.x ∧ atBound c.z d.z p.z))) ∨ s.voxel p = true)) ∧
      BytesKeptOutside s t (fun p => inTheBox c d p)

/-- R144: BOX with type 3 changes nothing and answers 0x00. -/
def Obligations.BoxWithoutStyleDoesNothing : Prop :=
  EncodedAs 0xFF000000 0x43000000 (fun w => .box .noStyle (bitsAt w 20 4) (bitsAt w 16 4)
    (bitsAt w 12 4) (bitsAt w 8 4) (bitsAt w 4 4) (bitsAt w 0 4)) ∧
  ∀ (s : State) (c d : Coord),
    ∃ t, exec (.box .noStyle c.x c.y c.z d.x d.y d.z) s = .next t ∧ Drew s t ∧ t.mem = s.mem

/-- R150 to R153: with an endpoint out of range LINE does nothing; else it sets, for each x from
the smaller to the larger, the voxel whose y and z are rounded as R151 says from the
endpoint with the smaller x; with x1 = x2 it sets the first endpoint alone; it clears none.
The word's `T` field is ignored. -/
def Obligations.LineSetsTheRoundedVoxels : Prop :=
  EncodedAs 0xFC000000 0x44000000 (fun w => .line (bitsAt w 20 4) (bitsAt w 16 4)
    (bitsAt w 12 4) (bitsAt w 8 4) (bitsAt w 4 4) (bitsAt w 0 4)) ∧
  ∀ (s : State) (c d : Coord),
    (¬ (s.inCube c ∧ s.inCube d) →
      ∃ t, exec (.line c.x c.y c.z d.x d.y d.z) s = .next t ∧ Drew s t ∧ t.mem = s.mem) ∧
    (s.inCube c → s.inCube d →
      ∃ t, exec (.line c.x c.y c.z d.x d.y d.z) s = .next t ∧ Drew s t ∧
        (∀ p, s.inCube p → (t.voxel p = true ↔
          (c.x < d.x ∧ onLine c d p) ∨ (d.x < c.x ∧ onLine d c p) ∨ (c.x = d.x ∧ p = c) ∨
            s.voxel p = true)) ∧
        BytesKeptOutside s t (fun p => (c.x < d.x ∧ onLine c d p) ∨
          (d.x < c.x ∧ onLine d c p) ∨ (c.x = d.x ∧ p = c)))

/-- R154: the line laws. -/
def Obligations.LineLaws : Prop :=
  ∀ (s : State) (c d : Coord), s.inCube c → s.inCube d →
    (c.x ≠ d.x →
      exec (.line c.x c.y c.z d.x d.y d.z) s = exec (.line d.x d.y d.z c.x c.y c.z) s) ∧
    ∃ t, exec (.line c.x c.y c.z d.x d.y d.z) s = .next t ∧
      (∀ p, s.inCube p → s.voxel p = false → t.voxel p = true → inTheBox c d p) ∧
      (∀ p q, s.inCube p → s.inCube q → s.voxel p = false → s.voxel q = false →
        t.voxel p = true → t.voxel q = true → c.x < d.x → p.x ≤ q.x →
        (c.y ≤ d.y → p.y ≤ q.y) ∧ (d.y ≤ c.y → q.y ≤ p.y) ∧
        (c.z ≤ d.z → p.z ≤ q.z) ∧ (d.z ≤ c.z → q.z ≤ p.z)) ∧
      (c.y = d.y → c.z = d.z → ∃ u,
        exec (.box .filled c.x c.y c.z d.x d.y d.z) s = .next u ∧
        ∀ p, s.inCube p → t.voxel p = u.voxel p)

/-! Shift. -/

/-- R170: SHIFT moves every voxel by one along its axis, and the vacated plane is clear; with no
axis it changes nothing. -/
def Obligations.ShiftMovesEveryVoxel : Prop :=
  EncodedAs 0xFF000001 0x48000000 (fun _ => .shift .x .minus) ∧
  EncodedAs 0xFF000001 0x49000000 (fun _ => .shift .y .minus) ∧
  EncodedAs 0xFF000001 0x4A000000 (fun _ => .shift .z .minus) ∧
  EncodedAs 0xFF000001 0x4B000000 (fun _ => .shift .noAxis .minus) ∧
  EncodedAs 0xFF000001 0x48000001 (fun _ => .shift .x .plus) ∧
  EncodedAs 0xFF000001 0x49000001 (fun _ => .shift .y .plus) ∧
  EncodedAs 0xFF000001 0x4A000001 (fun _ => .shift .z .plus) ∧
  EncodedAs 0xFF000001 0x4B000001 (fun _ => .shift .noAxis .plus) ∧
  ∀ s : State,
    (∃ t, exec (.shift .x .minus) s = .next t ∧ Drew s t ∧ ∀ x y z, s.inCube ⟨x, y, z⟩ →
      t.voxel ⟨x, y, z⟩ = (decide (x < cubeN s.cfg.geometry - 1) && s.voxel ⟨x + 1, y, z⟩)) ∧
    (∃ t, exec (.shift .y .minus) s = .next t ∧ Drew s t ∧ ∀ x y z, s.inCube ⟨x, y, z⟩ →
      t.voxel ⟨x, y, z⟩ = (decide (y < cubeN s.cfg.geometry - 1) && s.voxel ⟨x, y + 1, z⟩)) ∧
    (∃ t, exec (.shift .z .minus) s = .next t ∧ Drew s t ∧ ∀ x y z, s.inCube ⟨x, y, z⟩ →
      t.voxel ⟨x, y, z⟩ = (decide (z < cubeN s.cfg.geometry - 1) && s.voxel ⟨x, y, z + 1⟩)) ∧
    (∃ t, exec (.shift .x .plus) s = .next t ∧ Drew s t ∧ ∀ x y z, s.inCube ⟨x, y, z⟩ →
      t.voxel ⟨x, y, z⟩ = (decide (0 < x) && s.voxel ⟨x - 1, y, z⟩)) ∧
    (∃ t, exec (.shift .y .plus) s = .next t ∧ Drew s t ∧ ∀ x y z, s.inCube ⟨x, y, z⟩ →
      t.voxel ⟨x, y, z⟩ = (decide (0 < y) && s.voxel ⟨x, y - 1, z⟩)) ∧
    (∃ t, exec (.shift .z .plus) s = .next t ∧ Drew s t ∧ ∀ x y z, s.inCube ⟨x, y, z⟩ →
      t.voxel ⟨x, y, z⟩ = (decide (0 < z) && s.voxel ⟨x, y, z - 1⟩)) ∧
    (∀ dir, ∃ t, exec (.shift .noAxis dir) s = .next t ∧ Drew s t ∧ t.mem = s.mem)

/-- R171: `CUBE_N` shifts along one axis in one direction clear every buffer. -/
def Obligations.RepeatedShiftsClearTheBuffer : Prop :=
  ∀ (s : State) (axis : Axis) (dir : Dir), axis ≠ .noAxis →
    ∃ t, execAll (List.replicate (cubeN s.cfg.geometry) (.shift axis dir)) s = .next t ∧
      (∀ p, s.inCube p → t.voxel p = false) ∧ ∀ a, t.byteAt a = 0x00

/-- R171: a shift toward index 0 and one back clear the plane at index 0 and restore every
other voxel. -/
def Obligations.ShiftThereAndBackLosesOnePlane : Prop :=
  ∀ (s : State) (axis : Axis), axis ≠ .noAxis →
    ∃ t, execAll [.shift axis .minus, .shift axis .plus] s = .next t ∧
      ∀ p, s.inCube p → t.voxel p = (decide (along axis p ≠ 0) && s.voxel p)

/-- R170's informative traversal: the in-place order, layer by layer, gives the same buffer as
the command. -/
def Obligations.InPlaceShiftGivesTheSameBuffer : Prop :=
  ∀ (g : Geometry) (axis : Axis) (dir : Dir) (m : Memory), axis ≠ .noAxis → memOk g m →
    shiftInPlace g axis dir m = drawShift g axis dir m

/-! The sequencer. -/

/-- R182: START clears the buffer, sets `BRIGHT` to its maximum, zeroes the slots, and sets `CUR`
when its index is a registered effect's; `PREV` and `LAST` are unchanged, and so are the
inputs and the model's own counter. -/
def Obligations.StartResetsAndActivates : Prop :=
  EncodedAs 0xFC000000 0x80000000 (fun w => .start (immediateOf w)) ∧
  ∀ (s : State) (index : Byte), ∃ t, exec (.start index) s = .next t ∧
    t.result = 0x00 ∧ t.busy = false ∧ (∀ p, s.inCube p → t.voxel p = false) ∧
    (∀ a, t.byteAt a = 0x00) ∧ t.bright = s.cfg.brightnessMax ∧
    (∀ k : Fin 5, t.slots[k] = 0) ∧
    (index.toNat < 5 → t.cur = index) ∧ (5 ≤ index.toNat → t.cur = s.cur) ∧
    t.prev = s.prev ∧ t.last = s.last ∧ t.cfg = s.cfg ∧ t.inputs = s.inputs ∧
    t.now = s.now ∧ t.rand = s.rand ∧ t.freeIx = s.freeIx

/-- R183: FINISH clears the buffer and the slots, copies `CUR` into `PREV` and sets `CUR` to
`NONE`; `BRIGHT` and `LAST` are unchanged, and so are the inputs and the model's own counter. -/
def Obligations.FinishRecordsAndStops : Prop :=
  EncodedAs 0xFC000000 0x84000000 (fun _ => .finish) ∧
  ∀ s : State, ∃ t, exec .finish s = .next t ∧
    t.result = 0x00 ∧ t.busy = false ∧ (∀ p, s.inCube p → t.voxel p = false) ∧
    (∀ a, t.byteAt a = 0x00) ∧ (∀ k : Fin 5, t.slots[k] = 0) ∧ t.prev = s.cur ∧
    t.cur = 0xFF ∧ t.bright = s.bright ∧ t.last = s.last ∧ t.cfg = s.cfg ∧
    t.inputs = s.inputs ∧ t.now = s.now ∧ t.rand = s.rand ∧ t.freeIx = s.freeIx

/-- R189, R190, R191 and R192: the inspection commands answer `CUR`, `PREV`, whether `CUR` is
`NONE`, and `BRIGHT`, and change nothing else. -/
def Obligations.InspectionCommandsAnswerTheirRegister : Prop :=
  EncodedAs 0xFC000000 0x8C000000 (fun _ => .getcur) ∧
  EncodedAs 0xFC000000 0x90000000 (fun _ => .getprev) ∧
  EncodedAs 0xFC000000 0x94000000 (fun _ => .isfin) ∧
  EncodedAs 0xFC000000 0x98000000 (fun _ => .getbright) ∧
  ∀ s : State,
    (∃ t, exec .getcur s = .next t ∧ Answered s.cur s t) ∧
    (∃ t, exec .getprev s = .next t ∧ Answered s.prev s t) ∧
    (∃ t, exec .isfin s = .next t ∧ Answered (if s.cur = 0xFF then 0x01 else 0x00) s t) ∧
    (∃ t, exec .getbright s = .next t ∧ Answered s.bright s t)

/-- R193: the sequencer laws, as command sequences. -/
def Obligations.SequencerLaws : Prop :=
  ∀ s : State,
    (∀ index : Byte, index.toNat < 5 →
      (∃ t, execAll [.start index, .isfin] s = .next t ∧ t.result = 0x00) ∧
      ∃ t, execAll [.start index, .getcur] s = .next t ∧ t.result = index) ∧
    ((∃ t, execAll [.finish, .isfin] s = .next t ∧ t.result = 0x01) ∧
      (∃ t, execAll [.finish, .getprev] s = .next t ∧ t.result = s.cur) ∧
      ∀ c : Coord, ∃ t, execAll [.finish, .getv c.x c.y c.z] s = .next t ∧ t.result = 0x00) ∧
    (∀ index : Byte, ∀ i ∈ [Instr.start index, .finish],
      ∃ t, exec i s = .next t ∧ ∀ k : Fin 5, t.slots[k] = 0) ∧
    (∀ index : Byte,
      (∃ t, execAll [.start index, .getbright] s = .next t ∧ t.result = s.cfg.brightnessMax) ∧
      ∀ c : Coord, ∃ t, execAll [.start index, .getv c.x c.y c.z] s = .next t ∧
        t.result = 0x00)

/-- R184: the elapsed time is the modular difference: the plain one without a wrap, and
2^`CLK_W` - time1 + time2 across one. -/
def Obligations.ElapsedIsTheWrappedDifference : Prop :=
  ∀ w t1 t2 : Nat, t1 < 2 ^ w → t2 < 2 ^ w →
    (t1 ≤ t2 → elapsed w t1 t2 = t2 - t1) ∧
    (t2 < t1 → elapsed w t1 t2 = 2 ^ w - t1 + t2) ∧
    elapsed w t1 t2 < 2 ^ w ∧ (t1 + elapsed w t1 t2) % 2 ^ w = t2

/-- R185, for all effect parameters. PROCESS is the tick with the build's own parameters. With
no effect running, or too early, the tick answers 0x00 and changes nothing else. With the
gate open it runs exactly one step of the active effect with the arguments as they stand,
writes what the step leaves, sets `LAST[i]` to the sampled `NOW`, answers 0x01, and when
the step asks to finish does what FINISH does. The form of what a step leaves is the
model's (log 3 and 4). -/
def Obligations.TickIsGatedAndRunsOneEffectStep : Prop :=
  EncodedAs 0xFC000001 0x88000000 (fun _ => .process false) ∧
  EncodedAs 0xFC000001 0x88000001 (fun _ => .process true) ∧
  (∀ sf s, exec (.process sf) s = processWith Config.effects sf s) ∧
  (∀ (p : EffectParams) (sf : Bool) (s : State), s.cur = 0xFF →
    ∃ t, processWith p sf s = .next t ∧ Answered 0x00 s t) ∧
  (∀ (p : EffectParams) (sf : Bool) (s : State) (i : Fin 5), s.cur = BitVec.ofNat 8 i →
    elapsed s.cfg.clkW s.last[i] s.now < effectInterval p s.cfg i s.slots →
    ∃ t, processWith p sf s = .next t ∧ Answered 0x00 s t) ∧
  (∀ (p : EffectParams) (sf : Bool) (s : State) (i : Fin 5) (r : EffectResult),
    s.cur = BitVec.ofNat 8 i →
    effectInterval p s.cfg i s.slots ≤ elapsed s.cfg.clkW s.last[i] s.now →
    runEffect s.cfg (p.step s.cfg i s.slots s.mem s.bright sf) s.mem s.rand s.freeIx = .ok r →
    ∃ t, processWith p sf s = .next t ∧ t.result = 0x01 ∧ t.busy = false ∧
      t.last[i] = s.now ∧ (∀ j : Fin 5, j ≠ i → t.last[j] = s.last[j]) ∧
      t.bright = r.bright ∧ t.rand = r.rand ∧ t.freeIx = r.freeIx ∧ t.cfg = s.cfg ∧
      t.inputs = s.inputs ∧ t.now = s.now ∧
      (r.fin = false → t.slots = r.slots ∧ t.mem = r.mem ∧ t.cur = s.cur ∧ t.prev = s.prev) ∧
      (r.fin = true → (∀ k : Fin 5, t.slots[k] = 0) ∧ (∀ a, t.byteAt a = 0x00) ∧
        t.cur = 0xFF ∧ t.prev = s.cur))

/-- R185 for the build's own effects: when the gate is open and the random answers lined up are in
range, PROCESS completes with the effect stepped: it answers 0x01 and sets `LAST[i]`. -/
def Obligations.ProcessStepsWhenTheGateIsOpen : Prop :=
  ∀ (sf : Bool) (s : State) (i : Fin 5), s.cur = BitVec.ofNat 8 i → s.RandInRange →
    effectInterval Config.effects s.cfg i s.slots ≤ elapsed s.cfg.clkW s.last[i] s.now →
    ∃ t, exec (.process sf) s = .next t ∧ t.result = 0x01 ∧ t.busy = false ∧
      t.last[i] = s.now ∧ (∀ j : Fin 5, j ≠ i → t.last[j] = s.last[j]) ∧
      (t.cur = s.cur ∧ t.prev = s.prev ∨ t.cur = 0xFF ∧ t.prev = s.cur)

/-- R186 (a) to (c) and R9's `draw RAND`: how an effect step runs. A drawing command of the step
goes on from the buffer the command leaves; a draw goes on with the next answer lined up,
or, with none, with one in [0, `CUBE_N`); the end leaves its slots, its brightness and `fin`.
So the buffer a step leaves is what executing the drawing commands it met leaves, in their
order, from the buffer it found. That a step has the shape of `EffectProg` is the model's
reading of R186 (log 3). -/
def Obligations.EffectStepDrawsOnlyByCommands : Prop :=
  (∀ (i : Instr) (rest : EffectProg) (rand : List RandVal) (k : Nat) (s t : State),
    drawingCommand i = true → exec i s = .next t →
    runEffect s.cfg (.op i rest) s.mem rand k = runEffect s.cfg rest t.mem rand k) ∧
  (∀ (cfg : Config) (i : Instr) (rest : EffectProg) (m : Memory) (rand : List RandVal) (k : Nat),
    drawingCommand i = false →
    runEffect cfg (.op i rest) m rand k = runEffect cfg rest m rand k) ∧
  (∀ (cfg : Config) (f : RandVal → EffectProg) (m : Memory) (v : RandVal) (rest : List RandVal)
    (k : Nat), v.toNat < cubeN cfg.geometry →
    runEffect cfg (.draw f) m (v :: rest) k = runEffect cfg (f v) m rest k) ∧
  (∀ (cfg : Config) (k : Nat), ∃ v : RandVal, v.toNat < cubeN cfg.geometry ∧
    ∀ (f : RandVal → EffectProg) (m : Memory),
      runEffect cfg (.draw f) m [] k = runEffect cfg (f v) m [] (k + 1)) ∧
  (∀ (cfg : Config) (slots : Slots) (bright : Byte) (fin : Bool) (m : Memory)
    (rand : List RandVal) (k : Nat), bright.toNat ≤ cfg.brightnessMax.toNat →
    runEffect cfg (.done slots bright fin) m rand k = .ok ⟨slots, m, bright, fin, rand, k⟩) ∧
  (∀ (s : State) (prog : EffectProg) (rand : List RandVal) (k : Nat) (r : EffectResult),
    runEffect s.cfg prog s.mem rand k = .ok r →
    ∃ t, execAll ((opsAlong s.cfg.geometry prog rand k).filter drawingCommand) s = .next t ∧
      t.mem = r.mem)

/-- R228: a random answer outside [0, `CUBE_N`) has no specified behaviour: the tick whose step's
first draw gets one has no run (U5). -/
def Obligations.RandomAnswerOutOfRangeHasNoRun : Prop :=
  ∀ (p : EffectParams) (sf : Bool) (s : State) (i : Fin 5) (k : RandVal → EffectProg)
    (v : RandVal) (rest : List RandVal),
    s.cur = BitVec.ofNat 8 i →
    effectInterval p s.cfg i s.slots ≤ elapsed s.cfg.clkW s.last[i] s.now →
    p.step s.cfg i s.slots s.mem s.bright sf = .draw k → s.rand = v :: rest →
    cubeN s.cfg.geometry ≤ v.toNat →
    processWith p sf s = .refused (.randOutOfRange v)

/-- R187: for effects that meet the graceful-finish contract, a run of ticks with `shouldFinish`
asserted that all step the running effect i without ending it, from any point of its cycle
and with any other commands between the ticks, is shorter than `CYCLE_BOUND(i)`. The
build's own effects meet the contract (D26); the contract is worded in log 16. -/
def Obligations.GracefulFinishBoundsTheUnfinishedRun : Prop :=
  (∀ (p : EffectParams), GracefulFinish p → ∀ (n : Nat) (s : State), s.cfg.wellFormed = true →
    s.cur.toNat < 5 → s.InCycle p → SteppedUnfinished p n s → n < p.cycleBound s.cur.toNat) ∧
  GracefulFinish Config.effects

/-! What a command may change, over all commands. -/

/-- R180: the transitions of `CUR`. -/
def Obligations.CurMovesOnlyAsTheTableSays : Prop :=
  ∀ (i : Instr) (s t : State), exec i s = .next t →
    (∀ index, i = .start index → t.cur = if index.toNat < 5 then index else s.cur) ∧
    (i = .finish → t.cur = 0xFF) ∧
    (∀ sf, i = .process sf → t.cur ≠ s.cur → t.cur = 0xFF ∧ t.prev = s.cur ∧ s.cur.toNat < 5) ∧
    (sequencerCommand i = false → t.cur = s.cur)

/-- R23: only a finish writes `PREV`: FINISH, or the finish a step asks for, and it copies
`CUR`. -/
def Obligations.PrevIsWrittenOnlyByAFinish : Prop :=
  ∀ (i : Instr) (s t : State), exec i s = .next t → t.prev ≠ s.prev →
    (i = .finish ∨ ∃ sf, i = .process sf) ∧ t.prev = s.cur ∧ t.cur = 0xFF

/-- R26: only PROCESS writes `LAST`, and only the active effect's entry, to the sampled
`NOW`. -/
def Obligations.LastIsWrittenOnlyByProcess : Prop :=
  ∀ (i : Instr) (s t : State), exec i s = .next t → t.last ≠ s.last →
    (∃ sf, i = .process sf) ∧ ∃ k : Fin 5, s.cur = BitVec.ofNat 8 k ∧ t.last[k] = s.now ∧
      ∀ j : Fin 5, j ≠ k → t.last[j] = s.last[j]

/-- R24 and R25: only START and an effect step write `BRIGHT`, and never above its maximum (the
limit on an effect step is the model's, log 4); only
START, FINISH and an effect step write the slots. -/
def Obligations.BrightAndSlotsAreWrittenOnlyBySequencer : Prop :=
  ∀ (i : Instr) (s t : State), exec i s = .next t →
    (t.bright ≠ s.bright → ((∃ index, i = .start index) ∨ ∃ sf, i = .process sf) ∧
      t.bright.toNat ≤ s.cfg.brightnessMax.toNat) ∧
    (t.slots ≠ s.slots → sequencerCommand i = true)

/-- R21 and R31: the buffer is written only by the drawing commands and the sequencer's, a drawing
command writes nothing but the buffer and `RESULT`, and no command changes the build. -/
def Obligations.BufferIsWrittenOnlyByDrawingAndSequencer : Prop :=
  ∀ (i : Instr) (s t : State), exec i s = .next t →
    t.cfg = s.cfg ∧ t.busy = false ∧
    (t.mem ≠ s.mem → drawingCommand i = true ∨ sequencerCommand i = true) ∧
    (drawingCommand i = true → Drew s t)

/-- R227, R245, R25 and R26: `NOW`, the timestamps and the slots show only through PROCESS: no other
command's result, buffer, `CUR`, `PREV` or `BRIGHT` depends on them. -/
def Obligations.HiddenStateShowsOnlyThroughProcess : Prop :=
  ∀ (i : Instr) (s t : State) (now : Nat) (last : Stamps) (slots : Slots),
    (∀ sf, i ≠ .process sf) → exec i s = .next t →
    ∃ u, exec i { s with now := now, last := last, slots := slots } = .next u ∧
      u.result = t.result ∧ u.mem = t.mem ∧ u.cur = t.cur ∧ u.prev = t.prev ∧
      u.bright = t.bright ∧ u.last = last ∧ u.now = now

/-! The cycles of the effects. -/

/-- R182, R183, R186 (e) and R188: every step keeps the running effect's slots and brightness
among those its cycle reaches from a START, in every build: no command but its own steps,
START and a finish touches them. -/
def Obligations.EveryStepKeepsTheEffectsCycle : Prop :=
  ∀ s t : State, s.Idle → s.InCycle Config.effects → step s = .next t → t.InCycle Config.effects

/-- R188: what it fixes of the registered effects, for every admissible set of effects, the
build's own among them. Effects 2 and 3 keep an axis in slot 0 and a position of the cube in
slot 1 after every unfinished tick, and the axis stays or goes along Z, Y, X, Z from one tick to
the next. Along one axis the position reverses, after a rest of any length or none, nowhere but
at 0 and `CUBE_N` - 1; some run reverses at each of the two and some run goes from each axis to
the next; and a run never asked to finish and never ending does the one and takes the axes
again and again. The interval of effect 4 depends on the slots. The exact form of these limits
is the model's (log 15). -/
def Obligations.RegisteredEffectsKeepTheirSlots : Prop :=
  Admissible Config.effects ∧
  ∀ (p : EffectParams), Admissible p →
    (∀ (cfg : Config) (i : Byte), cfg.wellFormed = true → i = 2 ∨ i = 3 →
      (∀ flag run n, TickRun p cfg i flag run n →
        (∀ k, 0 < k → k ≤ n → (∃ a, a ≠ .noAxis ∧ (run k).slots[0] = p.axisCode a) ∧
          (run k).slots[1].toNat < cubeN cfg.geometry) ∧
        (∀ k, 0 < k → k < n →
          ((run k).slots[0] = p.axisCode .z →
            (run (k + 1)).slots[0] = p.axisCode .z ∨ (run (k + 1)).slots[0] = p.axisCode .y) ∧
          ((run k).slots[0] = p.axisCode .y →
            (run (k + 1)).slots[0] = p.axisCode .y ∨ (run (k + 1)).slots[0] = p.axisCode .x) ∧
          ((run k).slots[0] = p.axisCode .x →
            (run (k + 1)).slots[0] = p.axisCode .x ∨ (run (k + 1)).slots[0] = p.axisCode .z)) ∧
        (∀ a b q, 0 < a → b ≤ n → OneAxis (fun k => (run k).slots) a b →
          TurnsAt (fun k => (run k).slots) a b q → q = 0 ∨ q = cubeN cfg.geometry - 1)) ∧
      (∀ q, q = 0 ∨ q = cubeN cfg.geometry - 1 → ∃ flag run n a b, TickRun p cfg i flag run n ∧
        0 < a ∧ b ≤ n ∧ TurnsAt (fun k => (run k).slots) a b q) ∧
      (∀ a, a ≠ .noAxis → ∃ flag run n k, TickRun p cfg i flag run n ∧ 0 < k ∧ k < n ∧
        (run k).slots[0] = p.axisCode a ∧ (run (k + 1)).slots[0] = p.axisCode (nextAxis a)) ∧
      (∀ run, (∀ n, TickRun p cfg i (fun _ => false) run n) → ∀ n,
        (∃ a b, n ≤ a ∧ TurnsAt (fun k => (run k).slots) a b 0) ∧
        (∃ a b, n ≤ a ∧ TurnsAt (fun k => (run k).slots) a b (cubeN cfg.geometry - 1)) ∧
        ∀ a, a ≠ .noAxis → ∃ k, n ≤ k ∧ (run k).slots[0] = p.axisCode a)) ∧
    (∀ cfg : Config, cfg.wellFormed = true → 0 < cfg.clkW →
      ∃ a b : Slots, effectInterval p cfg 4 a ≠ effectInterval p cfg 4 b)
end

