-- ==== Sys2Proof/Laws/Decode.lean ====
section
/-!
SUPPORT. The fields of an encoded word are the fields it was made of.
-/

namespace Sys2Proof

/-- The word's number, when every field fits (R61). -/
theorem toNat_encodeFields {op t a b c d e f : Nat} (hop : op < 64) (ht : t < 4) (ha : a < 16)
    (hb : b < 16) (hc : c < 16) (hd : d < 16) (hef : e * 16 + f < 256) :
    (encodeFields op t a b c d e f).toNat = op * 2 ^ 26 + t * 2 ^ 24 + a * 2 ^ 20 + b * 2 ^ 16 +
      c * 2 ^ 12 + d * 2 ^ 8 + (e * 16 + f) := by
  rw [encodeFields, BitVec.toNat_ofNat]; omega

section
variable {op t a b c d e f : Nat} (hop : op < 64) (ht : t < 4) (ha : a < 16) (hb : b < 16)
  (hc : c < 16) (hd : d < 16) (hef : e * 16 + f < 256)
include hop ht ha hb hc hd hef

theorem fieldOP_encodeFields : fieldOP (encodeFields op t a b c d e f) = op := by
  rw [fieldOP, wordField, toNat_encodeFields hop ht ha hb hc hd hef]; omega

theorem fieldT_encodeFields : fieldT (encodeFields op t a b c d e f) = t := by
  rw [fieldT, wordField, toNat_encodeFields hop ht ha hb hc hd hef]; omega

theorem fieldA_encodeFields : fieldA (encodeFields op t a b c d e f) = a := by
  rw [fieldA, wordField, toNat_encodeFields hop ht ha hb hc hd hef]; omega

theorem fieldB_encodeFields : fieldB (encodeFields op t a b c d e f) = b := by
  rw [fieldB, wordField, toNat_encodeFields hop ht ha hb hc hd hef]; omega

theorem fieldC_encodeFields : fieldC (encodeFields op t a b c d e f) = c := by
  rw [fieldC, wordField, toNat_encodeFields hop ht ha hb hc hd hef]; omega

theorem fieldD_encodeFields : fieldD (encodeFields op t a b c d e f) = d := by
  rw [fieldD, wordField, toNat_encodeFields hop ht ha hb hc hd hef]; omega

theorem fieldE_encodeFields : fieldE (encodeFields op t a b c d e f) = (e * 16 + f) / 16 := by
  rw [fieldE, wordField, toNat_encodeFields hop ht ha hb hc hd hef]; omega

theorem fieldF_encodeFields : fieldF (encodeFields op t a b c d e f) = (e * 16 + f) % 16 := by
  rw [fieldF, wordField, toNat_encodeFields hop ht ha hb hc hd hef]; omega

theorem fieldIMM8_encodeFields :
    fieldIMM8 (encodeFields op t a b c d e f) = BitVec.ofNat 8 (e * 16 + f) := by
  rw [fieldIMM8, wordField, toNat_encodeFields hop ht ha hb hc hd hef]; congr 1; omega

theorem fieldS3_encodeFields : fieldS3 (encodeFields op t a b c d e f) = a % 8 := by
  rw [fieldS3, wordField, toNat_encodeFields hop ht ha hb hc hd hef]; omega

theorem fieldE3_encodeFields : fieldE3 (encodeFields op t a b c d e f) = b % 8 := by
  rw [fieldE3, wordField, toNat_encodeFields hop ht ha hb hc hd hef]; omega

theorem fieldBit0_encodeFields :
    fieldBit0 (encodeFields op t a b c d e f) = (e * 16 + f) % 2 := by
  rw [fieldBit0, wordField, toNat_encodeFields hop ht ha hb hc hd hef]; omega

end

theorem coordCode_lt (c : Nat) : coordCode c < 16 := by unfold coordCode; omega

theorem coordCode_of_fits {c : Nat} (h : coordFits c = true) : coordCode c = c := by
  simp only [coordFits, decide_eq_true_eq] at h
  unfold coordCode; omega

theorem coordCode_heldAsFifteen (c : Nat) : coordCode (Machine.heldAsFifteen c) = coordCode c := by
  unfold coordCode Machine.heldAsFifteen; split <;> omega

theorem coordFits_heldAsFifteen (c : Nat) : coordFits (Machine.heldAsFifteen c) = true := by
  unfold Machine.heldAsFifteen; split
  · exact decide_eq_true ‹_›
  · rfl

/-- The encoder does not tell a command from the one with 15 for its large coordinates. -/
theorem encode_largeAsFifteen (i : Instr) : encode (Machine.largeAsFifteen i) = encode i := by
  cases i <;>
    simp [Machine.largeAsFifteen, encode, encodePoint, encodePlane, encodeTwoPoints,
      coordCode_heldAsFifteen]

theorem wellFormed_largeAsFifteen {i : Instr} (h : Machine.bitPositionsFit i = true) :
    (Machine.largeAsFifteen i).wellFormed = true := by
  cases i
  case byteline lo hi => exact h
  all_goals simp [Machine.largeAsFifteen, Instr.wellFormed, pointFits, coordFits_heldAsFifteen]

theorem boxStyleOf_code (s : BoxStyle) : boxStyleOf (boxStyleCode s) = s := by cases s <;> rfl

theorem axisOf_code (a : Axis) : axisOf (axisCode a) = a := by cases a <;> rfl

theorem pointFits_iff {x y z : Nat} :
    pointFits x y z = true ↔ coordFits x = true ∧ coordFits y = true ∧ coordFits z = true := by
  simp [pointFits, and_assoc]

theorem decode_of_op {w : CommandWord} {op : Nat} (h : fieldOP w = op) :
    decode w = decodeAs op w := by rw [decode, h]

/-! One lemma per format (R62): the word decodes through its opcode to its operands. -/

theorem decode_encodeLow {op low : Nat} (hop : op < 64) (hl : low < 256) :
    fieldOP (encodeLow op low) = op ∧ fieldIMM8 (encodeLow op low) = BitVec.ofNat 8 low := by
  refine ⟨fieldOP_encodeFields hop (by omega) (by omega) (by omega) (by omega) (by omega)
    (by omega), ?_⟩
  rw [encodeLow, fieldIMM8_encodeFields hop (by omega) (by omega) (by omega) (by omega) (by omega)
    (by omega)]
  simp

theorem decode_encodePoint {op x y z low : Nat} (hop : op < 64) (hl : low < 256)
    (h : pointFits x y z = true) :
    fieldOP (encodePoint op x y z low) = op ∧ fieldA (encodePoint op x y z low) = x ∧
      fieldB (encodePoint op x y z low) = y ∧ fieldC (encodePoint op x y z low) = z ∧
      fieldIMM8 (encodePoint op x y z low) = BitVec.ofNat 8 low := by
  obtain ⟨hx, hy, hz⟩ := pointFits_iff.1 h
  have h0 : (0 : Nat) < 4 := by omega
  have h1 : (0 : Nat) < 16 := by omega
  have h2 : 0 * 16 + low < 256 := by omega
  unfold encodePoint
  refine ⟨fieldOP_encodeFields hop h0 (coordCode_lt x) (coordCode_lt y) (coordCode_lt z) h1 h2,
    ?_, ?_, ?_, ?_⟩
  · rw [fieldA_encodeFields hop h0 (coordCode_lt x) (coordCode_lt y) (coordCode_lt z) h1 h2,
      coordCode_of_fits hx]
  · rw [fieldB_encodeFields hop h0 (coordCode_lt x) (coordCode_lt y) (coordCode_lt z) h1 h2,
      coordCode_of_fits hy]
  · rw [fieldC_encodeFields hop h0 (coordCode_lt x) (coordCode_lt y) (coordCode_lt z) h1 h2,
      coordCode_of_fits hz]
  · rw [fieldIMM8_encodeFields hop h0 (coordCode_lt x) (coordCode_lt y) (coordCode_lt z) h1 h2]
    simp

theorem decode_encodePlane {op c : Nat} (hop : op < 64) (h : coordFits c = true) :
    fieldOP (encodePlane op c) = op ∧ fieldA (encodePlane op c) = c := by
  have h0 : (0 : Nat) < 4 := by omega
  have h1 : (0 : Nat) < 16 := by omega
  have h2 : 0 * 16 + 0 < 256 := by omega
  unfold encodePlane
  exact ⟨fieldOP_encodeFields hop h0 (coordCode_lt c) h1 h1 h1 h2, by
    rw [fieldA_encodeFields hop h0 (coordCode_lt c) h1 h1 h1 h2, coordCode_of_fits h]⟩

theorem decode_encodeTwoPoints {op t x1 y1 z1 x2 y2 z2 : Nat} (hop : op < 64) (ht : t < 4)
    (h1 : pointFits x1 y1 z1 = true) (h2 : pointFits x2 y2 z2 = true) :
    fieldOP (encodeTwoPoints op t x1 y1 z1 x2 y2 z2) = op ∧
      fieldT (encodeTwoPoints op t x1 y1 z1 x2 y2 z2) = t ∧
      fieldA (encodeTwoPoints op t x1 y1 z1 x2 y2 z2) = x1 ∧
      fieldB (encodeTwoPoints op t x1 y1 z1 x2 y2 z2) = y1 ∧
      fieldC (encodeTwoPoints op t x1 y1 z1 x2 y2 z2) = z1 ∧
      fieldD (encodeTwoPoints op t x1 y1 z1 x2 y2 z2) = x2 ∧
      fieldE (encodeTwoPoints op t x1 y1 z1 x2 y2 z2) = y2 ∧
      fieldF (encodeTwoPoints op t x1 y1 z1 x2 y2 z2) = z2 := by
  obtain ⟨hx1, hy1, hz1⟩ := pointFits_iff.1 h1
  obtain ⟨hx2, hy2, hz2⟩ := pointFits_iff.1 h2
  have hy := coordCode_lt y2
  have hz := coordCode_lt z2
  have hef : coordCode y2 * 16 + coordCode z2 < 256 := by omega
  unfold encodeTwoPoints
  refine ⟨fieldOP_encodeFields hop ht (coordCode_lt x1) (coordCode_lt y1) (coordCode_lt z1)
      (coordCode_lt x2) hef,
    fieldT_encodeFields hop ht (coordCode_lt x1) (coordCode_lt y1) (coordCode_lt z1)
      (coordCode_lt x2) hef, ?_, ?_, ?_, ?_, ?_, ?_⟩
  · rw [fieldA_encodeFields hop ht (coordCode_lt x1) (coordCode_lt y1) (coordCode_lt z1)
      (coordCode_lt x2) hef, coordCode_of_fits hx1]
  · rw [fieldB_encodeFields hop ht (coordCode_lt x1) (coordCode_lt y1) (coordCode_lt z1)
      (coordCode_lt x2) hef, coordCode_of_fits hy1]
  · rw [fieldC_encodeFields hop ht (coordCode_lt x1) (coordCode_lt y1) (coordCode_lt z1)
      (coordCode_lt x2) hef, coordCode_of_fits hz1]
  · rw [fieldD_encodeFields hop ht (coordCode_lt x1) (coordCode_lt y1) (coordCode_lt z1)
      (coordCode_lt x2) hef, coordCode_of_fits hx2]
  · rw [fieldE_encodeFields hop ht (coordCode_lt x1) (coordCode_lt y1) (coordCode_lt z1)
      (coordCode_lt x2) hef, coordCode_of_fits hy2]
    omega
  · rw [fieldF_encodeFields hop ht (coordCode_lt x1) (coordCode_lt y1) (coordCode_lt z1)
      (coordCode_lt x2) hef, coordCode_of_fits hz2]
    have := coordCode_of_fits hz2
    omega

/-! The fields as bits of the word (R61), and the opcode map by match and mask (R65). -/

theorem wordField_eq_bitsAt (w : CommandWord) (lo len : Nat) :
    wordField w lo len = Machine.bitsAt w lo len := by
  rw [wordField, Machine.bitsAt, BitVec.extractLsb'_toNat, Nat.shiftRight_eq_div_pow]

theorem fieldIMM8_eq_immediateOf (w : CommandWord) : fieldIMM8 w = Machine.immediateOf w := by
  apply BitVec.eq_of_toNat_eq
  rw [fieldIMM8, wordField_eq_bitsAt, BitVec.toNat_ofNat]
  exact Nat.mod_eq_of_lt (Machine.bitsAt w 0 8 |> fun _ => (w.extractLsb' 0 8).isLt)

/-- A field inside the mask is the pattern's field. -/
theorem wordField_of_match {w mask pattern : CommandWord} (h : w &&& mask = pattern)
    {lo len : Nat} (hm : wordField mask lo len = 2 ^ len - 1) :
    wordField w lo len = wordField pattern lo len := by
  subst h
  rw [wordField_eq_bitsAt] at *
  rw [wordField_eq_bitsAt]
  unfold Machine.bitsAt at *
  congr 1
  apply BitVec.eq_of_getLsbD_eq
  intro i hi
  have hb : (mask.extractLsb' lo len).getLsbD i = true := by
    rw [BitVec.getLsbD, hm, Nat.testBit_two_pow_sub_one]
    simpa using hi
  rw [BitVec.getLsbD_extractLsb'] at hb ⊢
  rw [BitVec.getLsbD_extractLsb']
  simp only [hi, decide_true, Bool.true_and] at hb ⊢
  rw [BitVec.getLsbD_and, hb, Bool.and_true]

/-- The opcode map's row of a word, by the match under the common mask. -/
theorem decode_of_match {w mask pattern : CommandWord} (h : w &&& mask = pattern)
    (hm : fieldOP mask = 63) : decode w = decodeAs (fieldOP pattern) w :=
  decode_of_op (wordField_of_match h hm)

end Sys2Proof
end

