-- ==== Sys2Proof/Laws/Memory.lean ====
section
/-!
SUPPORT. The laws of the buffer's bytes: what is read after a store, and that every store
keeps the canonical form.
-/

namespace Sys2Proof.Machine

open Sys2Proof

theorem lookupByte_dropByte_same (m : Memory) (a : Nat) :
    lookupByte (dropByte a m) a = unlistedByte := by
  induction m with
  | nil => rfl
  | cons c m ih =>
    obtain ⟨b, v⟩ := c
    by_cases h : b = a <;> simp [dropByte, lookupByte, h, ih]

theorem lookupByte_dropByte_other (m : Memory) {a b : Nat} (hab : a ≠ b) :
    lookupByte (dropByte a m) b = lookupByte m b := by
  induction m with
  | nil => rfl
  | cons c m ih =>
    obtain ⟨d, v⟩ := c
    by_cases h : d = a
    · subst h; simp [dropByte, lookupByte, hab, ih]
    · simp [dropByte, lookupByte, h, ih]

theorem lookupByte_insertCell_other (m : Memory) (v : Byte) {a b : Nat} (hab : a ≠ b) :
    lookupByte (insertCell a v m) b = lookupByte m b := by
  induction m with
  | nil => simp [insertCell, lookupByte, hab]
  | cons c m ih =>
    obtain ⟨d, u⟩ := c
    by_cases h : a < d
    · simp [insertCell, lookupByte, h, hab]
    · simp [insertCell, lookupByte, h, ih]

theorem lookupByte_insertCell_same (m : Memory) (a : Nat) (v : Byte)
    (hm : ∀ c ∈ m, c.1 ≠ a) : lookupByte (insertCell a v m) a = v := by
  induction m with
  | nil => simp [insertCell, lookupByte]
  | cons c m ih =>
    obtain ⟨d, u⟩ := c
    have hd : d ≠ a := hm (d, u) (by simp)
    by_cases h : a < d
    · simp [insertCell, lookupByte, h]
    · simp [insertCell, lookupByte, h, hd, ih (fun c hc => hm c (by simp [hc]))]

theorem mem_dropByte {m : Memory} {a : Nat} {c : Host.Cell} :
    c ∈ dropByte a m ↔ c ∈ m ∧ c.1 ≠ a := by
  induction m with
  | nil => simp [dropByte]
  | cons d m ih =>
    obtain ⟨b, v⟩ := d
    by_cases h : b = a
    · subst h; simp only [dropByte, if_true, ih, List.mem_cons]
      constructor
      · rintro ⟨h1, h2⟩; exact ⟨.inr h1, h2⟩
      · rintro ⟨rfl | h1, h2⟩
        · exact absurd rfl h2
        · exact ⟨h1, h2⟩
    · simp only [dropByte, h, if_false, List.mem_cons, ih]
      constructor
      · rintro (rfl | ⟨h1, h2⟩)
        · exact ⟨.inl rfl, h⟩
        · exact ⟨.inr h1, h2⟩
      · rintro ⟨rfl | h1, h2⟩
        · exact .inl rfl
        · exact .inr ⟨h1, h2⟩

theorem mem_insertCell {m : Memory} {a : Nat} {v : Byte} {c : Host.Cell} :
    c ∈ insertCell a v m ↔ c = (a, v) ∨ c ∈ m := by
  induction m with
  | nil => simp [insertCell]
  | cons d m ih =>
    obtain ⟨b, u⟩ := d
    by_cases h : a < b
    · simp [insertCell, h]
    · simp only [insertCell, h, if_false, List.mem_cons, ih]; tauto

/-- A byte stored is the byte read there. -/
@[simp] theorem lookupByte_storeByte_same (m : Memory) (a : Nat) (v : Byte) :
    lookupByte (storeByte m a v) a = v := by
  by_cases h : v = unlistedByte
  · simp [storeByte, h, lookupByte_dropByte_same]
  · simp only [storeByte, h, if_false]
    exact lookupByte_insertCell_same _ _ _ (fun c hc => (mem_dropByte.1 hc).2)

/-- A store leaves every other byte alone. -/
theorem lookupByte_storeByte_other (m : Memory) (v : Byte) {a b : Nat} (hab : a ≠ b) :
    lookupByte (storeByte m a v) b = lookupByte m b := by
  by_cases h : v = unlistedByte
  · simp [storeByte, h, lookupByte_dropByte_other m hab]
  · simp [storeByte, h, lookupByte_insertCell_other _ _ hab, lookupByte_dropByte_other m hab]

theorem pairwise_dropByte {m : Memory} (a : Nat) (hm : m.Pairwise (fun c d => c.1 < d.1)) :
    (dropByte a m).Pairwise (fun c d => c.1 < d.1) := by
  induction m with
  | nil => exact hm
  | cons d m ih =>
    obtain ⟨b, v⟩ := d
    rw [List.pairwise_cons] at hm
    by_cases h : b = a
    · simpa [dropByte, h] using ih hm.2
    · simp only [dropByte, h, if_false, List.pairwise_cons]
      exact ⟨fun c hc => hm.1 c (mem_dropByte.1 hc).1, ih hm.2⟩

theorem pairwise_insertCell {m : Memory} (a : Nat) (v : Byte)
    (hm : m.Pairwise (fun c d => c.1 < d.1)) (ha : ∀ c ∈ m, c.1 ≠ a) :
    (insertCell a v m).Pairwise (fun c d => c.1 < d.1) := by
  induction m with
  | nil => simp [insertCell]
  | cons d m ih =>
    obtain ⟨b, u⟩ := d
    have hb : b ≠ a := ha (b, u) (by simp)
    have hm' := List.pairwise_cons.1 hm
    by_cases h : a < b
    · simp only [insertCell, h, if_true, List.pairwise_cons, List.mem_cons]
      refine ⟨?_, hm'⟩
      rintro c (rfl | hc)
      · exact h
      · exact h.trans (hm'.1 c hc)
    · simp only [insertCell, h, if_false, List.pairwise_cons]
      refine ⟨fun c hc => ?_, ih hm'.2 (fun c hc => ha c (by simp [hc]))⟩
      rcases mem_insertCell.1 hc with rfl | hc
      · show b < a; omega
      · exact hm'.1 c hc

/-- A store keeps the canonical form. -/
theorem wf_storeByte {m : Memory} (hm : m.wf) (a : Nat) (v : Byte) : (storeByte m a v).wf := by
  by_cases h : v = unlistedByte
  · simp only [storeByte, h, if_true]
    exact ⟨pairwise_dropByte a hm.1, fun c hc => hm.2 c (mem_dropByte.1 hc).1⟩
  · simp only [storeByte, h, if_false]
    refine ⟨pairwise_insertCell a v (pairwise_dropByte a hm.1)
      (fun c hc => (mem_dropByte.1 hc).2), fun c hc => ?_⟩
    rcases mem_insertCell.1 hc with rfl | hc
    · exact h
    · exact hm.2 c (mem_dropByte.1 hc).1

/-- A store inside the buffer keeps the buffer's invariant. -/
theorem memOk_storeByte {g : Geometry} {m : Memory} (hm : memOk g m) {a : Nat}
    (ha : a < totalBytes g) (v : Byte) : memOk g (storeByte m a v) := by
  refine ⟨wf_storeByte hm.1 a v, fun c hc => ?_⟩
  by_cases h : v = unlistedByte
  · simp only [storeByte, h, if_true] at hc
    exact hm.2 c (mem_dropByte.1 hc).1
  · simp only [storeByte, h, if_false] at hc
    rcases mem_insertCell.1 hc with rfl | hc
    · exact ha
    · exact hm.2 c (mem_dropByte.1 hc).1

theorem memOk_nil (g : Geometry) : memOk g [] := by simp [memOk, Memory.wf]

/-- In the canonical form two buffers that read alike everywhere are equal. -/
theorem wf_ext {m n : Memory} (hm : m.wf) (hn : n.wf)
    (h : ∀ a, lookupByte m a = lookupByte n a) : m = n := by
  have absent : ∀ (m : Memory) (a : Nat), (∀ c ∈ m, a < c.1) → lookupByte m a = unlistedByte := by
    intro m a hlt
    induction m with
    | nil => rfl
    | cons c m ih =>
      obtain ⟨b, v⟩ := c
      have hb : b ≠ a := by have := hlt (b, v) (by simp); simp only at this; omega
      simp [lookupByte, hb, ih (fun c hc => hlt c (by simp [hc]))]
  induction m generalizing n with
  | nil =>
    cases n with
    | nil => rfl
    | cons d n =>
      have := h d.1
      simp [lookupByte] at this
      exact absurd this.symm (hn.2 d (by simp))
  | cons c m ih =>
    cases n with
    | nil =>
      have := h c.1
      simp [lookupByte] at this
      exact absurd this (hm.2 c (by simp))
    | cons d n =>
      obtain ⟨a, v⟩ := c
      obtain ⟨b, u⟩ := d
      have hmp := List.pairwise_cons.1 hm.1
      have hnp := List.pairwise_cons.1 hn.1
      have hab : a = b := by
        rcases Nat.lt_trichotomy a b with hlt | heq | hgt
        · have h1 := h a
          have h2 := absent ((b, u) :: n) a (by
            intro c hc
            rcases List.mem_cons.1 hc with rfl | hc
            · exact hlt
            · exact hlt.trans (hnp.1 c hc))
          rw [h2] at h1
          simp [lookupByte] at h1
          exact absurd h1 (hm.2 (a, v) (by simp))
        · exact heq
        · have h1 := h b
          have h2 := absent ((a, v) :: m) b (by
            intro c hc
            rcases List.mem_cons.1 hc with rfl | hc
            · exact hgt
            · exact hgt.trans (hmp.1 c hc))
          rw [h2] at h1
          simp [lookupByte] at h1
          exact absurd h1.symm (hn.2 (b, u) (by simp))
      subst hab
      have hvu : v = u := by simpa [lookupByte] using h a
      subst hvu
      congr 1
      refine ih ⟨hmp.2, fun c hc => hm.2 c (by simp [hc])⟩ ⟨hnp.2, fun c hc => hn.2 c (by simp [hc])⟩
        (fun k => ?_)
      by_cases hk : a = k
      · subst hk
        rw [absent m a (fun c hc => hmp.1 c hc), absent n a (fun c hc => hnp.1 c hc)]
      · simpa [lookupByte, hk] using h k

end Sys2Proof.Machine
end

