-- ==== Sys2Proof/Laws/Voxel.lean ====
section
/-!
SUPPORT. The laws of the voxels: the decoder is a bijection (20_memory.md R52), a voxel write
changes exactly one bit (R46), and what the loops over voxels leave.
-/

namespace Sys2Proof.Machine

open Sys2Proof

theorem inRange_iff {g : Geometry} {p : Coord} :
    inRange g p = true ↔ p.x < cubeN g ∧ p.y < cubeN g ∧ p.z < cubeN g := by
  simp [inRange, and_assoc]

theorem cubeN_pos (g : Geometry) : 0 < cubeN g := by cases g <;> decide

theorem cubeN_le (g : Geometry) : cubeN g ≤ 8 := by cases g <;> decide

/-! The decoder. -/

theorem bitIx_lt {g : Geometry} {p : Coord} (hp : inRange g p = true) : bitIx g p < 8 := by
  obtain ⟨hx, hy, hz⟩ := inRange_iff.1 hp
  cases g <;> simp only [bitIx, place, cubeN] at * <;> omega

theorem byteAddr_lt {g : Geometry} {p : Coord} (hp : inRange g p = true) :
    byteAddr g p < totalBytes g := by
  obtain ⟨hx, hy, hz⟩ := inRange_iff.1 hp
  cases g <;> simp only [byteAddr, place, cubeN, bpl, totalBytes] at * <;> omega

theorem place_injective {g : Geometry} {p q : Coord} (hp : inRange g p = true)
    (hq : inRange g q = true) (ha : byteAddr g p = byteAddr g q) (hb : bitIx g p = bitIx g q) :
    p = q := by
  obtain ⟨hx, hy, hz⟩ := inRange_iff.1 hp
  obtain ⟨hx', hy', hz'⟩ := inRange_iff.1 hq
  obtain ⟨x, y, z⟩ := p
  obtain ⟨x', y', z'⟩ := q
  cases g <;> simp only [byteAddr, bitIx, place, cubeN, bpl, Coord.mk.injEq] at * <;> omega

theorem place_surjective {g : Geometry} {a i : Nat} (ha : a < totalBytes g) (hi : i < 8) :
    ∃ p, inRange g p = true ∧ byteAddr g p = a ∧ bitIx g p = i := by
  cases g
  · refine ⟨⟨i % 4, 2 * (a % 2) + i / 4, a / 2⟩, inRange_iff.2 ?_, ?_, ?_⟩ <;>
      simp only [byteAddr, bitIx, place, cubeN, bpl, totalBytes] at * <;> omega
  · refine ⟨⟨i, a % 8, a / 8⟩, inRange_iff.2 ?_, ?_, ?_⟩ <;>
      simp only [byteAddr, bitIx, place, cubeN, bpl, totalBytes] at * <;> omega

/-! One voxel. -/

theorem getLsbD_bitMask (i j : Nat) (hi : i < 8) : (bitMask i).getLsbD j = decide (i = j) := by
  rw [bitMask, BitVec.getLsbD_shiftLeft, BitVec.getLsbD_one]
  by_cases h : i = j
  · subst h; simp [hi]
  · have : ¬ (j - i = 0 ∧ i ≤ j) := by omega
    by_cases hji : j < i
    · simp [h, hji]
    · have : j - i ≠ 0 := by omega
      simp [h, this]

theorem lookupByte_memWrite_same (m : Memory) (a : Nat) (v : Byte) :
    lookupByte (memWrite m a v) a = v := lookupByte_storeByte_same m a v

theorem lookupByte_memWrite_other (m : Memory) (v : Byte) {a b : Nat} (hab : a ≠ b) :
    lookupByte (memWrite m a v) b = lookupByte m b := lookupByte_storeByte_other m v hab

/-- What one voxel write `f` of the byte does to every in-range voxel, if `f` changes at most
the written voxel's bit. -/
theorem getV_memWrite {g : Geometry} (m : Memory) {p q : Coord} (v : Byte)
    (hp : inRange g p = true) (hq : inRange g q = true)
    (hv : ∀ j, j < 8 → j ≠ bitIx g p → v.getLsbD j = (lookupByte m (byteAddr g p)).getLsbD j) :
    getV g (memWrite m (byteAddr g p) v) q =
      if p = q then v.getLsbD (bitIx g p) else getV g m q := by
  by_cases hpq : p = q
  · subst hpq; simp [getV, lookupByte_memWrite_same]
  · rw [if_neg hpq]
    by_cases ha : byteAddr g p = byteAddr g q
    · have hb : bitIx g q ≠ bitIx g p := fun hb => hpq (place_injective hp hq ha hb.symm)
      simp only [getV, ← ha, lookupByte_memWrite_same]
      exact hv _ (bitIx_lt hq) hb
    · simp [getV, lookupByte_memWrite_other _ _ ha]

theorem getV_setV {g : Geometry} (m : Memory) {p q : Coord} (hp : inRange g p = true)
    (hq : inRange g q = true) : getV g (setV g m p) q = if p = q then true else getV g m q := by
  rw [setV, getV_memWrite m _ hp hq]
  · rw [BitVec.getLsbD_or, getLsbD_bitMask _ _ (bitIx_lt hp)]; simp
  · intro j _ hj
    rw [BitVec.getLsbD_or, getLsbD_bitMask _ _ (bitIx_lt hp)]
    simp [Ne.symm hj]

theorem getV_clrV {g : Geometry} (m : Memory) {p q : Coord} (hp : inRange g p = true)
    (hq : inRange g q = true) : getV g (clrV g m p) q = if p = q then false else getV g m q := by
  rw [clrV, getV_memWrite m _ hp hq]
  · rw [BitVec.getLsbD_and, BitVec.getLsbD_not, getLsbD_bitMask _ _ (bitIx_lt hp)]; simp
  · intro j h8 hj
    rw [BitVec.getLsbD_and, BitVec.getLsbD_not, getLsbD_bitMask _ _ (bitIx_lt hp)]
    simp [Ne.symm hj, h8]

theorem getV_flipV {g : Geometry} (m : Memory) {p q : Coord} (hp : inRange g p = true)
    (hq : inRange g q = true) :
    getV g (flipV g m p) q = if p = q then !getV g m p else getV g m q := by
  rw [flipV, getV_memWrite m _ hp hq]
  · rw [BitVec.getLsbD_xor, getLsbD_bitMask _ _ (bitIx_lt hp)]; simp [getV]
  · intro j _ hj
    rw [BitVec.getLsbD_xor, getLsbD_bitMask _ _ (bitIx_lt hp)]
    simp [Ne.symm hj]

theorem getV_putV {g : Geometry} (m : Memory) {p q : Coord} (b : Bool) (hp : inRange g p = true)
    (hq : inRange g q = true) : getV g (putV g m p b) q = if p = q then b else getV g m q := by
  cases b <;> simp [putV, getV_setV m hp hq, getV_clrV m hp hq]

/-! What one voxel write leaves of the other bytes and of the buffer's form. -/

theorem lookupByte_putV_other {g : Geometry} (m : Memory) {p : Coord} (b : Bool) {a : Nat}
    (ha : byteAddr g p ≠ a) : lookupByte (putV g m p b) a = lookupByte m a := by
  cases b <;> simp [putV, setV, clrV, lookupByte_memWrite_other _ _ ha]

theorem lookupByte_flipV_other {g : Geometry} (m : Memory) {p : Coord} {a : Nat}
    (ha : byteAddr g p ≠ a) : lookupByte (flipV g m p) a = lookupByte m a := by
  simp [flipV, lookupByte_memWrite_other _ _ ha]

theorem memOk_putV {g : Geometry} {m : Memory} (hm : memOk g m) {p : Coord} (b : Bool)
    (hp : inRange g p = true) : memOk g (putV g m p b) := by
  cases b <;> exact memOk_storeByte hm (byteAddr_lt hp) _

theorem memOk_flipV {g : Geometry} {m : Memory} (hm : memOk g m) {p : Coord}
    (hp : inRange g p = true) : memOk g (flipV g m p) := memOk_storeByte hm (byteAddr_lt hp) _

/-! Loops over voxels: each is a `putAll`. -/

theorem setAll_eq_putAll (g : Geometry) (m : Memory) (ps : List Coord) :
    setAll g m ps = putAll g (fun _ => true) m ps := rfl

theorem clrAll_eq_putAll (g : Geometry) (m : Memory) (ps : List Coord) :
    clrAll g m ps = putAll g (fun _ => false) m ps := rfl

/-- A loop makes each voxel of its list what `f` says and leaves every other alone. -/
theorem getV_putAll {g : Geometry} (f : Coord → Bool) (m : Memory) (ps : List Coord)
    (hps : ∀ p ∈ ps, inRange g p = true) {q : Coord} (hq : inRange g q = true) :
    getV g (putAll g f m ps) q = if q ∈ ps then f q else getV g m q := by
  induction ps generalizing m with
  | nil => simp [putAll]
  | cons p ps ih =>
    have h := ih (putV g m p (f p)) (fun p hp => hps p (by simp [hp]))
    rw [show putAll g f m (p :: ps) = putAll g f (putV g m p (f p)) ps from rfl, h,
      getV_putV m _ (hps p (by simp)) hq]
    by_cases hin : q ∈ ps
    · simp [hin]
    · by_cases hpq : p = q
      · subst hpq; simp
      · simp [hin, hpq, Ne.symm hpq]

theorem lookupByte_putAll_other {g : Geometry} (f : Coord → Bool) (m : Memory) (ps : List Coord)
    {a : Nat} (ha : ∀ p ∈ ps, byteAddr g p ≠ a) :
    lookupByte (putAll g f m ps) a = lookupByte m a := by
  induction ps generalizing m with
  | nil => rfl
  | cons p ps ih =>
    rw [show putAll g f m (p :: ps) = putAll g f (putV g m p (f p)) ps from rfl,
      ih _ (fun p hp => ha p (by simp [hp])), lookupByte_putV_other m _ (ha p (by simp))]

theorem memOk_putAll {g : Geometry} (f : Coord → Bool) {m : Memory} (hm : memOk g m)
    (ps : List Coord) (hps : ∀ p ∈ ps, inRange g p = true) : memOk g (putAll g f m ps) := by
  induction ps generalizing m with
  | nil => exact hm
  | cons p ps ih =>
    exact ih (memOk_putV hm (f p) (hps p (by simp))) (fun p hp => hps p (by simp [hp]))

theorem memOk_setV {g : Geometry} {m : Memory} (hm : memOk g m) {p : Coord}
    (hp : inRange g p = true) : memOk g (setV g m p) := memOk_putV hm true hp

theorem memOk_clrV {g : Geometry} {m : Memory} (hm : memOk g m) {p : Coord}
    (hp : inRange g p = true) : memOk g (clrV g m p) := memOk_putV hm false hp

theorem memOk_setAll {g : Geometry} {m : Memory} (hm : memOk g m) (ps : List Coord)
    (hps : ∀ p ∈ ps, inRange g p = true) : memOk g (setAll g m ps) :=
  memOk_putAll (fun _ => true) hm ps hps

/-! The lists the loops run over. -/

theorem mem_span {a b k : Nat} : k ∈ span a b ↔ a ≤ k ∧ k ≤ b := by
  simp only [span, List.mem_range'_1]; omega

theorem mem_boxCoords {x1 y1 z1 x2 y2 z2 : Nat} {p : Coord} :
    p ∈ boxCoords x1 y1 z1 x2 y2 z2 ↔
      (x1 ≤ p.x ∧ p.x ≤ x2) ∧ (y1 ≤ p.y ∧ p.y ≤ y2) ∧ (z1 ≤ p.z ∧ p.z ≤ z2) := by
  simp only [boxCoords, List.mem_flatMap, List.mem_map, mem_span]
  constructor
  · rintro ⟨z, hz, y, hy, x, hx, rfl⟩; exact ⟨hx, hy, hz⟩
  · rintro ⟨hx, hy, hz⟩; exact ⟨p.z, hz, p.y, hy, p.x, hx, rfl⟩

theorem mem_allCoords {g : Geometry} {p : Coord} : p ∈ allCoords g ↔ inRange g p = true := by
  have := cubeN_pos g
  rw [allCoords, mem_boxCoords, inRange_iff]; omega

theorem mem_rowCoords {g : Geometry} {y z : Nat} {p : Coord} :
    p ∈ rowCoords g y z ↔ p.x < cubeN g ∧ p.y = y ∧ p.z = z := by
  have := cubeN_pos g
  simp only [rowCoords, List.mem_map, mem_span]
  constructor
  · rintro ⟨x, hx, rfl⟩; exact ⟨by show x < _; omega, rfl, rfl⟩
  · rintro ⟨hx, rfl, rfl⟩; exact ⟨p.x, by omega, rfl⟩

/-! Rows. -/

theorem getV_writeRow {g : Geometry} (m : Memory) {y z : Nat} (r : Byte) (hy : y < cubeN g)
    (hz : z < cubeN g) {q : Coord} (hq : inRange g q = true) :
    getV g (writeRow g m y z r) q =
      if q.y = y ∧ q.z = z then r.getLsbD q.x else getV g m q := by
  have hps : ∀ p ∈ rowCoords g y z, inRange g p = true := by
    intro p hp
    obtain ⟨h1, rfl, rfl⟩ := mem_rowCoords.1 hp
    exact inRange_iff.2 ⟨h1, hy, hz⟩
  rw [writeRow, getV_putAll _ m _ hps hq]
  have := (inRange_iff.1 hq).1
  simp [mem_rowCoords, this]

theorem memOk_writeRow {g : Geometry} {m : Memory} (hm : memOk g m) {y z : Nat} (r : Byte)
    (hy : y < cubeN g) (hz : z < cubeN g) : memOk g (writeRow g m y z r) := by
  refine memOk_putAll _ hm _ fun p hp => ?_
  obtain ⟨h1, rfl, rfl⟩ := mem_rowCoords.1 hp
  exact inRange_iff.2 ⟨h1, hy, hz⟩

theorem lookupByte_writeRow_other {g : Geometry} (m : Memory) {y z : Nat} (r : Byte) {a : Nat}
    (ha : ∀ p : Coord, p.x < cubeN g → p.y = y → p.z = z → byteAddr g p ≠ a) :
    lookupByte (writeRow g m y z r) a = lookupByte m a := by
  refine lookupByte_putAll_other _ m _ fun p hp => ?_
  obtain ⟨h1, h2, h3⟩ := mem_rowCoords.1 hp
  exact ha p h1 h2 h3

theorem getLsbD_readRow {g : Geometry} (m : Memory) (y z : Nat) {x : Nat} (hx : x < cubeN g) :
    (readRow g m y z).getLsbD x = getV g m ⟨x, y, z⟩ := by
  have key : ∀ (ps : List Coord) (acc : Byte), (∀ p ∈ ps, p.x < 8 ∧ p.y = y ∧ p.z = z) →
      (ps.foldl (fun acc p => if getV g m p then acc ||| bitMask p.x else acc) acc).getLsbD x =
        (acc.getLsbD x || (decide (⟨x, y, z⟩ ∈ ps) && getV g m ⟨x, y, z⟩)) := by
    intro ps
    induction ps with
    | nil => simp
    | cons p ps ih =>
      intro acc h
      obtain ⟨h8, rfl, rfl⟩ := h p (by simp)
      rw [List.foldl_cons, ih _ (fun p hp => h p (by simp [hp]))]
      by_cases hpx : p.x = x
      · subst hpx
        cases hv : getV g m p <;>
          simp_all [getLsbD_bitMask _ _ h8]
      · have hne : (⟨x, p.y, p.z⟩ : Coord) ≠ p := fun h => hpx (by rw [← h])
        cases hv : getV g m p <;>
          simp [BitVec.getLsbD_or, getLsbD_bitMask _ _ h8, hpx, hne]
  have hc := cubeN_le g
  rw [readRow, key _ _ (fun p hp => by
    obtain ⟨h1, h2, h3⟩ := mem_rowCoords.1 hp
    exact ⟨by omega, h2, h3⟩)]
  simp [mem_rowCoords, hx]

/-! Whole-buffer stores. -/

theorem lookupByte_foldl_memWrite (m : Memory) (v : Byte) (as : List Nat) (a : Nat) :
    lookupByte (as.foldl (fun acc a => memWrite acc a v) m) a =
      if a ∈ as then v else lookupByte m a := by
  induction as generalizing m with
  | nil => simp
  | cons b as ih =>
    rw [List.foldl_cons, ih]
    by_cases hin : a ∈ as
    · simp [hin]
    · by_cases hab : b = a
      · subst hab; simp [hin, lookupByte_memWrite_same]
      · simp [hin, Ne.symm hab, lookupByte_memWrite_other _ _ hab]

theorem totalBytes_pos (g : Geometry) : 0 < totalBytes g := by cases g <;> decide

theorem lookupByte_fillBytes (g : Geometry) (m : Memory) (v : Byte) (a : Nat) :
    lookupByte (fillBytes g m v) a = if a < totalBytes g then v else lookupByte m a := by
  have := totalBytes_pos g
  rw [fillBytes, lookupByte_foldl_memWrite]
  have h : a ∈ span 0 (totalBytes g - 1) ↔ a < totalBytes g := by rw [mem_span]; omega
  simp [h]

theorem memOk_fillBytes {g : Geometry} {m : Memory} (hm : memOk g m) (v : Byte) :
    memOk g (fillBytes g m v) := by
  have key : ∀ (as : List Nat) (m : Memory), memOk g m → (∀ a ∈ as, a < totalBytes g) →
      memOk g (as.foldl (fun acc a => memWrite acc a v) m) := by
    intro as
    induction as with
    | nil => exact fun m hm _ => hm
    | cons a as ih =>
      exact fun m hm h => ih _ (memOk_storeByte hm (h a (by simp)) v)
        (fun b hb => h b (by simp [hb]))
  have := totalBytes_pos g
  exact key _ m hm (fun a ha => by rw [mem_span] at ha; omega)

theorem getV_fillBytes {g : Geometry} (m : Memory) (v : Byte) {q : Coord}
    (hq : inRange g q = true) : getV g (fillBytes g m v) q = v.getLsbD (bitIx g q) := by
  simp [getV, lookupByte_fillBytes, byteAddr_lt hq]

theorem lookupByte_of_not_listed {m : Memory} {a : Nat} (h : ∀ c ∈ m, c.1 ≠ a) :
    lookupByte m a = unlistedByte := by
  induction m with
  | nil => rfl
  | cons c m ih =>
    have hc := h c (by simp)
    obtain ⟨b, u⟩ := c
    simp only [lookupByte]
    rw [if_neg hc, ih (fun d hd => h d (by simp [hd]))]

theorem clearBuffer_of_memOk {g : Geometry} {m : Memory} (hm : memOk g m) :
    clearBuffer g m = [] := by
  refine wf_ext (memOk_fillBytes hm 0).1 (memOk_nil g).1 fun a => ?_
  rw [clearBuffer, lookupByte_fillBytes]
  by_cases ha : a < totalBytes g
  · simp [ha, lookupByte, unlistedByte]
  · simp only [ha, if_false]
    rw [lookupByte_of_not_listed (fun c hc => by have := hm.2 c hc; omega)]
    rfl

/-- A clear buffer has every voxel off. -/
theorem getV_nil (g : Geometry) (q : Coord) : getV g [] q = false := by
  simp [getV, lookupByte, unlistedByte]

theorem getV_clearBuffer {g : Geometry} (m : Memory) {q : Coord} (hq : inRange g q = true) :
    getV g (clearBuffer g m) q = false := by
  rw [clearBuffer, getV_fillBytes m _ hq]; simp

/-- `MemRead` of an address in the buffer is the byte held there. -/
theorem memRead_of_lt {g : Geometry} {a : Nat} (ha : a < totalBytes g) (m : Memory) :
    memRead g m a = lookupByte m a := by simp [memRead, ha]

theorem memRead_of_ge {g : Geometry} {a : Nat} (ha : totalBytes g ≤ a) (m : Memory) :
    memRead g m a = 0x00 := by simp [memRead, Nat.not_lt.2 ha]

/-- A byte of the buffer is its eight voxels. -/
theorem lookupByte_eq_of_voxels {g : Geometry} {m n : Memory} {a : Nat} (ha : a < totalBytes g)
    (h : ∀ p, inRange g p = true → byteAddr g p = a → getV g m p = getV g n p) :
    lookupByte m a = lookupByte n a := by
  refine BitVec.eq_of_getLsbD_eq fun i hi => ?_
  obtain ⟨p, hp, rfl, rfl⟩ := place_surjective ha hi
  exact h p hp rfl

theorem memRead_eq_of_voxels {g : Geometry} {m n : Memory} {a : Nat}
    (h : ∀ p, inRange g p = true → byteAddr g p = a → getV g m p = getV g n p) :
    memRead g m a = memRead g n a := by
  by_cases ha : a < totalBytes g
  · rw [memRead_of_lt ha, memRead_of_lt ha, lookupByte_eq_of_voxels ha h]
  · rw [memRead_of_ge (Nat.not_lt.1 ha), memRead_of_ge (Nat.not_lt.1 ha)]

/-- Two buffers in canonical form with the same voxels are equal. -/
theorem memOk_ext {g : Geometry} {m n : Memory} (hm : memOk g m) (hn : memOk g n)
    (h : ∀ p, inRange g p = true → getV g m p = getV g n p) : m = n := by
  refine wf_ext hm.1 hn.1 fun a => ?_
  by_cases ha : a < totalBytes g
  · exact lookupByte_eq_of_voxels ha fun p hp _ => h p hp
  · rw [lookupByte_of_not_listed (fun c hc => by have := hm.2 c hc; omega),
      lookupByte_of_not_listed (fun c hc => by have := hn.2 c hc; omega)]

end Sys2Proof.Machine
end

