-- ==== Sys2Proof/Laws/Draw.lean ====
section
/-!
SUPPORT. What each drawing command does to the buffer, voxel by voxel, and that it keeps the
buffer's canonical form. One lemma of each kind per drawing function: later proofs cite them and do not
unfold the function.
-/

namespace Sys2Proof.Machine

open Sys2Proof

/-! Points (41_point.md). -/

theorem getV_drawSetv {g : Geometry} (m : Memory) (x y z : Nat) {q : Coord}
    (hq : inRange g q = true) :
    getV g (drawSetv g x y z m) q = if (⟨x, y, z⟩ : Coord) = q then true else getV g m q := by
  by_cases hp : inRange g ⟨x, y, z⟩ = true
  · simp [drawSetv, hp, getV_setV m hp hq]
  · have : (⟨x, y, z⟩ : Coord) ≠ q := fun h => hp (h ▸ hq)
    simp [drawSetv, hp, this]

theorem getV_drawClrv {g : Geometry} (m : Memory) (x y z : Nat) {q : Coord}
    (hq : inRange g q = true) :
    getV g (drawClrv g x y z m) q = if (⟨x, y, z⟩ : Coord) = q then false else getV g m q := by
  by_cases hp : inRange g ⟨x, y, z⟩ = true
  · simp [drawClrv, hp, getV_clrV m hp hq]
  · have : (⟨x, y, z⟩ : Coord) ≠ q := fun h => hp (h ▸ hq)
    simp [drawClrv, hp, this]

theorem getV_drawTglv {g : Geometry} (m : Memory) (x y z : Nat) {q : Coord}
    (hq : inRange g q = true) :
    getV g (drawTglv g x y z m) q =
      if (⟨x, y, z⟩ : Coord) = q then !getV g m q else getV g m q := by
  by_cases hp : inRange g ⟨x, y, z⟩ = true
  · rw [drawTglv, if_pos hp, getV_flipV m hp hq]
    by_cases h : (⟨x, y, z⟩ : Coord) = q <;> simp [h]
  · have : (⟨x, y, z⟩ : Coord) ≠ q := fun h => hp (h ▸ hq)
    simp [drawTglv, hp, this]

theorem getV_drawAltv {g : Geometry} (m : Memory) (x y z : Nat) (v : Byte) {q : Coord}
    (hq : inRange g q = true) :
    getV g (drawAltv g x y z v m) q =
      if (⟨x, y, z⟩ : Coord) = q then v != 0 else getV g m q := by
  by_cases hv : v = 0
  · simp [drawAltv, hv, getV_drawClrv m x y z hq]
  · rw [drawAltv, if_neg hv, getV_drawSetv m x y z hq, bne_iff_ne.2 hv]

theorem memOk_drawSetv {g : Geometry} {m : Memory} (hm : memOk g m) (x y z : Nat) :
    memOk g (drawSetv g x y z m) := by
  rw [drawSetv]; split
  · exact memOk_putV hm true ‹_›
  · exact hm

theorem memOk_drawClrv {g : Geometry} {m : Memory} (hm : memOk g m) (x y z : Nat) :
    memOk g (drawClrv g x y z m) := by
  rw [drawClrv]; split
  · exact memOk_putV hm false ‹_›
  · exact hm

theorem memOk_drawTglv {g : Geometry} {m : Memory} (hm : memOk g m) (x y z : Nat) :
    memOk g (drawTglv g x y z m) := by
  rw [drawTglv]; split
  · exact memOk_flipV hm ‹_›
  · exact hm

theorem memOk_drawAltv {g : Geometry} {m : Memory} (hm : memOk g m) (x y z : Nat) (v : Byte) :
    memOk g (drawAltv g x y z v m) := by
  rw [drawAltv]; split
  · exact memOk_drawClrv hm x y z
  · exact memOk_drawSetv hm x y z

/-! Fill and planes (42_fill_plane.md). -/

theorem getV_drawFill {g : Geometry} (m : Memory) (pattern : Byte) {q : Coord}
    (hq : inRange g q = true) :
    getV g (drawFill g pattern m) q = pattern.getLsbD (bitIx g q) := getV_fillBytes m pattern hq

theorem memOk_drawFill {g : Geometry} {m : Memory} (hm : memOk g m) (pattern : Byte) :
    memOk g (drawFill g pattern m) := memOk_fillBytes hm pattern

theorem mem_planeX {g : Geometry} {c : Nat} {p : Coord} :
    p ∈ planeX g c ↔ p.x = c ∧ p.y < cubeN g ∧ p.z < cubeN g := by
  have := cubeN_pos g
  rw [planeX, mem_boxCoords]; omega

theorem mem_planeY {g : Geometry} {c : Nat} {p : Coord} :
    p ∈ planeY g c ↔ p.y = c ∧ p.x < cubeN g ∧ p.z < cubeN g := by
  have := cubeN_pos g
  rw [planeY, mem_boxCoords]; omega

theorem mem_planeZ {g : Geometry} {c : Nat} {p : Coord} :
    p ∈ planeZ g c ↔ p.z = c ∧ p.x < cubeN g ∧ p.y < cubeN g := by
  have := cubeN_pos g
  rw [planeZ, mem_boxCoords]; omega

theorem planeX_inRange {g : Geometry} {c : Nat} (hc : c < cubeN g) :
    ∀ p ∈ planeX g c, inRange g p = true := fun p hp => by
  have := mem_planeX.1 hp
  exact inRange_iff.2 (by omega)

theorem planeY_inRange {g : Geometry} {c : Nat} (hc : c < cubeN g) :
    ∀ p ∈ planeY g c, inRange g p = true := fun p hp => by
  have := mem_planeY.1 hp
  exact inRange_iff.2 (by omega)

theorem planeZ_inRange {g : Geometry} {c : Nat} (hc : c < cubeN g) :
    ∀ p ∈ planeZ g c, inRange g p = true := fun p hp => by
  have := mem_planeZ.1 hp
  exact inRange_iff.2 (by omega)

/-- A plane command whose plane is the in-range voxels with coordinate `sel` equal to c. -/
theorem getV_plane {g : Geometry} (m : Memory) (c : Nat) (b : Bool) (ps : List Coord)
    (sel : Coord → Nat) (hin : c < cubeN g → ∀ p ∈ ps, inRange g p = true)
    (hmem : ∀ p, inRange g p = true → (p ∈ ps ↔ sel p = c)) (hsel : ∀ p, inRange g p = true →
      sel p < cubeN g) {q : Coord} (hq : inRange g q = true) :
    getV g (if planeInRange g c then putAll g (fun _ => b) m ps else m) q =
      if sel q = c then b else getV g m q := by
  by_cases hc : c < cubeN g
  · simp only [planeInRange, hc, decide_true, if_true]
    rw [getV_putAll _ m ps (hin hc) hq]
    simp [hmem q hq]
  · have : sel q ≠ c := by have := hsel q hq; omega
    simp [planeInRange, hc, this]

theorem getV_drawSetpx {g : Geometry} (m : Memory) (c : Nat) {q : Coord}
    (hq : inRange g q = true) :
    getV g (drawSetpx g c m) q = if q.x = c then true else getV g m q :=
  getV_plane m c true (planeX g c) Coord.x planeX_inRange
    (fun p hp => by have := inRange_iff.1 hp; rw [mem_planeX]; omega)
    (fun _ hp => (inRange_iff.1 hp).1) hq

theorem getV_drawSetpy {g : Geometry} (m : Memory) (c : Nat) {q : Coord}
    (hq : inRange g q = true) :
    getV g (drawSetpy g c m) q = if q.y = c then true else getV g m q :=
  getV_plane m c true (planeY g c) Coord.y planeY_inRange
    (fun p hp => by have := inRange_iff.1 hp; rw [mem_planeY]; omega)
    (fun _ hp => (inRange_iff.1 hp).2.1) hq

theorem getV_drawSetpz {g : Geometry} (m : Memory) (c : Nat) {q : Coord}
    (hq : inRange g q = true) :
    getV g (drawSetpz g c m) q = if q.z = c then true else getV g m q :=
  getV_plane m c true (planeZ g c) Coord.z planeZ_inRange
    (fun p hp => by have := inRange_iff.1 hp; rw [mem_planeZ]; omega)
    (fun _ hp => (inRange_iff.1 hp).2.2) hq

theorem getV_drawClrpx {g : Geometry} (m : Memory) (c : Nat) {q : Coord}
    (hq : inRange g q = true) :
    getV g (drawClrpx g c m) q = if q.x = c then false else getV g m q :=
  getV_plane m c false (planeX g c) Coord.x planeX_inRange
    (fun p hp => by have := inRange_iff.1 hp; rw [mem_planeX]; omega)
    (fun _ hp => (inRange_iff.1 hp).1) hq

theorem getV_drawClrpy {g : Geometry} (m : Memory) (c : Nat) {q : Coord}
    (hq : inRange g q = true) :
    getV g (drawClrpy g c m) q = if q.y = c then false else getV g m q :=
  getV_plane m c false (planeY g c) Coord.y planeY_inRange
    (fun p hp => by have := inRange_iff.1 hp; rw [mem_planeY]; omega)
    (fun _ hp => (inRange_iff.1 hp).2.1) hq

theorem getV_drawClrpz {g : Geometry} (m : Memory) (c : Nat) {q : Coord}
    (hq : inRange g q = true) :
    getV g (drawClrpz g c m) q = if q.z = c then false else getV g m q :=
  getV_plane m c false (planeZ g c) Coord.z planeZ_inRange
    (fun p hp => by have := inRange_iff.1 hp; rw [mem_planeZ]; omega)
    (fun _ hp => (inRange_iff.1 hp).2.2) hq

theorem memOk_plane {g : Geometry} {m : Memory} (hm : memOk g m) (c : Nat) (b : Bool)
    (ps : List Coord) (hin : c < cubeN g → ∀ p ∈ ps, inRange g p = true) :
    memOk g (if planeInRange g c then putAll g (fun _ => b) m ps else m) := by
  by_cases hc : c < cubeN g
  · simp only [planeInRange, hc, decide_true, if_true]
    exact memOk_putAll _ hm ps (hin hc)
  · simpa [planeInRange, hc] using hm

theorem memOk_drawSetpx {g : Geometry} {m : Memory} (hm : memOk g m) (c : Nat) :
    memOk g (drawSetpx g c m) := memOk_plane hm c true _ planeX_inRange

theorem memOk_drawSetpy {g : Geometry} {m : Memory} (hm : memOk g m) (c : Nat) :
    memOk g (drawSetpy g c m) := memOk_plane hm c true _ planeY_inRange

theorem memOk_drawSetpz {g : Geometry} {m : Memory} (hm : memOk g m) (c : Nat) :
    memOk g (drawSetpz g c m) := memOk_plane hm c true _ planeZ_inRange

theorem memOk_drawClrpx {g : Geometry} {m : Memory} (hm : memOk g m) (c : Nat) :
    memOk g (drawClrpx g c m) := memOk_plane hm c false _ planeX_inRange

theorem memOk_drawClrpy {g : Geometry} {m : Memory} (hm : memOk g m) (c : Nat) :
    memOk g (drawClrpy g c m) := memOk_plane hm c false _ planeY_inRange

theorem memOk_drawClrpz {g : Geometry} {m : Memory} (hm : memOk g m) (c : Nat) :
    memOk g (drawClrpz g c m) := memOk_plane hm c false _ planeZ_inRange

/-! The bit-range mask (40_addressing.md R82). -/

theorem getLsbD_byteline {s e : Nat} (he : e ≤ 7) {k : Nat} (hk : k < 8) :
    (byteline s e).getLsbD k = (decide (s ≤ k) && decide (k ≤ e)) := by
  have h1 : ∀ n, n < 8 → (0xFF#8).getLsbD n = true := by decide
  rw [byteline, BitVec.getLsbD_and, BitVec.getLsbD_shiftLeft, BitVec.getLsbD_ushiftRight]
  by_cases hs : k < s
  · have : ¬ s ≤ k := by omega
    simp [hs, this]
  · have hsk : s ≤ k := by omega
    rw [h1 (k - s) (by omega)]
    by_cases hke : k ≤ e
    · rw [h1 (7 - e + k) (by omega)]; simp [hs, hk, hsk, hke]
    · rw [BitVec.getLsbD_of_ge _ _ (by omega : 8 ≤ 7 - e + k)]; simp [hke]

/-! BOX (43_box_line.md). -/

/-- A box after its prologue: both corners in range and in order. -/
structure BoxOk (g : Geometry) (b : TwoPoints) : Prop where
  p_in : inRange g b.p = true
  q_in : inRange g b.q = true
  hx : b.p.x ≤ b.q.x
  hy : b.p.y ≤ b.q.y
  hz : b.p.z ≤ b.q.z

theorem boxPrologue_ok {g : Geometry} {p q : Coord} {b : TwoPoints}
    (h : boxPrologue g p q = some b) : BoxOk g b := by
  unfold boxPrologue at h
  split at h
  · rename_i hr
    rw [Bool.and_eq_true] at hr
    have h1 := inRange_iff.1 hr.1
    have h2 := inRange_iff.1 hr.2
    cases h
    exact ⟨inRange_iff.2 (by simp only; omega), inRange_iff.2 (by simp only; omega),
      by simp only; omega, by simp only; omega, by simp only; omega⟩
  · cases h

/-- The voxel lies in the box. -/
def inBox (b : TwoPoints) (v : Coord) : Bool :=
  (decide (b.p.x ≤ v.x) && decide (v.x ≤ b.q.x)) && (decide (b.p.y ≤ v.y) && decide (v.y ≤ b.q.y)) &&
    (decide (b.p.z ≤ v.z) && decide (v.z ≤ b.q.z))

theorem mem_boxCoords_iff_inBox {b : TwoPoints} {v : Coord} :
    v ∈ boxCoords b.p.x b.p.y b.p.z b.q.x b.q.y b.q.z ↔ inBox b v = true := by
  rw [mem_boxCoords]; simp only [inBox, Bool.and_eq_true, decide_eq_true_eq]; tauto

theorem inBox_inRange {g : Geometry} {b : TwoPoints} (hb : BoxOk g b) {v : Coord}
    (hv : inBox b v = true) : inRange g v = true := by
  have h1 := inRange_iff.1 hb.q_in
  simp only [inBox, Bool.and_eq_true, decide_eq_true_eq] at hv
  exact inRange_iff.2 (by omega)

theorem getV_drawFilled {g : Geometry} {b : TwoPoints} (hb : BoxOk g b) (m : Memory) {v : Coord}
    (hv : inRange g v = true) :
    getV g (drawFilled g b m) v = if inBox b v then true else getV g m v := by
  rw [drawFilled, setAll_eq_putAll, getV_putAll _ m _ (fun p hp =>
    inBox_inRange hb (mem_boxCoords_iff_inBox.1 hp)) hv]
  simp [mem_boxCoords_iff_inBox]

theorem memOk_drawFilled {g : Geometry} {b : TwoPoints} (hb : BoxOk g b) {m : Memory}
    (hm : memOk g m) : memOk g (drawFilled g b m) :=
  memOk_setAll hm _ (fun _ hp => inBox_inRange hb (mem_boxCoords_iff_inBox.1 hp))

/-- How many of the voxel's coordinates are at a bound of their axis (R143). -/
def boundsMet (b : TwoPoints) (v : Coord) : Nat :=
  (v.x == b.p.x || v.x == b.q.x).toNat + (v.y == b.p.y || v.y == b.q.y).toNat +
    (v.z == b.p.z || v.z == b.q.z).toNat

theorem mem_frameCoords {b : TwoPoints} {v : Coord} :
    v ∈ frameCoords b ↔ inBox b v = true ∧ 2 ≤ boundsMet b v := by
  simp [frameCoords, List.mem_filter, mem_boxCoords_iff_inBox, boundsMet]

theorem getV_drawFrame {g : Geometry} {b : TwoPoints} (hb : BoxOk g b) (m : Memory) {v : Coord}
    (hv : inRange g v = true) :
    getV g (drawFrame g b m) v =
      if inBox b v = true ∧ 2 ≤ boundsMet b v then true else getV g m v := by
  rw [drawFrame, setAll_eq_putAll, getV_putAll _ m _ (fun p hp =>
    inBox_inRange hb (mem_frameCoords.1 hp).1) hv]
  simp [mem_frameCoords]

theorem memOk_drawFrame {g : Geometry} {b : TwoPoints} (hb : BoxOk g b) {m : Memory}
    (hm : memOk g m) : memOk g (drawFrame g b m) :=
  memOk_setAll hm _ (fun _ hp => inBox_inRange hb (mem_frameCoords.1 hp).1)

/-- What WALLS makes of a voxel of the row (y, z) inside the box's y and z spans, whose old
value is `old` (R142). -/
def wallsRowVoxel (b : TwoPoints) (v : Coord) (old : Bool) : Bool :=
  if v.z = b.p.z ∨ v.z = b.q.z ∨ v.y = b.p.y ∨ v.y = b.q.y then
    decide (b.p.x ≤ v.x) && decide (v.x ≤ b.q.x)
  else if v.x = b.p.x ∨ v.x = b.q.x then true else old

theorem wallsRowVoxel_idem (b : TwoPoints) (v : Coord) (old : Bool) :
    wallsRowVoxel b v (wallsRowVoxel b v old) = wallsRowVoxel b v old := by
  unfold wallsRowVoxel
  by_cases h1 : v.z = b.p.z ∨ v.z = b.q.z ∨ v.y = b.p.y ∨ v.y = b.q.y
  · simp [h1]
  · by_cases h2 : v.x = b.p.x ∨ v.x = b.q.x <;> simp [h1, h2]

theorem getV_drawWallsRow {g : Geometry} {b : TwoPoints} (hb : BoxOk g b) (m : Memory)
    {y z : Nat} (hy : y < cubeN g) (hz : z < cubeN g) {v : Coord} (hv : inRange g v = true) :
    getV g (drawWallsRow g b z m y) v =
      if v.y = y ∧ v.z = z then wallsRowVoxel b v (getV g m v) else getV g m v := by
  have hp := inRange_iff.1 hb.p_in
  have hq := inRange_iff.1 hb.q_in
  have hvr := inRange_iff.1 hv
  have h8 := cubeN_le g
  unfold drawWallsRow
  split
  · rename_i hface
    rw [getV_writeRow m _ hy hz hv]
    by_cases hrow : v.y = y ∧ v.z = z
    · obtain ⟨rfl, rfl⟩ := hrow
      rw [getLsbD_byteline (by omega) (by omega)]
      simp [wallsRowVoxel, hface]
    · simp [hrow]
  · rename_i hface
    have i1 : inRange g ⟨b.p.x, y, z⟩ = true := inRange_iff.2 ⟨hp.1, hy, hz⟩
    have i2 : inRange g ⟨b.q.x, y, z⟩ = true := inRange_iff.2 ⟨hq.1, hy, hz⟩
    rw [getV_setV _ i2 hv, getV_setV _ i1 hv]
    obtain ⟨vx, vy, vz⟩ := v
    by_cases hrow : vy = y ∧ vz = z
    · obtain ⟨rfl, rfl⟩ := hrow
      simp only [Coord.mk.injEq, and_true, and_self, if_true, wallsRowVoxel, hface,
        if_false]
      by_cases h1 : vx = b.p.x
      · simp [h1]
      · by_cases h2 : vx = b.q.x
        · simp [h2]
        · simp [h1, h2, Ne.symm h1, Ne.symm h2]
    · have n1 : ¬ (y = vy ∧ z = vz) := fun h => hrow ⟨h.1.symm, h.2.symm⟩
      simp [hrow, n1]

theorem getV_foldl_drawWallsRow {g : Geometry} {b : TwoPoints} (hb : BoxOk g b) {z : Nat}
    (hz : z < cubeN g) {v : Coord} (hv : inRange g v = true) (ys : List Nat)
    (hys : ∀ y ∈ ys, y < cubeN g) (m : Memory) :
    getV g (ys.foldl (drawWallsRow g b z) m) v =
      if v.y ∈ ys ∧ v.z = z then wallsRowVoxel b v (getV g m v) else getV g m v := by
  induction ys generalizing m with
  | nil => simp
  | cons y ys ih =>
    rw [List.foldl_cons, ih (fun y hy => hys y (by simp [hy])),
      getV_drawWallsRow hb m (hys y (by simp)) hz hv]
    by_cases hvz : v.z = z
    · by_cases hvy : v.y = y
      · by_cases hin : y ∈ ys <;> simp [hvz, hvy, hin, wallsRowVoxel_idem]
      · simp [hvz, hvy]
    · simp [hvz]

theorem getV_drawWalls {g : Geometry} {b : TwoPoints} (hb : BoxOk g b) (m : Memory) {v : Coord}
    (hv : inRange g v = true) :
    getV g (drawWalls g b m) v =
      if (b.p.y ≤ v.y ∧ v.y ≤ b.q.y) ∧ (b.p.z ≤ v.z ∧ v.z ≤ b.q.z) then
        wallsRowVoxel b v (getV g m v)
      else getV g m v := by
  have hq := inRange_iff.1 hb.q_in
  have hys : ∀ y ∈ span b.p.y b.q.y, y < cubeN g := fun y hy => by
    rw [mem_span] at hy; omega
  have key : ∀ (zs : List Nat) (m : Memory), (∀ z ∈ zs, z < cubeN g) →
      getV g (zs.foldl (fun acc z => (span b.p.y b.q.y).foldl (drawWallsRow g b z) acc) m) v =
        if v.y ∈ span b.p.y b.q.y ∧ v.z ∈ zs then wallsRowVoxel b v (getV g m v)
        else getV g m v := by
    intro zs
    induction zs with
    | nil => simp
    | cons z zs ih =>
      intro m hzs
      rw [List.foldl_cons, ih _ (fun z hz => hzs z (by simp [hz])),
        getV_foldl_drawWallsRow hb (hzs z (by simp)) hv _ hys]
      by_cases hvy : v.y ∈ span b.p.y b.q.y
      · by_cases hvz : v.z = z
        · by_cases hin : z ∈ zs <;> simp [hvy, hvz, hin, wallsRowVoxel_idem]
        · simp [hvy, hvz]
      · simp [hvy]
  rw [drawWalls, key _ m (fun z hz => by rw [mem_span] at hz; omega)]
  simp [mem_span]

theorem memOk_drawWalls {g : Geometry} {b : TwoPoints} (hb : BoxOk g b) {m : Memory}
    (hm : memOk g m) : memOk g (drawWalls g b m) := by
  have hp := inRange_iff.1 hb.p_in
  have hq := inRange_iff.1 hb.q_in
  have row : ∀ (m : Memory) (y z : Nat), y < cubeN g → z < cubeN g → memOk g m →
      memOk g (drawWallsRow g b z m y) := by
    intro m y z hy hz hm
    unfold drawWallsRow
    split
    · exact memOk_writeRow hm _ hy hz
    · have i1 : inRange g ⟨b.p.x, y, z⟩ = true := inRange_iff.2 ⟨hp.1, hy, hz⟩
      have i2 : inRange g ⟨b.q.x, y, z⟩ = true := inRange_iff.2 ⟨hq.1, hy, hz⟩
      exact memOk_setV (memOk_setV hm i1) i2
  unfold drawWalls
  refine List.foldlRecOn (motive := fun m => memOk g m) _ _ hm fun m hm z hz => ?_
  refine List.foldlRecOn (motive := fun m => memOk g m) _ _ hm fun m hm y hy => ?_
  rw [mem_span] at hy hz
  exact row m y z (by omega) (by omega) hm

theorem memOk_drawBox {g : Geometry} {m : Memory} (hm : memOk g m) (style : BoxStyle)
    (p q : Coord) : memOk g (drawBox g style p q m) := by
  unfold drawBox
  split
  · rename_i b h
    have hb := boxPrologue_ok h
    cases style
    · exact memOk_drawFilled hb hm
    · exact memOk_drawWalls hb hm
    · exact memOk_drawFrame hb hm
    · exact hm
  · exact hm

/-! LINE (43_box_line.md). -/

/-- The offset of a line never leaves its span (R154). -/
theorem roundHalfUp_le {d k dx : Nat} (hdx : 0 < dx) (hk : k ≤ dx) :
    roundHalfUp (d * k) dx ≤ d := by
  have h1 : d * k ≤ d * dx := Nat.mul_le_mul_left d hk
  rw [roundHalfUp, ← Nat.lt_succ_iff, Nat.div_lt_iff_lt_mul (by omega), Nat.succ_mul]
  nlinarith

theorem lineAt_up {a b : Nat} (h : a ≤ b) (k dx : Nat) :
    lineAt a b k dx = a + (if a = b then 0 else roundHalfUp ((b - a) * k) dx) := by
  rcases Nat.eq_or_lt_of_le h with rfl | hlt
  · simp [lineAt, lineOffset]
  · have hs : Int.sign ((b : Int) - a) = 1 := Int.sign_eq_one_of_pos (by omega)
    have hn : ((b : Int) - a).natAbs = b - a := by omega
    rw [lineAt, lineOffset, hs, hn, if_neg (by omega)]
    omega

theorem lineAt_down {a b : Nat} (h : b < a) (k dx : Nat) :
    lineAt a b k dx = a - roundHalfUp ((a - b) * k) dx := by
  have hs : Int.sign ((b : Int) - a) = -1 := Int.sign_eq_neg_one_of_neg (by omega)
  have hn : ((b : Int) - a).natAbs = a - b := by omega
  rw [lineAt, lineOffset, hs, hn]
  omega

/-- A line's coordinate stays between its two end values. -/
theorem lineAt_between {a b k dx : Nat} (hdx : 0 < dx) (hk : k ≤ dx) :
    min a b ≤ lineAt a b k dx ∧ lineAt a b k dx ≤ max a b := by
  by_cases h : a ≤ b
  · have := roundHalfUp_le (d := b - a) hdx hk
    rw [lineAt_up h]
    split <;> omega
  · have := roundHalfUp_le (d := a - b) hdx hk
    rw [lineAt_down (by omega)]
    omega

/-- A line after its prologue: both endpoints in range, x in order. -/
structure LineOk (g : Geometry) (l : TwoPoints) : Prop where
  p_in : inRange g l.p = true
  q_in : inRange g l.q = true
  hx : l.p.x ≤ l.q.x

theorem linePrologue_ok {g : Geometry} {p q : Coord} {l : TwoPoints}
    (h : linePrologue g p q = some l) : LineOk g l := by
  unfold linePrologue at h
  split at h
  · rename_i hr
    rw [Bool.and_eq_true] at hr
    split at h
    · cases h; exact ⟨hr.2, hr.1, by simp only; omega⟩
    · cases h; exact ⟨hr.1, hr.2, by simp only; omega⟩
  · cases h

theorem mem_lineCoords {l : TwoPoints} {v : Coord} :
    v ∈ lineCoords l ↔
      (l.q.x - l.p.x = 0 ∧ v = l.p) ∨
      (0 < l.q.x - l.p.x ∧ ∃ k, k ≤ l.q.x - l.p.x ∧
        v = ⟨l.p.x + k, lineAt l.p.y l.q.y k (l.q.x - l.p.x),
          lineAt l.p.z l.q.z k (l.q.x - l.p.x)⟩) := by
  unfold lineCoords
  by_cases h : l.q.x - l.p.x = 0
  · simp [h]
  · simp only [h, if_false, List.mem_map, mem_span, false_and, false_or]
    constructor
    · rintro ⟨k, hk, rfl⟩; exact ⟨by omega, k, hk.2, rfl⟩
    · rintro ⟨_, k, hk, rfl⟩; exact ⟨k, ⟨by omega, hk⟩, rfl⟩

theorem lineCoords_inRange {g : Geometry} {l : TwoPoints} (hl : LineOk g l) :
    ∀ v ∈ lineCoords l, inRange g v = true := by
  intro v hv
  have hp := inRange_iff.1 hl.p_in
  have hq := inRange_iff.1 hl.q_in
  rcases mem_lineCoords.1 hv with ⟨_, rfl⟩ | ⟨hdx, k, hk, rfl⟩
  · exact hl.p_in
  · have h1 := lineAt_between (a := l.p.y) (b := l.q.y) hdx hk
    have h2 := lineAt_between (a := l.p.z) (b := l.q.z) hdx hk
    exact inRange_iff.2 (by simp only; omega)

theorem getV_drawLine {g : Geometry} (p q : Coord) (m : Memory) {v : Coord}
    (hv : inRange g v = true) :
    getV g (drawLine g p q m) v =
      match linePrologue g p q with
      | some l => if v ∈ lineCoords l then true else getV g m v
      | none => getV g m v := by
  unfold drawLine
  cases h : linePrologue g p q with
  | some l =>
    simp only
    rw [setAll_eq_putAll, getV_putAll _ m _ (lineCoords_inRange (linePrologue_ok h)) hv]
  | none => rfl

theorem memOk_drawLine {g : Geometry} {m : Memory} (hm : memOk g m) (p q : Coord) :
    memOk g (drawLine g p q m) := by
  unfold drawLine
  split
  · rename_i l h
    exact memOk_setAll hm _ (lineCoords_inRange (linePrologue_ok h))
  · exact hm

/-! SHIFT (44_shift.md). -/

theorem getV_drawShift {g : Geometry} {axis : Axis} (ha : axis ≠ .noAxis) (dir : Dir)
    (m : Memory) {v : Coord} (hv : inRange g v = true) :
    getV g (drawShift g axis dir m) v = shiftedVoxel g axis dir m v := by
  have h : drawShift g axis dir m = putAll g (shiftedVoxel g axis dir m) m (allCoords g) := by
    cases axis
    · rfl
    · rfl
    · rfl
    · exact absurd rfl ha
  rw [h, getV_putAll _ m _ (fun p hp => mem_allCoords.1 hp) hv, if_pos (mem_allCoords.2 hv)]

theorem memOk_drawShift {g : Geometry} {m : Memory} (hm : memOk g m) (axis : Axis) (dir : Dir) :
    memOk g (drawShift g axis dir m) := by
  cases axis
  case noAxis => exact hm
  all_goals exact memOk_putAll _ hm _ (fun p hp => mem_allCoords.1 hp)

end Sys2Proof.Machine
end

