-- ==== Sys2Proof/Laws/PerInstr.lean ====
section
/-!
SUPPORT. The per-instruction family `RoundTrip`: the encoding of a well-formed command decodes
to it (30_encoding.md R60 to R65).
-/

namespace Sys2Proof.Laws

open Sys2Proof

/-- The word of a well-formed command decodes to that command. -/
def RoundTrip.Statement (i : Instr) : Prop :=
  i.wellFormed = true → decode (encode i) = .command i

theorem RoundTrip.nop : RoundTrip.Statement .nop := fun _ => rfl

theorem RoundTrip.finish : RoundTrip.Statement .finish := fun _ => rfl

theorem RoundTrip.getcur : RoundTrip.Statement .getcur := fun _ => rfl

theorem RoundTrip.getprev : RoundTrip.Statement .getprev := fun _ => rfl

theorem RoundTrip.isfin : RoundTrip.Statement .isfin := fun _ => rfl

theorem RoundTrip.getbright : RoundTrip.Statement .getbright := fun _ => rfl

theorem RoundTrip.process (sf : Bool) : RoundTrip.Statement (.process sf) := fun _ => by
  cases sf <;> rfl

theorem RoundTrip.shift (axis : Axis) (dir : Dir) : RoundTrip.Statement (.shift axis dir) :=
  fun _ => by cases axis <;> cases dir <;> rfl

theorem RoundTrip.setv (x y z : Nat) : RoundTrip.Statement (.setv x y z) := fun h => by
  obtain ⟨h1, h2, h3, h4, -⟩ := decode_encodePoint (op := 0x01) (low := 0) (by omega) (by omega) h
  have hw : decode (encodePoint 0x01 x y z 0) =
      .command (.setv (fieldA _) (fieldB _) (fieldC _)) := decode_of_op h1
  rw [h2, h3, h4] at hw
  exact hw

theorem RoundTrip.clrv (x y z : Nat) : RoundTrip.Statement (.clrv x y z) := fun h => by
  obtain ⟨h1, h2, h3, h4, -⟩ := decode_encodePoint (op := 0x02) (low := 0) (by omega) (by omega) h
  have hw : decode (encodePoint 0x02 x y z 0) =
      .command (.clrv (fieldA _) (fieldB _) (fieldC _)) := decode_of_op h1
  rw [h2, h3, h4] at hw
  exact hw

theorem RoundTrip.tglv (x y z : Nat) : RoundTrip.Statement (.tglv x y z) := fun h => by
  obtain ⟨h1, h2, h3, h4, -⟩ := decode_encodePoint (op := 0x03) (low := 0) (by omega) (by omega) h
  have hw : decode (encodePoint 0x03 x y z 0) =
      .command (.tglv (fieldA _) (fieldB _) (fieldC _)) := decode_of_op h1
  rw [h2, h3, h4] at hw
  exact hw

theorem RoundTrip.getv (x y z : Nat) : RoundTrip.Statement (.getv x y z) := fun h => by
  obtain ⟨h1, h2, h3, h4, -⟩ := decode_encodePoint (op := 0x05) (low := 0) (by omega) (by omega) h
  have hw : decode (encodePoint 0x05 x y z 0) =
      .command (.getv (fieldA _) (fieldB _) (fieldC _)) := decode_of_op h1
  rw [h2, h3, h4] at hw
  exact hw

theorem RoundTrip.inrange (x y z : Nat) : RoundTrip.Statement (.inrange x y z) := fun h => by
  obtain ⟨h1, h2, h3, h4, -⟩ := decode_encodePoint (op := 0x18) (low := 0) (by omega) (by omega) h
  have hw : decode (encodePoint 0x18 x y z 0) =
      .command (.inrange (fieldA _) (fieldB _) (fieldC _)) := decode_of_op h1
  rw [h2, h3, h4] at hw
  exact hw

theorem RoundTrip.altv (x y z : Nat) (state : Byte) : RoundTrip.Statement (.altv x y z state) :=
  fun h => by
    obtain ⟨h1, h2, h3, h4, h5⟩ := decode_encodePoint (op := 0x04) (by omega) state.isLt h
    have hw : decode (encodePoint 0x04 x y z state.toNat) =
        .command (.altv (fieldA _) (fieldB _) (fieldC _) (fieldIMM8 _)) := decode_of_op h1
    rw [h2, h3, h4, h5, BitVec.ofNat_toNat, BitVec.setWidth_eq] at hw
    exact hw

theorem RoundTrip.fill (pattern : Byte) : RoundTrip.Statement (.fill pattern) := fun _ => by
  obtain ⟨h1, h2⟩ := decode_encodeLow (op := 0x06) (by omega) pattern.isLt
  have hw : decode (encodeLow 0x06 pattern.toNat) = .command (.fill (fieldIMM8 _)) := decode_of_op h1
  rw [h2, BitVec.ofNat_toNat, BitVec.setWidth_eq] at hw
  exact hw

theorem RoundTrip.rdb (addr : Byte) : RoundTrip.Statement (.rdb addr) := fun _ => by
  obtain ⟨h1, h2⟩ := decode_encodeLow (op := 0x1A) (by omega) addr.isLt
  have hw : decode (encodeLow 0x1A addr.toNat) = .command (.rdb (fieldIMM8 _)) := decode_of_op h1
  rw [h2, BitVec.ofNat_toNat, BitVec.setWidth_eq] at hw
  exact hw

theorem RoundTrip.start (index : Byte) : RoundTrip.Statement (.start index) := fun _ => by
  obtain ⟨h1, h2⟩ := decode_encodeLow (op := 0x20) (by omega) index.isLt
  have hw : decode (encodeLow 0x20 index.toNat) = .command (.start (fieldIMM8 _)) := decode_of_op h1
  rw [h2, BitVec.ofNat_toNat, BitVec.setWidth_eq] at hw
  exact hw

theorem RoundTrip.setpx (c : Nat) : RoundTrip.Statement (.setpx c) := fun h => by
  obtain ⟨h1, h2⟩ := decode_encodePlane (op := 0x08) (by omega) h
  have hw : decode (encodePlane 0x08 c) = .command (.setpx (fieldA _)) := decode_of_op h1
  rw [h2] at hw
  exact hw

theorem RoundTrip.setpy (c : Nat) : RoundTrip.Statement (.setpy c) := fun h => by
  obtain ⟨h1, h2⟩ := decode_encodePlane (op := 0x09) (by omega) h
  have hw : decode (encodePlane 0x09 c) = .command (.setpy (fieldA _)) := decode_of_op h1
  rw [h2] at hw
  exact hw

theorem RoundTrip.setpz (c : Nat) : RoundTrip.Statement (.setpz c) := fun h => by
  obtain ⟨h1, h2⟩ := decode_encodePlane (op := 0x0A) (by omega) h
  have hw : decode (encodePlane 0x0A c) = .command (.setpz (fieldA _)) := decode_of_op h1
  rw [h2] at hw
  exact hw

theorem RoundTrip.clrpx (c : Nat) : RoundTrip.Statement (.clrpx c) := fun h => by
  obtain ⟨h1, h2⟩ := decode_encodePlane (op := 0x0C) (by omega) h
  have hw : decode (encodePlane 0x0C c) = .command (.clrpx (fieldA _)) := decode_of_op h1
  rw [h2] at hw
  exact hw

theorem RoundTrip.clrpy (c : Nat) : RoundTrip.Statement (.clrpy c) := fun h => by
  obtain ⟨h1, h2⟩ := decode_encodePlane (op := 0x0D) (by omega) h
  have hw : decode (encodePlane 0x0D c) = .command (.clrpy (fieldA _)) := decode_of_op h1
  rw [h2] at hw
  exact hw

theorem RoundTrip.clrpz (c : Nat) : RoundTrip.Statement (.clrpz c) := fun h => by
  obtain ⟨h1, h2⟩ := decode_encodePlane (op := 0x0E) (by omega) h
  have hw : decode (encodePlane 0x0E c) = .command (.clrpz (fieldA _)) := decode_of_op h1
  rw [h2] at hw
  exact hw

theorem RoundTrip.box (style : BoxStyle) (x1 y1 z1 x2 y2 z2 : Nat) :
    RoundTrip.Statement (.box style x1 y1 z1 x2 y2 z2) := fun h => by
  rw [Instr.wellFormed, Bool.and_eq_true] at h
  have ht : boxStyleCode style < 4 := by cases style <;> decide
  obtain ⟨h1, h2, h3, h4, h5, h6, h7, h8⟩ :=
    decode_encodeTwoPoints (op := 0x10) (by omega) ht h.1 h.2
  have hw : decode (encodeTwoPoints 0x10 (boxStyleCode style) x1 y1 z1 x2 y2 z2) =
      .command (.box (boxStyleOf (fieldT _)) (fieldA _) (fieldB _) (fieldC _) (fieldD _)
        (fieldE _) (fieldF _)) := decode_of_op h1
  rw [h2, h3, h4, h5, h6, h7, h8, boxStyleOf_code] at hw
  exact hw

theorem RoundTrip.line (x1 y1 z1 x2 y2 z2 : Nat) :
    RoundTrip.Statement (.line x1 y1 z1 x2 y2 z2) := fun h => by
  rw [Instr.wellFormed, Bool.and_eq_true] at h
  obtain ⟨h1, -, h3, h4, h5, h6, h7, h8⟩ :=
    decode_encodeTwoPoints (op := 0x11) (t := 0) (by omega) (by omega) h.1 h.2
  have hw : decode (encodeTwoPoints 0x11 0 x1 y1 z1 x2 y2 z2) =
      .command (.line (fieldA _) (fieldB _) (fieldC _) (fieldD _) (fieldE _) (fieldF _)) :=
    decode_of_op h1
  rw [h3, h4, h5, h6, h7, h8] at hw
  exact hw

theorem RoundTrip.byteline (lo hi : Nat) : RoundTrip.Statement (.byteline lo hi) := fun h => by
  rw [Instr.wellFormed, Bool.and_eq_true, bitPosFits, bitPosFits, decide_eq_true_eq,
    decide_eq_true_eq] at h
  have h0 : (0 : Nat) * 16 + 0 < 256 := by omega
  have h1 := fieldOP_encodeFields (op := 0x19) (t := 0) (a := lo) (b := hi) (c := 0) (d := 0)
    (by omega) (by omega) (by omega) (by omega) (by omega) (by omega) h0
  have h2 := fieldS3_encodeFields (op := 0x19) (t := 0) (a := lo) (b := hi) (c := 0) (d := 0)
    (by omega) (by omega) (by omega) (by omega) (by omega) (by omega) h0
  have h3 := fieldE3_encodeFields (op := 0x19) (t := 0) (a := lo) (b := hi) (c := 0) (d := 0)
    (by omega) (by omega) (by omega) (by omega) (by omega) (by omega) h0
  have hw : decode (encodeFields 0x19 0 lo hi 0 0 0 0) =
      .command (.byteline (fieldS3 _) (fieldE3 _)) := decode_of_op h1
  rw [h2, h3, Nat.mod_eq_of_lt h.1, Nat.mod_eq_of_lt h.2] at hw
  exact hw

end Sys2Proof.Laws
end

