-- ==== Sys2Proof/Laws/State.lean ====
section
/-!
SUPPORT. One lemma per field per named update of the state, true by rfl, so that no later proof
unfolds a record update.
-/

namespace Sys2Proof.Machine

open Sys2Proof

@[simp] theorem completed_mem (r : Byte) (s : State) : (completed r s).mem = s.mem := rfl
@[simp] theorem completed_cur (r : Byte) (s : State) : (completed r s).cur = s.cur := rfl
@[simp] theorem completed_prev (r : Byte) (s : State) : (completed r s).prev = s.prev := rfl
@[simp] theorem completed_bright (r : Byte) (s : State) : (completed r s).bright = s.bright := rfl
@[simp] theorem completed_slots (r : Byte) (s : State) : (completed r s).slots = s.slots := rfl
@[simp] theorem completed_last (r : Byte) (s : State) : (completed r s).last = s.last := rfl
@[simp] theorem completed_result (r : Byte) (s : State) : (completed r s).result = r := rfl
@[simp] theorem completed_busy (r : Byte) (s : State) : (completed r s).busy = false := rfl
@[simp] theorem completed_cfg (r : Byte) (s : State) : (completed r s).cfg = s.cfg := rfl
@[simp] theorem completed_inputs (r : Byte) (s : State) : (completed r s).inputs = s.inputs := rfl
@[simp] theorem completed_now (r : Byte) (s : State) : (completed r s).now = s.now := rfl
@[simp] theorem completed_rand (r : Byte) (s : State) : (completed r s).rand = s.rand := rfl
@[simp] theorem completed_freeIx (r : Byte) (s : State) : (completed r s).freeIx = s.freeIx := rfl

@[simp] theorem withMem_mem (m : Memory) (s : State) : (withMem m s).mem = m := rfl
@[simp] theorem withMem_cur (m : Memory) (s : State) : (withMem m s).cur = s.cur := rfl
@[simp] theorem withMem_prev (m : Memory) (s : State) : (withMem m s).prev = s.prev := rfl
@[simp] theorem withMem_bright (m : Memory) (s : State) : (withMem m s).bright = s.bright := rfl
@[simp] theorem withMem_slots (m : Memory) (s : State) : (withMem m s).slots = s.slots := rfl
@[simp] theorem withMem_last (m : Memory) (s : State) : (withMem m s).last = s.last := rfl
@[simp] theorem withMem_result (m : Memory) (s : State) : (withMem m s).result = s.result := rfl
@[simp] theorem withMem_busy (m : Memory) (s : State) : (withMem m s).busy = s.busy := rfl
@[simp] theorem withMem_cfg (m : Memory) (s : State) : (withMem m s).cfg = s.cfg := rfl
@[simp] theorem withMem_inputs (m : Memory) (s : State) : (withMem m s).inputs = s.inputs := rfl
@[simp] theorem withMem_now (m : Memory) (s : State) : (withMem m s).now = s.now := rfl
@[simp] theorem withMem_rand (m : Memory) (s : State) : (withMem m s).rand = s.rand := rfl
@[simp] theorem withMem_freeIx (m : Memory) (s : State) : (withMem m s).freeIx = s.freeIx := rfl

@[simp] theorem accept_mem (now : Nat) (rest : List HostEvent) (s : State) : (accept now rest s).mem = s.mem := rfl
@[simp] theorem accept_cur (now : Nat) (rest : List HostEvent) (s : State) : (accept now rest s).cur = s.cur := rfl
@[simp] theorem accept_prev (now : Nat) (rest : List HostEvent) (s : State) : (accept now rest s).prev = s.prev := rfl
@[simp] theorem accept_bright (now : Nat) (rest : List HostEvent) (s : State) : (accept now rest s).bright = s.bright := rfl
@[simp] theorem accept_slots (now : Nat) (rest : List HostEvent) (s : State) : (accept now rest s).slots = s.slots := rfl
@[simp] theorem accept_last (now : Nat) (rest : List HostEvent) (s : State) : (accept now rest s).last = s.last := rfl
@[simp] theorem accept_result (now : Nat) (rest : List HostEvent) (s : State) : (accept now rest s).result = s.result := rfl
@[simp] theorem accept_busy (now : Nat) (rest : List HostEvent) (s : State) : (accept now rest s).busy = true := rfl
@[simp] theorem accept_cfg (now : Nat) (rest : List HostEvent) (s : State) : (accept now rest s).cfg = s.cfg := rfl
@[simp] theorem accept_inputs (now : Nat) (rest : List HostEvent) (s : State) : (accept now rest s).inputs = rest := rfl
@[simp] theorem accept_now (now : Nat) (rest : List HostEvent) (s : State) : (accept now rest s).now = sampleNow s.cfg now := rfl
@[simp] theorem accept_rand (now : Nat) (rest : List HostEvent) (s : State) : (accept now rest s).rand = s.rand := rfl
@[simp] theorem accept_freeIx (now : Nat) (rest : List HostEvent) (s : State) : (accept now rest s).freeIx = s.freeIx := rfl

@[simp] theorem assertRst_mem (s : State) : (assertRst s).mem = [] := rfl
@[simp] theorem assertRst_cur (s : State) : (assertRst s).cur = noneEffect := rfl
@[simp] theorem assertRst_prev (s : State) : (assertRst s).prev = noneEffect := rfl
@[simp] theorem assertRst_bright (s : State) : (assertRst s).bright = s.cfg.brightnessMax := rfl
@[simp] theorem assertRst_slots (s : State) : (assertRst s).slots = zeroSlots := rfl
@[simp] theorem assertRst_last (s : State) : (assertRst s).last = Vector.replicate 5 0 := rfl
@[simp] theorem assertRst_result (s : State) : (assertRst s).result = 0 := rfl
@[simp] theorem assertRst_busy (s : State) : (assertRst s).busy = false := rfl
@[simp] theorem assertRst_cfg (s : State) : (assertRst s).cfg = s.cfg := rfl
@[simp] theorem assertRst_inputs (s : State) : (assertRst s).inputs = s.inputs := rfl
@[simp] theorem assertRst_now (s : State) : (assertRst s).now = s.now := rfl
@[simp] theorem assertRst_rand (s : State) : (assertRst s).rand = s.rand := rfl
@[simp] theorem assertRst_freeIx (s : State) : (assertRst s).freeIx = s.freeIx := rfl

@[simp] theorem finishAction_mem (s : State) : (finishAction s).mem = clearBuffer s.cfg.geometry s.mem := rfl
@[simp] theorem finishAction_cur (s : State) : (finishAction s).cur = noneEffect := rfl
@[simp] theorem finishAction_prev (s : State) : (finishAction s).prev = s.cur := rfl
@[simp] theorem finishAction_bright (s : State) : (finishAction s).bright = s.bright := rfl
@[simp] theorem finishAction_slots (s : State) : (finishAction s).slots = zeroSlots := rfl
@[simp] theorem finishAction_last (s : State) : (finishAction s).last = s.last := rfl
@[simp] theorem finishAction_result (s : State) : (finishAction s).result = s.result := rfl
@[simp] theorem finishAction_busy (s : State) : (finishAction s).busy = s.busy := rfl
@[simp] theorem finishAction_cfg (s : State) : (finishAction s).cfg = s.cfg := rfl
@[simp] theorem finishAction_inputs (s : State) : (finishAction s).inputs = s.inputs := rfl
@[simp] theorem finishAction_now (s : State) : (finishAction s).now = s.now := rfl
@[simp] theorem finishAction_rand (s : State) : (finishAction s).rand = s.rand := rfl
@[simp] theorem finishAction_freeIx (s : State) : (finishAction s).freeIx = s.freeIx := rfl

@[simp] theorem withFetchWord_mem (s : State) (nbits w : Nat) : (s.withFetchWord nbits w).mem = s.mem := rfl
@[simp] theorem withFetchWord_cur (s : State) (nbits w : Nat) : (s.withFetchWord nbits w).cur = s.cur := rfl
@[simp] theorem withFetchWord_prev (s : State) (nbits w : Nat) : (s.withFetchWord nbits w).prev = s.prev := rfl
@[simp] theorem withFetchWord_bright (s : State) (nbits w : Nat) : (s.withFetchWord nbits w).bright = s.bright := rfl
@[simp] theorem withFetchWord_slots (s : State) (nbits w : Nat) : (s.withFetchWord nbits w).slots = s.slots := rfl
@[simp] theorem withFetchWord_last (s : State) (nbits w : Nat) : (s.withFetchWord nbits w).last = s.last := rfl
@[simp] theorem withFetchWord_result (s : State) (nbits w : Nat) : (s.withFetchWord nbits w).result = s.result := rfl
@[simp] theorem withFetchWord_busy (s : State) (nbits w : Nat) : (s.withFetchWord nbits w).busy = false := rfl
@[simp] theorem withFetchWord_cfg (s : State) (nbits w : Nat) : (s.withFetchWord nbits w).cfg = s.cfg := rfl
@[simp] theorem withFetchWord_inputs (s : State) (nbits w : Nat) : (s.withFetchWord nbits w).inputs = .command (BitVec.ofNat 32 (w % 2 ^ nbits)) s.now :: s.inputs := rfl
@[simp] theorem withFetchWord_now (s : State) (nbits w : Nat) : (s.withFetchWord nbits w).now = s.now := rfl
@[simp] theorem withFetchWord_rand (s : State) (nbits w : Nat) : (s.withFetchWord nbits w).rand = s.rand := rfl
@[simp] theorem withFetchWord_freeIx (s : State) (nbits w : Nat) : (s.withFetchWord nbits w).freeIx = s.freeIx := rfl

@[simp] theorem resetWith_mem (cfg : Config) : (State.resetWith cfg).mem = [] := rfl
@[simp] theorem resetWith_cur (cfg : Config) : (State.resetWith cfg).cur = noneEffect := rfl
@[simp] theorem resetWith_prev (cfg : Config) : (State.resetWith cfg).prev = noneEffect := rfl
@[simp] theorem resetWith_bright (cfg : Config) : (State.resetWith cfg).bright = cfg.brightnessMax := rfl
@[simp] theorem resetWith_slots (cfg : Config) : (State.resetWith cfg).slots = zeroSlots := rfl
@[simp] theorem resetWith_last (cfg : Config) : (State.resetWith cfg).last = Vector.replicate 5 0 := rfl
@[simp] theorem resetWith_result (cfg : Config) : (State.resetWith cfg).result = 0 := rfl
@[simp] theorem resetWith_busy (cfg : Config) : (State.resetWith cfg).busy = false := rfl
@[simp] theorem resetWith_cfg (cfg : Config) : (State.resetWith cfg).cfg = cfg := rfl
@[simp] theorem resetWith_inputs (cfg : Config) : (State.resetWith cfg).inputs = [] := rfl
@[simp] theorem resetWith_now (cfg : Config) : (State.resetWith cfg).now = 0 := rfl
@[simp] theorem resetWith_rand (cfg : Config) : (State.resetWith cfg).rand = [] := rfl
@[simp] theorem resetWith_freeIx (cfg : Config) : (State.resetWith cfg).freeIx = 0 := rfl

/-! `afterStep` (R185): what it writes with and without the finish. -/

@[simp] theorem afterStep_bright (i : Nat) (r : EffectResult) (s : State) :
    (afterStep i r s).bright = r.bright := by
  unfold afterStep; cases r.fin <;> rfl
@[simp] theorem afterStep_last (i : Nat) (r : EffectResult) (s : State) :
    (afterStep i r s).last = setLast s.last i s.now := by
  unfold afterStep; cases r.fin <;> rfl
@[simp] theorem afterStep_result (i : Nat) (r : EffectResult) (s : State) :
    (afterStep i r s).result = s.result := by
  unfold afterStep; cases r.fin <;> rfl
@[simp] theorem afterStep_busy (i : Nat) (r : EffectResult) (s : State) :
    (afterStep i r s).busy = s.busy := by
  unfold afterStep; cases r.fin <;> rfl
@[simp] theorem afterStep_cfg (i : Nat) (r : EffectResult) (s : State) :
    (afterStep i r s).cfg = s.cfg := by
  unfold afterStep; cases r.fin <;> rfl
@[simp] theorem afterStep_inputs (i : Nat) (r : EffectResult) (s : State) :
    (afterStep i r s).inputs = s.inputs := by
  unfold afterStep; cases r.fin <;> rfl
@[simp] theorem afterStep_now (i : Nat) (r : EffectResult) (s : State) :
    (afterStep i r s).now = s.now := by
  unfold afterStep; cases r.fin <;> rfl
@[simp] theorem afterStep_rand (i : Nat) (r : EffectResult) (s : State) :
    (afterStep i r s).rand = r.rand := by
  unfold afterStep; cases r.fin <;> rfl
@[simp] theorem afterStep_freeIx (i : Nat) (r : EffectResult) (s : State) :
    (afterStep i r s).freeIx = r.freeIx := by
  unfold afterStep; cases r.fin <;> rfl
@[simp] theorem afterStep_mem (i : Nat) (r : EffectResult) (s : State) :
    (afterStep i r s).mem = if r.fin then clearBuffer s.cfg.geometry r.mem else r.mem := by
  unfold afterStep; cases r.fin <;> rfl
@[simp] theorem afterStep_slots (i : Nat) (r : EffectResult) (s : State) :
    (afterStep i r s).slots = if r.fin then zeroSlots else r.slots := by
  unfold afterStep; cases r.fin <;> rfl
@[simp] theorem afterStep_cur (i : Nat) (r : EffectResult) (s : State) :
    (afterStep i r s).cur = if r.fin then noneEffect else s.cur := by
  unfold afterStep; cases r.fin <;> rfl
@[simp] theorem afterStep_prev (i : Nat) (r : EffectResult) (s : State) :
    (afterStep i r s).prev = if r.fin then s.cur else s.prev := by
  unfold afterStep; cases r.fin <;> rfl

/-! Completion. -/

theorem complete_eq (r : Byte) (s : State) : complete r s = .next (completed r s) := rfl

theorem completeDraw_eq (m : Memory) (s : State) :
    completeDraw m s = .next (completed 0x00 (withMem m s)) := rfl

theorem complete_next_iff {r : Byte} {s t : State} : complete r s = .next t ↔ t = completed r s := by
  rw [complete_eq]; constructor
  · intro h; cases h; rfl
  · rintro rfl; rfl

theorem completeDraw_next_iff {m : Memory} {s t : State} :
    completeDraw m s = .next t ↔ t = completed 0x00 (withMem m s) := by
  rw [completeDraw, complete_next_iff]

/-- `DONE` marks a command and a next state, nothing else. -/
theorem commandDone_iff {s : State} {a : Host.Outcome State Fault Refusal} :
    commandDone s a = true ↔
      ∃ w now rest t, s.inputs = .command w now :: rest ∧ a = .next t := by
  unfold commandDone
  rcases s.inputs with _ | ⟨_ | _, _⟩ <;> cases a <;> simp

/-- A command that only answers leaves everything but `RESULT` and `BUSY`. -/
theorem answered_completed (r : Byte) (s : State) : Answered r s (completed r s) :=
  ⟨⟨rfl, rfl, rfl, rfl, rfl, rfl, rfl, rfl, rfl, rfl⟩, rfl, rfl, rfl⟩

/-- A command that draws leaves everything but the buffer, `RESULT` and `BUSY`. -/
theorem drew_completed (m : Memory) (s : State) : Drew s (completed 0x00 (withMem m s)) :=
  ⟨⟨rfl, rfl, rfl, rfl, rfl, rfl, rfl, rfl, rfl, rfl⟩, rfl, rfl⟩

end Sys2Proof.Machine
end

