-- ==== Sys2Proof/Laws/Sequencer.lean ====
section
/-!
SUPPORT. The sequencer's shared operations: drawing by an effect, one effect step, the random
draw, the elapsed time, and what the tick can answer.
-/

namespace Sys2Proof.Machine

open Sys2Proof

theorem memOk_drawInstr {g : Geometry} {m : Memory} (hm : memOk g m) (i : Instr) :
    memOk g (drawInstr g i m) := by
  cases i
  case setv x y z => exact memOk_drawSetv hm x y z
  case clrv x y z => exact memOk_drawClrv hm x y z
  case tglv x y z => exact memOk_drawTglv hm x y z
  case altv x y z v => exact memOk_drawAltv hm x y z v
  case fill v => exact memOk_drawFill hm v
  case setpx c => exact memOk_drawSetpx hm c
  case setpy c => exact memOk_drawSetpy hm c
  case setpz c => exact memOk_drawSetpz hm c
  case clrpx c => exact memOk_drawClrpx hm c
  case clrpy c => exact memOk_drawClrpy hm c
  case clrpz c => exact memOk_drawClrpz hm c
  case box style x1 y1 z1 x2 y2 z2 => exact memOk_drawBox hm style _ _
  case line x1 y1 z1 x2 y2 z2 => exact memOk_drawLine hm _ _
  case shift axis dir => exact memOk_drawShift hm axis dir
  all_goals exact hm

theorem memOk_clearBuffer {g : Geometry} {m : Memory} (hm : memOk g m) :
    memOk g (clearBuffer g m) := memOk_fillBytes hm 0x00

theorem legalBright_le (cfg : Config) (b : Byte) :
    (legalBright cfg b).toNat ≤ cfg.brightnessMax.toNat := by
  unfold legalBright; split
  · assumption
  · exact le_rfl

/-! The random draw (R228). -/

/-- Every answer a draw gives is in [0, `CUBE_N`), and what stays lined up was lined up. -/
theorem drawRand_ok {g : Geometry} {rand rand' : List RandVal} {k k' : Nat} {v : RandVal}
    (h : drawRand g rand k = .ok (v, rand', k')) :
    v.toNat < cubeN g ∧ (∀ w ∈ rand', w ∈ rand) := by
  unfold drawRand at h
  split at h
  · split at h
    · cases h; exact ⟨‹_›, fun w hw => by simp [hw]⟩
    · cases h
  · cases h
    refine ⟨?_, by simp⟩
    have h1 := Nat.mod_lt (Config.freeDraw k).toNat (cubeN_pos g)
    have h2 := cubeN_le g
    rw [BitVec.toNat_ofNat, Nat.mod_eq_of_lt (by omega)]
    exact h1

/-- With every answer lined up in range a draw is answered. -/
theorem drawRand_total {g : Geometry} {rand : List RandVal} (k : Nat)
    (h : ∀ v ∈ rand, v.toNat < cubeN g) : ∃ a, drawRand g rand k = .ok a := by
  cases rand with
  | nil => exact ⟨_, rfl⟩
  | cons v rest => exact ⟨(v, rest, k), by simp [drawRand, h v (by simp)]⟩

/-! One effect step (R186). -/

/-- What every effect step leaves: a buffer in its form, a legal brightness, and random
answers that were lined up before. -/
theorem runEffect_ok {cfg : Config} (prog : EffectProg) :
    ∀ {m : Memory} {rand : List RandVal} {k : Nat} {r : EffectResult},
      runEffect cfg prog m rand k = .ok r → memOk cfg.geometry m →
      memOk cfg.geometry r.mem ∧ r.bright.toNat ≤ cfg.brightnessMax.toNat ∧
        (∀ w ∈ r.rand, w ∈ rand) := by
  induction prog with
  | done slots bright fin =>
    intro m rand k r h hm
    cases h
    exact ⟨hm, legalBright_le cfg bright, fun w hw => hw⟩
  | op i rest ih =>
    intro m rand k r h hm
    exact ih h (memOk_drawInstr hm i)
  | draw rest ih =>
    intro m rand k r h hm
    rw [runEffect] at h
    split at h
    · rename_i v rand' k' hd
      obtain ⟨h1, h2, h3⟩ := ih v h hm
      exact ⟨h1, h2, fun w hw => (drawRand_ok hd).2 w (h3 w hw)⟩
    · cases h

/-- With every random answer in range an effect step comes to its end (R246). -/
theorem runEffect_total {cfg : Config} (prog : EffectProg) :
    ∀ (m : Memory) (rand : List RandVal) (k : Nat),
      (∀ v ∈ rand, v.toNat < cubeN cfg.geometry) → ∃ r, runEffect cfg prog m rand k = .ok r := by
  induction prog with
  | done slots bright fin => exact fun m rand k _ => ⟨_, rfl⟩
  | op i rest ih => exact fun m rand k h => ih _ rand k h
  | draw rest ih =>
    intro m rand k h
    obtain ⟨⟨v, rand', k'⟩, hd⟩ := drawRand_total k h
    obtain ⟨r, hr⟩ := ih v m rand' k' (fun w hw => h w ((drawRand_ok hd).2 w hw))
    exact ⟨r, by rw [runEffect, hd]; exact hr⟩

/-! The elapsed time (R184). -/

theorem elapsed_lt (w t1 t2 : Nat) : elapsed w t1 t2 < 2 ^ w := by
  have h : (0 : Int) < 2 ^ w := by positivity
  have h1 := Int.emod_nonneg ((t2 : Int) - t1) (ne_of_gt h)
  have h2 := Int.emod_lt_of_pos ((t2 : Int) - t1) h
  unfold elapsed
  zify
  rw [Int.toNat_of_nonneg h1]
  exact h2

theorem sampleNow_lt (cfg : Config) (now : Nat) : sampleNow cfg now < 2 ^ cfg.clkW :=
  Nat.mod_lt _ (by positivity)

/-! The tick (R185). -/

/-- Everything the tick can answer. -/
theorem processWith_cases (p : EffectParams) (sf : Bool) (s : State) :
    (s.cur = noneEffect ∧ processWith p sf s = .next (completed 0x00 s)) ∨
    (s.cur ≠ noneEffect ∧ s.cur.toNat < effectsCount ∧ gateOpen p s.cur.toNat s = false ∧
      processWith p sf s = .next (completed 0x00 s)) ∨
    (s.cur ≠ noneEffect ∧ s.cur.toNat < effectsCount ∧ gateOpen p s.cur.toNat s = true ∧
      ∃ r, runEffect s.cfg (p.step s.cfg s.cur.toNat s.slots s.mem s.bright sf) s.mem s.rand
          s.freeIx = .ok r ∧
        processWith p sf s = .next (completed 0x01 (afterStep s.cur.toNat r s))) ∨
    (s.cur ≠ noneEffect ∧ s.cur.toNat < effectsCount ∧ gateOpen p s.cur.toNat s = true ∧
      ∃ v, runEffect s.cfg (p.step s.cfg s.cur.toNat s.slots s.mem s.bright sf) s.mem s.rand
          s.freeIx = .error v ∧
        processWith p sf s = .refused (.randOutOfRange v)) ∨
    (¬ effectLegal s.cur ∧ processWith p sf s = .fault (.noSuchEffect s.cur)) := by
  unfold processWith
  by_cases h1 : s.cur = noneEffect
  · exact .inl ⟨h1, by rw [if_pos h1]; rfl⟩
  · rw [if_neg h1]
    by_cases h2 : s.cur.toNat < effectsCount
    · rw [if_pos h2]
      cases h3 : gateOpen p s.cur.toNat s
      · exact .inr (.inl ⟨h1, h2, rfl, rfl⟩)
      · rw [if_pos rfl, stepEffect]
        cases h4 : runEffect s.cfg (p.step s.cfg s.cur.toNat s.slots s.mem s.bright sf) s.mem
            s.rand s.freeIx with
        | ok r => exact .inr (.inr (.inl ⟨h1, h2, rfl, r, rfl, rfl⟩))
        | error v => exact .inr (.inr (.inr (.inl ⟨h1, h2, rfl, v, rfl, rfl⟩)))
    · rw [if_neg h2]
      exact .inr (.inr (.inr (.inr ⟨fun h => h.elim h2 h1, rfl⟩)))

/-- A tick that steps the running effect and does not end it: what the step leaves is what
stands in the effect's registers after it, and everything an effect's cycle depends on is
kept. -/
theorem steppedTo_result {p : EffectParams} {sf : Bool} {s t : State} (h : SteppedTo p sf s t) :
    ∃ (r : EffectResult) (m : Memory) (rand : List RandVal) (k : Nat), memOk s.cfg.geometry m ∧
      runEffect s.cfg (p.step s.cfg s.cur.toNat s.slots m s.bright sf) m rand k = .ok r ∧
      r.fin = false ∧ t.slots = r.slots ∧ t.bright = r.bright ∧ t.cfg = s.cfg ∧
      t.cur = s.cur := by
  obtain ⟨u, ⟨e1, e2, e3, e4, hm⟩, h1, h2, h3⟩ := h
  rcases processWith_cases p sf u with ⟨_, h'⟩ | ⟨_, _, _, h'⟩ | ⟨hne, _, _, r, hr, h'⟩ |
    ⟨_, _, _, v, _, h'⟩ | ⟨_, h'⟩
  · rw [h'] at h1; cases h1; exact absurd (show (0#8) = 1#8 from h2) (by decide)
  · rw [h'] at h1; cases h1; exact absurd (show (0#8) = 1#8 from h2) (by decide)
  · rw [h'] at h1; cases h1
    rw [completed_cur, afterStep_cur] at h3
    have hfin : r.fin = false := by
      cases hh : r.fin
      · rfl
      · rw [hh, if_pos rfl, ← e2] at h3; exact absurd h3.symm hne
    rw [e1] at hm; rw [e1, e2, e3, e4] at hr
    exact ⟨r, u.mem, u.rand, u.freeIx, hm, hr, hfin, by simp [hfin], by simp, by simp [e1],
      by rw [completed_cur, afterStep_cur]; exact h3⟩
  · rw [h'] at h1; cases h1
  · rw [h'] at h1; cases h1

/-- A step of the cycle that does not ask to finish is taken by some later tick: the clock can
stand late enough for any interval. -/
theorem steppedTo_of_stepsWith {p : EffectParams} {sf : Bool} {s : State} {r : EffectResult}
    (hc : s.cur.toNat < effectsCount)
    (h : StepsWith p s.cfg s.cur.toNat sf s.slots s.bright r) (hf : r.fin = false) :
    ∃ t, SteppedTo p sf s t ∧ t.slots = r.slots ∧ t.bright = r.bright ∧ t.cfg = s.cfg ∧
      t.cur = s.cur := by
  obtain ⟨m, rand, k, hm, hr⟩ := h
  have hne : s.cur ≠ noneEffect := fun h => absurd (h ▸ hc) (by decide)
  refine ⟨completed 0x01 (afterStep s.cur.toNat r
      { s with mem := m, rand := rand, freeIx := k, last := Vector.replicate 5 0,
               now := 2 ^ s.cfg.clkW - 1 }),
    ⟨{ s with mem := m, rand := rand, freeIx := k, last := Vector.replicate 5 0,
              now := 2 ^ s.cfg.clkW - 1 }, ⟨rfl, rfl, rfl, rfl, hm⟩, ?_, rfl, ?_⟩, ?_, ?_, ?_, ?_⟩
  · have hpos : 0 < 2 ^ s.cfg.clkW := by positivity
    have hel : elapsed s.cfg.clkW 0 (2 ^ s.cfg.clkW - 1) = 2 ^ s.cfg.clkW - 1 := by
      unfold elapsed
      rw [Int.emod_eq_of_lt (by omega) (by zify [hpos]; omega)]
      omega
    have hlast : (Vector.replicate 5 0).getD s.cur.toNat 0 = 0 := by
      generalize s.cur.toNat = i at hc
      have : ∀ i, i < 5 → (Vector.replicate 5 0).getD i 0 = 0 := by decide
      exact this i hc
    unfold processWith
    rw [if_neg hne, if_pos hc, if_pos, stepEffect, hr]
    · rfl
    · unfold gateOpen
      rw [hlast, hel, effectInterval]
      exact decide_eq_true (Nat.le_pred_of_lt (Nat.mod_lt _ hpos))
  all_goals simp [hf]

/-! Runs of ticks and runs of steps (R188). -/

theorem turnsAt_congr {s t : Nat → Slots} {a b q : Nat} (hs : ∀ k, k ≤ b → s k = t k)
    (h : TurnsAt s a b q) : TurnsAt t a b q := by
  have hb := h.between
  refine ⟨hb, fun k h1 h2 => ?_, ?_⟩
  · rw [← hs k (by omega)]; exact h.rests k h1 h2
  · rw [← hs a (by omega), ← hs b (by omega)]; exact h.reverses

theorem turnsAt_shift {s : Nat → Slots} {a b q : Nat} :
    TurnsAt (fun k => s (k + 1)) a b q ↔ TurnsAt s (a + 1) (b + 1) q := by
  constructor
  · rintro ⟨h1, h2, h3⟩
    refine ⟨by omega, fun k h h' => ?_, h3⟩
    obtain ⟨j, rfl⟩ : ∃ j, k = j + 1 := ⟨k - 1, by omega⟩
    exact h2 j (by omega) (by omega)
  · rintro ⟨h1, h2, h3⟩
    exact ⟨by omega, fun k h h' => h2 (k + 1) (by omega) (by omega), h3⟩

/-- The build and the effect stay the same along a run of ticks. -/
theorem tickRun_cfg_cur {p : EffectParams} {cfg : Config} {i : Byte} {flag : Nat → Bool}
    {run : Nat → State} {n : Nat} (h : TickRun p cfg i flag run n) :
    ∀ k, k ≤ n → (run k).cfg = cfg ∧ (run k).cur = i := by
  intro k
  induction k with
  | zero => exact fun _ => ⟨h.build, h.running⟩
  | succ k ih =>
    intro hk
    obtain ⟨h1, h2⟩ := ih (by omega)
    obtain ⟨_, _, _, _, _, _, _, _, _, e3, e4⟩ := steppedTo_result (h.ticks k hk)
    exact ⟨e3.trans h1, e4.trans h2⟩

/-- A run of ticks is a run of steps: tick k leaves the slots of step k. -/
theorem unfinishedRun_of_tickRun {p : EffectParams} {cfg : Config} {i : Byte}
    {flag : Nat → Bool} (run : Nat → State) (hi : i.toNat < effectsCount) :
    ∃ f : Nat → EffectResult, ∀ n, TickRun p cfg i flag run (n + 1) →
      UnfinishedRun p cfg i.toNat flag f n ∧ ∀ k, k ≤ n → slotsOf f k = (run (k + 1)).slots := by
  have step : ∀ k, ∃ r : EffectResult, (run k).cfg = cfg → (run k).cur = i →
      SteppedTo p (flag k) (run k) (run (k + 1)) →
      StepsWith p cfg i.toNat (flag k) (run k).slots (run k).bright r ∧ r.fin = false ∧
        r.slots = (run (k + 1)).slots ∧ r.bright = (run (k + 1)).bright := by
    intro k
    by_cases h : (run k).cfg = cfg ∧ (run k).cur = i ∧ SteppedTo p (flag k) (run k) (run (k + 1))
    · obtain ⟨rfl, rfl, h⟩ := h
      obtain ⟨r, m, rand, j, hm, hr, hf, e1, e2, _, _⟩ := steppedTo_result h
      exact ⟨r, fun _ _ _ => ⟨⟨m, rand, j, hm, hr⟩, hf, e1.symm, e2.symm⟩⟩
    · exact ⟨default, fun h1 h2 h3 => absurd ⟨h1, h2, h3⟩ h⟩
  choose f hf using step
  refine ⟨f, fun n h => ?_⟩
  have at_ : ∀ k, k ≤ n → _ := fun k hk =>
    hf k (tickRun_cfg_cur h k (by omega)).1 (tickRun_cfg_cur h k (by omega)).2
      (h.ticks k (by omega))
  refine ⟨⟨⟨_, _, ?_, (at_ 0 (by omega)).1, (at_ 0 (by omega)).2.1⟩, fun k hk => ?_⟩,
    fun k hk => (at_ k hk).2.2.1⟩
  · have hc := h.in_cycle
    rw [State.InCycle, h.running, h.build] at hc
    exact hc hi
  · obtain ⟨_, _, e1, e2⟩ := at_ k (by omega)
    rw [e1, e2]
    exact ⟨(at_ (k + 1) (by omega)).1, (at_ (k + 1) (by omega)).2.1⟩

/-- A run of steps is taken by a run of ticks. -/
theorem tickRun_of_unfinishedRun {p : EffectParams} {cfg : Config} {i : Byte}
    {flag : Nat → Bool} {f : Nat → EffectResult} {n : Nat} (hi : i.toNat < effectsCount)
    (h : UnfinishedRun p cfg i.toNat flag f n) :
    ∃ run, TickRun p cfg i flag run (n + 1) ∧
      ∀ k, k ≤ n → (run (k + 1)).slots = slotsOf f k := by
  obtain ⟨sl, br, hc, h0, hf0⟩ := h.first
  -- one more tick at the end of a run
  have snoc : ∀ (run : Nat → State) (t : State) (m : Nat), TickRun p cfg i flag run m →
      SteppedTo p (flag m) (run m) t →
      TickRun p cfg i flag (fun k => if k ≤ m then run k else t) (m + 1) := by
    intro run t m hr ht
    refine ⟨by simpa using hr.build, by simpa using hr.running, by simpa using hr.in_cycle, ?_⟩
    intro k hk
    rcases Nat.lt_or_eq_of_le (Nat.le_of_lt_succ hk) with hk | rfl
    · simpa [Nat.le_of_lt hk, Nat.succ_le_of_lt hk] using hr.ticks k hk
    · simpa using ht
  have key : ∀ m, m ≤ n → ∃ run, TickRun p cfg i flag run (m + 1) ∧
      (∀ k, k ≤ m → (run (k + 1)).slots = slotsOf f k) ∧
      (run (m + 1)).bright = (f m).bright := by
    intro m
    induction m with
    | zero =>
      intro _
      obtain ⟨t, ht, e1, e2, _, _⟩ := steppedTo_of_stepsWith
        (s := { State.reset with cfg := cfg, cur := i, slots := sl, bright := br }) hi h0 hf0
      refine ⟨_, snoc (fun _ => _) t 0 ⟨rfl, rfl, fun _ => hc, fun k hk => by omega⟩ ht, ?_, e2⟩
      intro k hk
      obtain rfl : k = 0 := by omega
      exact e1
    | succ m ih =>
      intro hm
      obtain ⟨run, h1, h2, h3⟩ := ih (by omega)
      obtain ⟨k1, k2⟩ := tickRun_cfg_cur h1 (m + 1) le_rfl
      obtain ⟨hs, hf⟩ := h.next m hm
      obtain ⟨t, ht, e1, e2, _, _⟩ := steppedTo_of_stepsWith (s := run (m + 1))
        (by rw [k2]; exact hi) (by rw [k1, k2, h2 m le_rfl, h3]; exact hs) hf
      refine ⟨_, snoc run t (m + 1) h1 ht, fun k hk => ?_, by simpa using e2⟩
      rcases Nat.lt_or_eq_of_le hk with hk | rfl
      · simpa [Nat.lt_succ_iff.1 hk] using h2 k (by omega)
      · simpa [slotsOf] using e1
  obtain ⟨run, h1, h2, _⟩ := key n le_rfl
  exact ⟨run, h1, h2⟩

end Sys2Proof.Machine
end

