-- ==== Sys2Proof/Laws/Step.lean ====
section
/-!
SUPPORT. What `exec` and `step` can do, said once.
-/

namespace Sys2Proof.Machine

open Sys2Proof

/-- Every drawing command completes: the buffer is what its drawing function gives, and
nothing else but `RESULT` and `BUSY` changes. -/
theorem exec_drawing {i : Instr} (hi : drawingCommand i = true) (s : State) :
    exec i s = .next (completed 0x00 (withMem (drawInstr s.cfg.geometry i s.mem) s)) := by
  cases i
  all_goals first
    | rfl
    | exact Bool.noConfusion (show false = true from hi)

/-- A command that neither draws nor belongs to the sequencer only answers; BYTELINE out of
order also moves the counter of free values on. -/
theorem exec_query {i : Instr} (hd : drawingCommand i = false) (hs : sequencerCommand i = false)
    (s : State) :
    ∃ r, exec i s = .next (completed r s) ∨
      exec i s = .next (completed r { s with freeIx := s.freeIx + 1 }) := by
  cases i
  case byteline a b =>
    by_cases h : a ≤ b
    · exact ⟨byteline a b, .inl (by simp [exec, execByteline, h, complete_eq])⟩
    · exact ⟨Config.freeByte s.freeIx, .inr (by simp [exec, execByteline, h, complete_eq])⟩
  case nop => exact ⟨_, .inl rfl⟩
  case inrange x y z => exact ⟨_, .inl rfl⟩
  case rdb a => exact ⟨_, .inl rfl⟩
  case getv x y z => exact ⟨_, .inl rfl⟩
  case getcur => exact ⟨_, .inl rfl⟩
  case getprev => exact ⟨_, .inl rfl⟩
  case isfin => exact ⟨_, .inl rfl⟩
  case getbright => exact ⟨_, .inl rfl⟩
  all_goals first
    | exact Bool.noConfusion (show true = false from hd)
    | exact Bool.noConfusion (show true = false from hs)

/-- Everything a command can do. -/
theorem exec_cases (i : Instr) (s : State) :
    (drawingCommand i = true ∧
      exec i s = .next (completed 0x00 (withMem (drawInstr s.cfg.geometry i s.mem) s))) ∨
    (drawingCommand i = false ∧ sequencerCommand i = false ∧
      ∃ r, exec i s = .next (completed r s) ∨
        exec i s = .next (completed r { s with freeIx := s.freeIx + 1 })) ∨
    (∃ index, i = .start index ∧ exec i s = execStart index s) ∨
    (i = .finish ∧ exec i s = .next (completed 0x00 (finishAction s))) ∨
    (∃ sf, i = .process sf ∧ exec i s = processWith Config.effects sf s) := by
  cases hd : drawingCommand i
  · cases hs : sequencerCommand i
    · exact .inr (.inl ⟨rfl, rfl, exec_query hd hs s⟩)
    · cases i
      case start index => exact .inr (.inr (.inl ⟨index, rfl, rfl⟩))
      case finish => exact .inr (.inr (.inr (.inl ⟨rfl, rfl⟩)))
      case process sf => exact .inr (.inr (.inr (.inr ⟨sf, rfl, rfl⟩)))
      all_goals exact Bool.noConfusion (show false = true from hs)
  · exact .inl ⟨rfl, exec_drawing hd s⟩

/-- Everything a step can do. -/
theorem step_cases (s : State) :
    (s.inputs = [] ∧ step s = .next s) ∨
    (∃ rest, s.inputs = .rst :: rest ∧ step s = .next (assertRst { s with inputs := rest })) ∨
    (∃ w now rest, s.inputs = .command w now :: rest ∧ s.busy = true ∧
      step s = .refused (.commandWhileBusy w)) ∨
    (∃ w now rest i, s.inputs = .command w now :: rest ∧ s.busy = false ∧
      decode w = .command i ∧ step s = exec i (accept now rest s)) ∨
    (∃ w now rest op, s.inputs = .command w now :: rest ∧ s.busy = false ∧
      decode w = .reserved op ∧ step s = .next (completed 0x00 (accept now rest s))) := by
  unfold step
  cases hi : s.inputs with
  | nil => exact .inl ⟨rfl, rfl⟩
  | cons e rest =>
    cases e with
    | rst => exact .inr (.inl ⟨rest, rfl, rfl⟩)
    | command w now =>
      cases hb : s.busy
      · have hr : cmdReady s = true := by simp [cmdReady, hb]
        simp only [hr, if_true, runWord]
        cases hd : decode w with
        | command i => exact .inr (.inr (.inr (.inl ⟨w, now, rest, i, rfl, trivial, hd, rfl⟩)))
        | reserved op => exact .inr (.inr (.inr (.inr ⟨w, now, rest, op, rfl, trivial, hd, rfl⟩)))
      · have hr : cmdReady s = false := by simp [cmdReady, hb]
        exact .inr (.inr (.inl ⟨w, now, rest, rfl, rfl, by simp [hr]⟩))

end Sys2Proof.Machine
end

