-- ==== Sys2Proof/Tests/Slice0.lean ====
section
/-!
SUPPORT. The model's own tests: ill-formed operands refused, words written out from the spec's
encodings, one step of each command with the result spec/95_test_vectors.md (or a
rule's example) gives, and a witness for the hypotheses of each statement.
-/

namespace Sys2Proof.Tests

set_option Elab.async false

open Sys2Proof Sys2Proof.Machine

/-! Well-formedness: one ill-formed term for each check. -/

theorem test_wf_x_too_large : (Instr.setv 16 0 0).wellFormed = false := by decide
theorem test_wf_y_too_large : (Instr.altv 0 16 0 1).wellFormed = false := by decide
theorem test_wf_z_too_large : (Instr.getv 0 0 16).wellFormed = false := by decide
theorem test_wf_plane_too_large : (Instr.clrpz 16).wellFormed = false := by decide
theorem test_wf_first_corner_too_large :
    (Instr.box .filled 0 16 0 0 0 0).wellFormed = false := by decide
theorem test_wf_second_corner_too_large :
    (Instr.box .filled 0 0 0 0 0 16).wellFormed = false := by decide
theorem test_wf_line_end_too_large : (Instr.line 0 0 0 16 0 0).wellFormed = false := by decide
theorem test_wf_start_bit_too_large : (Instr.byteline 8 7).wellFormed = false := by decide
theorem test_wf_end_bit_too_large : (Instr.byteline 0 8).wellFormed = false := by decide
theorem test_wf_largest_operands :
    (Instr.line 15 15 15 15 15 15).wellFormed = true ∧
      (Instr.byteline 7 7).wellFormed = true := by decide
theorem test_assembler_refuses : assemble (.setpx 16) = none := by decide
theorem test_wf_no_brightness : (Config.mk .n8 32 0).wellFormed = false := by decide
theorem test_wf_least_brightness : (Config.mk .n4 32 1).wellFormed = true := by decide

/-! Decoding: the words of spec/95_test_vectors.md and of the rules' examples, each the bits
of R61, R62 and R65. -/

theorem test_decode_nop : decode 0x00000000 = .command .nop := by decide
theorem test_decode_inrange : decode 0x60123000 = .command (.inrange 1 2 3) := by decide
theorem test_decode_byteline : decode 0x64250000 = .command (.byteline 2 5) := by decide
theorem test_decode_byteline_ignored_bits :
    decode 0x64AD0000 = .command (.byteline 2 5) := by decide
theorem test_decode_rdb : decode 0x6800003F = .command (.rdb 63) := by decide
theorem test_decode_setv : decode 0x04352000 = .command (.setv 3 5 2) := by decide
theorem test_decode_setv_ignored_bits : decode 0x07123FFF = .command (.setv 1 2 3) := by decide
theorem test_decode_clrv : decode 0x08123000 = .command (.clrv 1 2 3) := by decide
theorem test_decode_tglv : decode 0x0C00F000 = .command (.tglv 0 0 15) := by decide
theorem test_decode_altv : decode 0x10330080 = .command (.altv 3 3 0 0x80) := by decide
theorem test_decode_getv : decode 0x14213000 = .command (.getv 2 1 3) := by decide
theorem test_decode_fill : decode 0x180000A5 = .command (.fill 0xA5) := by decide
theorem test_decode_setpx : decode 0x20700000 = .command (.setpx 7) := by decide
theorem test_decode_setpy : decode 0x24100000 = .command (.setpy 1) := by decide
theorem test_decode_setpz : decode 0x28800000 = .command (.setpz 8) := by decide
theorem test_decode_clrpx : decode 0x30700000 = .command (.clrpx 7) := by decide
theorem test_decode_clrpy : decode 0x34200000 = .command (.clrpy 2) := by decide
theorem test_decode_clrpz : decode 0x38000000 = .command (.clrpz 0) := by decide
theorem test_decode_box_filled :
    decode 0x40222111 = .command (.box .filled 2 2 2 1 1 1) := by decide
theorem test_decode_box_walls :
    decode 0x41110221 = .command (.box .walls 1 1 0 2 2 1) := by decide
theorem test_decode_box_frame :
    decode 0x42001334 = .command (.box .frame 0 0 1 3 3 4) := by decide
theorem test_decode_box_type_three :
    decode 0x43000777 = .command (.box .noStyle 0 0 0 7 7 7) := by decide
theorem test_decode_line : decode 0x44030220 = .command (.line 0 3 0 2 2 0) := by decide
theorem test_decode_shift_y_up : decode 0x49000001 = .command (.shift .y .plus) := by decide
theorem test_decode_shift_ignored_bits :
    decode 0x48FFFFFE = .command (.shift .x .minus) := by decide
theorem test_decode_shift_no_axis : decode 0x4B000001 = .command (.shift .noAxis .plus) := by decide
theorem test_decode_start : decode 0x800000FF = .command (.start 0xFF) := by decide
theorem test_decode_finish : decode 0x84000000 = .command .finish := by decide
theorem test_decode_process : decode 0x88000001 = .command (.process true) := by decide
theorem test_decode_getcur : decode 0x8C000000 = .command .getcur := by decide
theorem test_decode_getprev : decode 0x90000000 = .command .getprev := by decide
theorem test_decode_isfin : decode 0x94000000 = .command .isfin := by decide
theorem test_decode_getbright : decode 0x98000000 = .command .getbright := by decide
theorem test_decode_reserved_first : decode 0x1C000000 = .reserved 0x07 := by decide
theorem test_decode_reserved_last : decode 0xFC000000 = .reserved 0x3F := by decide
theorem test_decode_reserved_operands : decode 0x7C123456 = .reserved 0x1F := by decide

/-! Encoding: the words of the same tables. -/

theorem test_encode_line : encode (.line 7 0 7 0 7 0) = 0x44707070 := by decide
theorem test_encode_large_coordinate : encode (.inrange 16 15 99) = 0x60FFF000 := by decide
theorem test_encode_tickf : encode (Pseudo.tickf.expand) = 0x88000001 := by decide
theorem test_encode_boxf : encode ((Pseudo.boxf 0 0 0 7 7 7).expand) = 0x40000777 := by decide

/-! One step of each command. `on g m` is the state after reset of the build with `CUBE_N` from
`g`, `CLK_W` = 32 and `BRIGHTNESS_MAX` = 200, with buffer `m`. -/

def on (g : Geometry) (m : Memory) : State := { State.resetWith ⟨g, 32, 200⟩ with mem := m }

/-- The state after one command. -/
def after (i : Instr) (s : State) : Option State :=
  match exec i s with
  | .next t => some t
  | .fault _ => none
  | .refused _ => none

def memAfter (i : Instr) (s : State) : Option Memory := (after i s).map State.mem
def answer (i : Instr) (s : State) : Option Byte := (after i s).map State.result

/-- The buffer with these bytes from address 0 up. -/
def bytes (vs : List Byte) : Memory :=
  (vs.zipIdx).foldl (fun m (v, a) => memWrite m a v) []

theorem test_nop_fresh_result : answer .nop { on .n8 [] with result := 1 } = some 0 := by decide
theorem test_inrange_edge : answer (.inrange 7 7 7) (on .n8 []) = some 1 ∧
    answer (.inrange 0 0 8) (on .n8 []) = some 0 := by decide
theorem test_inrange_four : answer (.inrange 3 3 3) (on .n4 []) = some 1 ∧
    answer (.inrange 4 0 0) (on .n4 []) = some 0 := by decide
theorem test_byteline : answer (.byteline 2 5) (on .n8 []) = some 0x3C := by decide
theorem test_byteline_ends : answer (.byteline 7 7) (on .n8 []) = some 0x80 ∧
    answer (.byteline 0 7) (on .n8 []) = some 0xFF := by decide
theorem test_rdb_byte : answer (.rdb 7) (on .n4 [(7, 0xFF)]) = some 0xFF := by decide
theorem test_rdb_above_top : answer (.rdb 8) (on .n4 [(7, 0xFF)]) = some 0 ∧
    answer (.rdb 64) (on .n8 [(63, 0xFF)]) = some 0 := by decide

theorem test_setv_eight : memAfter (.setv 3 5 2) (on .n8 []) = some [(21, 0x08)] := by decide
theorem test_setv_four : memAfter (.setv 3 1 0) (on .n4 []) = some [(0, 0x80)] ∧
    memAfter (.setv 4 0 0) (on .n4 []) = some [] := by decide
theorem test_clrv_eight : memAfter (.clrv 1 2 3) (on .n8 [(26, 0xFF)]) = some [(26, 0xFD)] := by
  decide
theorem test_clrv_sibling : memAfter (.clrv 0 0 0) (on .n4 [(0, 0x10)]) = some [(0, 0x10)] := by
  decide
theorem test_tglv_off : memAfter (.tglv 1 2 3) (on .n8 [(26, 0x02)]) = some [] := by decide
theorem test_tglv_on : memAfter (.tglv 1 2 3) (on .n4 []) = some [(7, 0x02)] := by decide
theorem test_altv_any_nonzero : memAfter (.altv 3 3 0 0x80) (on .n4 []) = some [(1, 0x80)] := by
  decide
theorem test_altv_zero : memAfter (.altv 3 3 0 0) (on .n8 [(3, 0x08)]) = some [] := by decide
theorem test_getv_axes : answer (.getv 1 2 3) (on .n8 [(26, 0x02)]) = some 1 ∧
    answer (.getv 2 1 3) (on .n8 [(26, 0x02)]) = some 0 := by decide
theorem test_getv_out_of_range : answer (.getv 8 0 0) (on .n8 [(0, 0xFF), (1, 0xFF)]) = some 0 := by
  decide

/-- After `FILL 0xFF` with `CUBE_N` = 4. -/
def full4 : Memory := bytes [0xFF, 0xFF, 0xFF, 0xFF, 0xFF, 0xFF, 0xFF, 0xFF]

theorem test_fill : memAfter (.fill 0x0F) (on .n4 full4) =
    some (bytes [0x0F, 0x0F, 0x0F, 0x0F, 0x0F, 0x0F, 0x0F, 0x0F]) := by decide +kernel
theorem test_fill_clear : memAfter (.fill 0x00) (on .n8 [(9, 0x02)]) = some [] := by
  decide +kernel
theorem test_setpx : memAfter (.setpx 3) (on .n4 []) =
    some (bytes [0x88, 0x88, 0x88, 0x88, 0x88, 0x88, 0x88, 0x88]) := by decide +kernel
theorem test_setpy : memAfter (.setpy 3) (on .n4 []) =
    some (bytes [0x00, 0xF0, 0x00, 0xF0, 0x00, 0xF0, 0x00, 0xF0]) := by decide +kernel
theorem test_setpz : memAfter (.setpz 3) (on .n4 []) =
    some (bytes [0, 0, 0, 0, 0, 0, 0xFF, 0xFF]) := by decide +kernel
theorem test_setpz_out_of_range : memAfter (.setpz 8) (on .n8 []) = some [] := by decide
theorem test_clrpx : memAfter (.clrpx 3) (on .n4 full4) =
    some (bytes [0x77, 0x77, 0x77, 0x77, 0x77, 0x77, 0x77, 0x77]) := by decide +kernel
theorem test_clrpy : memAfter (.clrpy 2) (on .n4 full4) =
    some (bytes [0xFF, 0xF0, 0xFF, 0xF0, 0xFF, 0xF0, 0xFF, 0xF0]) := by decide +kernel
theorem test_clrpz : memAfter (.clrpz 0) (on .n4 full4) =
    some (bytes [0, 0, 0xFF, 0xFF, 0xFF, 0xFF, 0xFF, 0xFF]) := by decide +kernel

theorem test_box_filled_reversed : memAfter (.box .filled 2 2 2 1 1 1) (on .n8 []) =
    some [(9, 0x06), (10, 0x06), (17, 0x06), (18, 0x06)] := by decide +kernel
theorem test_box_walls_overwrites : memAfter (.box .walls 1 1 0 2 2 1) (on .n4 full4) =
    some (bytes [0x6F, 0xF6, 0x6F, 0xF6, 0xFF, 0xFF, 0xFF, 0xFF]) := by decide +kernel
theorem test_box_walls_interior : memAfter (.box .walls 0 0 0 3 3 3) (on .n4 []) =
    some (bytes [0xFF, 0xFF, 0x9F, 0xF9, 0x9F, 0xF9, 0xFF, 0xFF]) := by decide +kernel
theorem test_box_frame : memAfter (.box .frame 0 0 0 3 3 3) (on .n4 []) =
    some (bytes [0x9F, 0xF9, 0x09, 0x90, 0x09, 0x90, 0x9F, 0xF9]) := by decide +kernel
theorem test_box_type_three : memAfter (.box .noStyle 0 0 0 7 7 7) (on .n8 []) = some [] := by
  decide
theorem test_line_tie_falling : memAfter (.line 0 3 0 2 2 0) (on .n8 []) =
    some [(2, 0x06), (3, 0x01)] := by decide +kernel
theorem test_line_swapped : memAfter (.line 7 0 7 0 7 0) (on .n8 []) =
    some [(7, 0x01), (14, 0x02), (21, 0x04), (28, 0x08), (35, 0x10), (42, 0x20), (49, 0x40),
      (56, 0x80)] := by decide +kernel
theorem test_shift_x_keeps_sibling : memAfter (.shift .x .plus) (on .n4 [(0, 0x09)]) =
    some [(0, 0x02)] := by decide +kernel
theorem test_shift_y_vacates : memAfter (.shift .y .minus) (on .n4 full4) =
    some (bytes [0xFF, 0x0F, 0xFF, 0x0F, 0xFF, 0x0F, 0xFF, 0x0F]) := by decide +kernel

/-- Effect `k` running, a voxel on, slots and brightness in use. -/
def running (k : Byte) : State :=
  { on .n4 [(2, 0x02)] with
    cur := k, prev := 4, bright := 7, slots := Vector.replicate 5 9,
    last := Vector.replicate 5 100 }

theorem test_start_valid : (after (.start 2) (running 4)).map
    (fun t => (t.mem, [t.cur, t.prev, t.bright], t.slots, t.last)) =
    some ([], [2, 4, 200], Vector.replicate 5 0, Vector.replicate 5 100) := by decide +kernel
theorem test_start_invalid_keeps_cur : (after (.start 9) (running 4)).map
    (fun t => (t.mem, t.cur, t.bright, t.slots)) = some ([], 4, 200, Vector.replicate 5 0) := by
  decide +kernel
theorem test_finish : (after .finish (running 2)).map
    (fun t => (t.mem, t.cur, t.prev, t.bright, t.slots)) =
    some ([], 0xFF, 2, 7, Vector.replicate 5 0) := by decide +kernel
theorem test_finish_with_none : (after .finish (running 0xFF)).map
    (fun t => (t.cur, t.prev)) = some (0xFF, 0xFF) := by decide +kernel
theorem test_getcur : answer .getcur (running 3) = some 3 := by decide
theorem test_getprev : answer .getprev (running 3) = some 4 := by decide
theorem test_isfin : answer .isfin (running 3) = some 0 ∧ answer .isfin (on .n8 []) = some 1 := by
  decide
theorem test_getbright : answer .getbright (running 3) = some 7 := by decide
theorem test_process_without_effect : after (.process true) (on .n8 []) = some (on .n8 []) := by
  decide

/-- The stub of spec/95_test_vectors.md part 2, section 7. -/
def stub : EffectParams where
  interval := fun _ _ _ => 16
  step := fun _ _ slots _ bright sf =>
    .op (.tglv 0 0 0) (.done (slots.set 0 (slots[0] + 1)) bright sf)
  cycleBound := fun _ => 2
  axisCode := sampleEffects.axisCode

/-- One tick with the stub at time `t`. -/
def tick (sf : Bool) (t : Nat) (s : State) : Option State :=
  match processWith stub sf { s with now := t } with
  | .next s' => some s'
  | .fault _ => none
  | .refused _ => none

/-- After `START 0` at reset. -/
def started : State := { on .n8 [] with cur := 0 }

theorem test_tick_too_early : (tick false 15 started).map (fun t => (t.result, t.mem, t.last[0])) =
    some (0, [], 0) := by decide +kernel
theorem test_tick_at_the_interval : (tick false 16 started).map
    (fun t => (t.result, t.mem, t.last[0], t.slots[0])) = some (1, [(0, 0x01)], 16, 1) := by
  decide +kernel
theorem test_tick_finishes : (tick true 100 { started with slots := Vector.replicate 5 2 }).map
    (fun t => ([t.result, t.cur, t.prev], t.mem, t.last[0], t.slots[0])) =
    some ([1, 0xFF, 0], [], 100, 0) := by decide +kernel

/-- R184's table E9. -/
theorem test_elapsed_wraps : elapsed 32 0xFFFFFFF0 0x10 = 32 ∧ elapsed 8 0xF0 0x02 = 18 := by
  decide
theorem test_elapsed_plain : elapsed 32 5 5 = 0 ∧ elapsed 32 0 0xFFFFFFFF = 4294967295 := by decide

/-- A random answer of 4 is out of range when `CUBE_N` = 4 and in range when it is 8. -/
theorem test_random_answer_range : drawRand .n4 [4] 0 = .error 4 ∧
    (drawRand .n8 [4, 1] 0).toOption.map (fun a => (a.1, a.2.1)) = some (4, [1]) := by decide

/-- `RST` with a command behind it. -/
theorem test_rst : (match step { running 2 with inputs := [.rst, .command 0 5] } with
    | .next t => some (t.mem, [t.cur, t.prev, t.bright], t.slots[0], t.last[0], t.inputs)
    | _ => none) = some ([], [0xFF, 0xFF, 200], 0, 0, [.command 0 5]) := by decide

theorem test_step_reserved : (match step { on .n8 [(9, 0x02)] with
      result := 1, inputs := [.command 0x7C123456 3] } with
    | .next t => some (t.mem, t.result, t.inputs)
    | _ => none) = some ([(9, 0x02)], 0, []) := by decide

/-! Witnesses: for each statement with hypotheses, a state and operands that meet them all. -/

/-- An idle state that has the word `w` offered to it at time 7, and one answer lined up. -/
def offered (w : CommandWord) : State :=
  { on .n4 [(7, 0x02)] with inputs := [.command w 7], rand := [3] }

theorem offered_idle (w : CommandWord) : (offered w).Idle where
  inv :=
    { mem_ok := by show memOk .n4 [(7, 0x02)]; decide
      cur_legal := .inr rfl
      prev_legal := .inr rfl
      bright_legal := by show (200#8).toNat ≤ (200#8).toNat; decide
      last_fits := by show ∀ t ∈ (Vector.replicate 5 0 : Stamps).toList, t < 2 ^ 32; decide }
  not_busy := rfl

theorem offered_rand (w : CommandWord) : (offered w).RandInRange := by
  show ∀ v ∈ [3#3], v.toNat < 4; decide

theorem witness_ResetPutsEveryRegisterAtItsResetValue :
    ∃ (s : State) (rest : List HostEvent), s.inputs = .rst :: rest ∧ rest ≠ [] ∧ s.busy = true :=
  ⟨{ running 2 with inputs := [.rst, .command 0 7], busy := true }, _, rfl, by decide, rfl⟩

theorem witness_EveryStepKeepsTheBlockInvariant :
    ∃ s t : State, s.Idle ∧ step s = .next t ∧ t.mem ≠ s.mem :=
  ⟨offered 0x08123000, _, offered_idle _, rfl, by decide⟩

theorem witness_StepRunsTheDecodedCommand : ∃ (s : State) (w : CommandWord) (now : Nat)
    (rest : List HostEvent) (i : Instr), s.inputs = .command w now :: rest ∧ s.busy = false ∧
      decode w = .command i :=
  ⟨offered 0x04123000, 0x04123000, 7, [], .setv 1 2 3, rfl, rfl, by decide⟩

theorem witness_NothingRunsUnlessACommandIsAccepted : (∃ s : State, s.inputs = [] ∧ s.mem ≠ []) ∧
    ∃ (s : State) (w : CommandWord) (now : Nat) (rest : List HostEvent),
      s.inputs = .command w now :: rest ∧ s.busy = true :=
  ⟨⟨running 2, rfl, by decide⟩, { offered 0x84000000 with busy := true }, 0x84000000, 7, [], rfl,
    rfl⟩

/-- `DONE` at its edges: a completed command, idling, `RST`, an offer that is not accepted. -/
theorem test_done : doneAfter (offered 0x04123000) = true ∧ doneAfter (running 2) = false ∧
    doneAfter { running 2 with inputs := [.rst] } = false ∧
    doneAfter { offered 0x04123000 with busy := true } = false := by decide

theorem witness_ReservedOpcodesChangeNoState : ∃ (s : State) (w : CommandWord) (now : Nat)
    (rest : List HostEvent) (op : Nat), s.inputs = .command w now :: rest ∧ s.busy = false ∧
      decode w = .reserved op :=
  ⟨offered 0x2C000000, 0x2C000000, 7, [], 0x0B, rfl, rfl, by decide⟩

theorem witness_EveryCommandCompletes : ∃ s : State, s.Inv ∧ s.RandInRange ∧ s.rand ≠ [] :=
  ⟨offered 0, (offered_idle 0).inv, offered_rand 0, by decide⟩

theorem witness_EveryStepFromIdleCompletes :
    ∃ s : State, s.Idle ∧ s.RandInRange ∧ s.inputs ≠ [] :=
  ⟨offered 0x88000000, offered_idle _, offered_rand _, by decide⟩

theorem witness_DecodeOfEncodeIsTheCommand : ∃ i : Instr, i.wellFormed = true :=
  ⟨.box .walls 15 0 7 1 15 15, by decide⟩

theorem witness_DecodedWordIsItsEncodingOnUsedBits : ∃ (w : CommandWord) (i : Instr),
    decode w = .command i ∧ w ≠ encode i :=
  ⟨0x07123FFF, .setv 1 2 3, by decide, by decide⟩

theorem witness_IgnoredBitsChangeNothing :
    (∃ (w w' : CommandWord) (i : Instr), decode w = .command i ∧
      w &&& usedBits i = w' &&& usedBits i ∧ w ≠ w') ∧
    ∃ i : Instr, i.wellFormed = true ∧ usedBits i ≠ 0xFFFFFFFF :=
  ⟨⟨0x64250000, 0x66AD1234, .byteline 2 5, by decide, by decide, by decide⟩,
    .shift .noAxis .plus, by decide, by decide⟩

theorem witness_LargeCoordinatesActAsFifteen :
    ∃ i : Instr, bitPositionsFit i = true ∧ i.wellFormed = false ∧
      largeAsFifteen i = .setv 15 0 15 :=
  ⟨.setv 16 0 99, by decide, by decide, rfl⟩

/-- Words the opcode map's rows are about, with bits set that the format ignores. -/
theorem witness_EncodedAs : (0x07123FFF &&& 0xFC000000 : CommandWord) = 0x04000000 ∧
    (0x4BFFFFFF &&& 0xFF000001 : CommandWord) = 0x4B000001 ∧
    (0x8BFFFFFE &&& 0xFC000001 : CommandWord) = 0x88000000 := by decide

theorem witness_DecoderPlacesVoxels : (63 < totalBytes .n8 ∧ totalBytes .n8 ≤ 64) ∧
    7 < totalBytes .n4 ∧ totalBytes .n4 ≤ 8 := by decide

theorem witness_DecoderIsABijection :
    (∃ p q : Coord, inRange .n4 p = true ∧ inRange .n4 q = true ∧
      byteAddr .n4 p = byteAddr .n4 q ∧ bitIx .n4 p = bitIx .n4 q) ∧
    (63 < totalBytes .n8 ∧ 7 < 8) :=
  ⟨⟨⟨3, 3, 3⟩, ⟨3, 3, 3⟩, by decide⟩, by decide⟩

theorem witness_VoxelWritesChangeOneBit : ∃ (p : Coord) (a i : Nat), inRange .n4 p = true ∧
    i < 8 ∧ ¬ (a = byteAddr .n4 p ∧ i = bitIx .n4 p) ∧ a = byteAddr .n4 p :=
  ⟨⟨3, 1, 0⟩, 0, 6, by decide⟩

theorem witness_RowsReadAndWriteTheirOwnVoxels : ∃ (g : Geometry) (y z x : Nat) (q : Coord),
    y < cubeN g ∧ z < cubeN g ∧ x < 8 ∧ cubeN g ≤ x ∧ inRange g q = true ∧ q.y = y ∧ q.z = z :=
  ⟨.n4, 3, 3, 4, ⟨3, 3, 3⟩, by decide⟩

theorem witness_RowsReadAndWriteTheirOwnVoxels_eight :
    ∃ (y z : Nat), y < cubeN .n8 ∧ z < cubeN .n8 ∧ 3 < z := ⟨7, 7, by decide⟩

theorem witness_DisplayReadIsExactWhenNotBusy : ∃ s : State, s.busy = false ∧ s.mem ≠ [] :=
  ⟨running 1, rfl, by decide⟩

theorem witness_BytelineAnswersTheBitRange :
    (∃ lo hi : Nat, hi ≤ 7 ∧ lo ≤ hi ∧ ∃ k, k < 8 ∧ lo ≤ k ∧ k ≤ hi) ∧
    ∃ lo hi : Nat, hi ≤ 7 ∧ hi < lo :=
  ⟨⟨7, 7, by decide, by decide, 7, by decide⟩, 7, 6, by decide⟩

theorem witness_RdbAnswersTheBufferByte :
    (∃ (s : State) (addr : Byte) (p : Coord), s.inCube p ∧
      byteAddr s.cfg.geometry p = addr.toNat ∧ s.voxel p = true) ∧
    ∃ (s : State) (addr : Byte), totalBytes s.cfg.geometry ≤ addr.toNat :=
  ⟨⟨on .n4 [(7, 0x80)], 7, ⟨3, 3, 3⟩, show inRange .n4 ⟨3, 3, 3⟩ = true by decide,
      show byteAddr .n4 ⟨3, 3, 3⟩ = (7#8).toNat by decide,
      show getV .n4 [(7, 0x80)] ⟨3, 3, 3⟩ = true by decide⟩,
    on .n4 [], 8, show totalBytes .n4 ≤ (8#8).toNat by decide⟩

/-- The coordinate clauses of the point, plane, box and line statements: in range at the edge,
the voxel itself and another, and out of range by one. -/
theorem witness_coordinates (s : State) (hs : s.cfg.geometry = .n8) :
    s.inCube ⟨7, 7, 7⟩ ∧ s.inCube ⟨0, 0, 0⟩ ∧ ¬ s.inCube ⟨8, 0, 0⟩ ∧ ¬ s.inCube ⟨0, 0, 8⟩ ∧
      cubeN s.cfg.geometry ≤ 8 := by
  unfold State.inCube; rw [hs]; decide

theorem witness_SetvSetsOneVoxel : ∃ (s : State) (c p q : Coord),
    s.inCube p ∧ p = c ∧ s.inCube q ∧ q ≠ c :=
  ⟨on .n8 [], ⟨7, 7, 7⟩, ⟨7, 7, 7⟩, ⟨0, 0, 0⟩, (witness_coordinates (on .n8 []) rfl).1, rfl,
    (witness_coordinates (on .n8 []) rfl).2.1, by decide⟩

theorem witness_BytesKeptOutside : ∃ (s : State) (c : Coord) (a : Nat),
    (∀ p, s.inCube p → p = c → byteAddr s.cfg.geometry p ≠ a) ∧ a < totalBytes s.cfg.geometry :=
  ⟨on .n8 [], ⟨7, 7, 7⟩, 62, by
    rintro p _ rfl; show byteAddr .n8 ⟨7, 7, 7⟩ ≠ 62; decide,
    show 62 < totalBytes .n8 by decide⟩

theorem witness_GetvAnswersTheVoxel : (∃ (s : State) (c : Coord), s.inCube c) ∧
    ∃ (s : State) (c : Coord), ¬ s.inCube c :=
  ⟨⟨on .n8 [], ⟨7, 7, 7⟩, (witness_coordinates (on .n8 []) rfl).1⟩,
    on .n8 [], ⟨8, 0, 0⟩, (witness_coordinates (on .n8 []) rfl).2.2.1⟩

theorem witness_SetPlaneCommandsSetTheirPlane : ∃ (s : State) (c : Nat),
    cubeN s.cfg.geometry ≤ c := ⟨on .n8 [], 8, (witness_coordinates (on .n8 []) rfl).2.2.2.2⟩

theorem witness_BoxAndLineOutOfRange : ∃ (s : State) (c d : Coord),
    ¬ (s.inCube c ∧ s.inCube d) ∧ s.inCube c :=
  ⟨on .n8 [], ⟨7, 7, 7⟩, ⟨0, 0, 8⟩,
    fun h => (witness_coordinates (on .n8 []) rfl).2.2.2.1 h.2,
    (witness_coordinates (on .n8 []) rfl).1⟩

theorem witness_BoxFilledSetsTheBox : ∃ (s : State) (c d : Coord), s.inCube c ∧ s.inCube d ∧
    (∃ p, s.inCube p ∧ inTheBox c d p) ∧ d.x < c.x :=
  ⟨on .n8 [], ⟨7, 7, 7⟩, ⟨0, 0, 0⟩, (witness_coordinates (on .n8 []) rfl).1,
    (witness_coordinates (on .n8 []) rfl).2.1,
    ⟨⟨7, 7, 7⟩, (witness_coordinates (on .n8 []) rfl).1, by decide⟩, by decide⟩

theorem witness_LineLaws : ∃ (s : State) (c d p q : Coord), s.inCube c ∧ s.inCube d ∧ c.x < d.x ∧
    c.y = d.y ∧ c.z = d.z ∧ s.inCube p ∧ s.inCube q ∧ s.voxel p = false ∧ s.voxel q = false ∧
    p.x ≤ q.x :=
  ⟨on .n8 [], ⟨0, 3, 3⟩, ⟨7, 3, 3⟩, ⟨0, 3, 3⟩, ⟨1, 3, 3⟩, by
    unfold State.inCube State.voxel
    show _ ∧ _ ∧ _ ∧ _ ∧ _ ∧ _ ∧ _ ∧ getV .n8 [] ⟨0, 3, 3⟩ = false ∧
      getV .n8 [] ⟨1, 3, 3⟩ = false ∧ _
    decide⟩

/-- The statements about CLRV, TGLV and ALTV have the hypotheses of SETV's; that about the clear
planes has those of the set planes'. -/
theorem witness_ClrvTglvAltvAndClearPlanes : ∃ (s : State) (c p q : Coord),
    s.inCube p ∧ p = c ∧ s.inCube q ∧ q ≠ c ∧ cubeN s.cfg.geometry ≤ 8 :=
  ⟨on .n8 [], ⟨0, 0, 0⟩, ⟨0, 0, 0⟩, ⟨7, 7, 7⟩, (witness_coordinates (on .n8 []) rfl).2.1, rfl,
    (witness_coordinates (on .n8 []) rfl).1, by decide,
    (witness_coordinates (on .n8 []) rfl).2.2.2.2⟩

theorem witness_PointCommandLaws : (∃ (s : State) (c p : Coord), s.inCube c ∧ s.inCube p ∧ p ≠ c) ∧
    ∃ (s : State) (c : Coord), ¬ s.inCube c :=
  ⟨⟨on .n8 [], ⟨7, 7, 7⟩, ⟨0, 0, 0⟩, (witness_coordinates (on .n8 []) rfl).1,
    (witness_coordinates (on .n8 []) rfl).2.1, by decide⟩,
    on .n8 [], ⟨0, 0, 8⟩, (witness_coordinates (on .n8 []) rfl).2.2.2.1⟩

theorem witness_FillStoresEveryByte : ∃ (s : State) (a : Nat) (p : Coord),
    a < totalBytes s.cfg.geometry ∧ s.inCube p ∧ a = 63 :=
  ⟨on .n8 [], 63, ⟨7, 7, 7⟩, show 63 < totalBytes .n8 by decide,
    (witness_coordinates (on .n8 []) rfl).1, rfl⟩

/-- A row of a face, a row between the faces with a side voxel and one without, a row
outside. -/
theorem witness_BoxWallsAndBoxFrame : ∃ (c d f e i o : Coord),
    inTheBox c d f ∧ atBound c.y d.y f.y ∧ ¬ atBound c.z d.z f.z ∧
    inTheBox c d e ∧ atBound c.x d.x e.x ∧ ¬ atBound c.y d.y e.y ∧ ¬ atBound c.z d.z e.z ∧
    inTheBox c d i ∧ ¬ atBound c.x d.x i.x ∧ ¬ atBound c.y d.y i.y ∧ ¬ atBound c.z d.z i.z ∧
    ¬ between c.y d.y o.y ∧ inRange .n8 c = true ∧ inRange .n8 d = true ∧ inRange .n8 o = true :=
  ⟨⟨5, 5, 5⟩, ⟨2, 2, 2⟩, ⟨3, 2, 3⟩, ⟨5, 3, 4⟩, ⟨3, 3, 3⟩, ⟨3, 6, 3⟩, by decide⟩

theorem witness_LineSetsTheRoundedVoxels : ∃ (c d p : Coord), inRange .n8 c = true ∧
    inRange .n8 d = true ∧ inRange .n8 p = true ∧ c.x < d.x ∧ onLine c d p :=
  ⟨⟨0, 3, 0⟩, ⟨2, 2, 0⟩, ⟨1, 2, 0⟩, by decide, by decide, by decide, by decide,
    1, by decide, by decide, by decide, by decide⟩

theorem witness_RepeatedShiftsAndShiftThereAndBack : ∃ (s : State) (axis : Axis) (p q : Coord),
    axis ≠ .noAxis ∧ s.inCube p ∧ along axis p = 0 ∧ s.inCube q ∧ along axis q ≠ 0 :=
  ⟨on .n8 [], .z, ⟨0, 0, 0⟩, ⟨7, 7, 7⟩, by decide, (witness_coordinates (on .n8 []) rfl).2.1, rfl,
    (witness_coordinates (on .n8 []) rfl).1, by decide⟩

theorem witness_SequencerLaws : ∃ index : Byte, index.toNat < 5 ∧ index = 4 := ⟨4, by decide⟩

theorem witness_ShiftMovesEveryVoxel : ∃ (s : State) (x y z : Nat), s.inCube ⟨x, y, z⟩ ∧
    x = cubeN s.cfg.geometry - 1 :=
  ⟨on .n8 [], 7, 7, 7, (witness_coordinates (on .n8 []) rfl).1, rfl⟩

theorem witness_InPlaceShiftGivesTheSameBuffer : ∃ (g : Geometry) (axis : Axis) (m : Memory),
    axis ≠ .noAxis ∧ memOk g m ∧ m ≠ [] := ⟨.n8, .z, [(0, 0x01), (63, 0x80)], by decide⟩

theorem witness_StartResetsAndActivates : (∃ index : Byte, index.toNat < 5 ∧ index = 4) ∧
    ∃ index : Byte, 5 ≤ index.toNat ∧ index = 5 := by decide +kernel

theorem witness_ElapsedIsTheWrappedDifference : ∃ w t1 t2 : Nat, t1 < 2 ^ w ∧ t2 < 2 ^ w ∧
    t2 < t1 := ⟨8, 0xF0, 0x10, by decide⟩

theorem witness_ElapsedIsTheWrappedDifference_plain : ∃ w t1 t2 : Nat, t1 < 2 ^ w ∧ t2 < 2 ^ w ∧
    t1 ≤ t2 := ⟨8, 0xFF, 0xFF, by decide⟩

theorem witness_TickIsGatedAndRunsOneEffectStep_gate :
    (∃ s : State, s.cur = 0xFF) ∧
    ∃ (p : EffectParams) (s : State) (i : Fin 5), s.cur = BitVec.ofNat 8 i ∧
      elapsed s.cfg.clkW s.last[i] s.now < effectInterval p s.cfg i s.slots :=
  ⟨⟨on .n8 [], rfl⟩, stub, { started with now := 15 }, 0, rfl, by decide⟩

theorem witness_TickIsGatedAndRunsOneEffectStep (fin : Bool) :
    ∃ (p : EffectParams) (sf : Bool) (s : State) (i : Fin 5) (r : EffectResult),
      s.cur = BitVec.ofNat 8 i ∧
      effectInterval p s.cfg i s.slots ≤ elapsed s.cfg.clkW s.last[i] s.now ∧
      runEffect s.cfg (p.step s.cfg i s.slots s.mem s.bright sf) s.mem s.rand s.freeIx = .ok r ∧
      r.fin = fin :=
  ⟨stub, fin, { started with now := 16 }, 0, _, rfl, by decide, rfl, rfl⟩

/-- The build's own effects with a clock of no bits: the gate is open whatever the interval. -/
def openGate : State :=
  { State.resetWith ⟨.n4, 0, 200⟩ with cur := 4, now := 1, rand := [3] }

theorem openGate_open : effectInterval Config.effects openGate.cfg 4 openGate.slots ≤
    elapsed openGate.cfg.clkW openGate.last[4] openGate.now := by
  have h : effectInterval Config.effects openGate.cfg 4 openGate.slots = 0 := by
    show Config.effects.interval _ _ _ % 2 ^ 0 = 0
    rw [pow_zero, Nat.mod_one]
  rw [h]; exact Nat.zero_le _

theorem openGate_rand : openGate.RandInRange := by
  show ∀ v ∈ [3#3], v.toNat < 4; decide

theorem witness_ProcessStepsWhenTheGateIsOpen : ∃ (s : State) (i : Fin 5),
    s.cur = BitVec.ofNat 8 i ∧ s.RandInRange ∧
      effectInterval Config.effects s.cfg i s.slots ≤ elapsed s.cfg.clkW s.last[i] s.now :=
  ⟨openGate, 4, rfl, openGate_rand, openGate_open⟩

theorem witness_EffectStepDrawsOnlyByCommands_op : ∃ (i : Instr) (s t : State),
    drawingCommand i = true ∧ exec i s = .next t ∧ t.mem ≠ s.mem :=
  ⟨.setv 3 3 3, running 2, _, rfl, rfl, by decide⟩

theorem witness_EffectStepDrawsOnlyByCommands_draw : ∃ (cfg : Config) (v : RandVal),
    v.toNat < cubeN cfg.geometry ∧ v.toNat = cubeN cfg.geometry - 1 :=
  ⟨⟨.n4, 32, 200⟩, 3, by decide⟩

theorem witness_EffectStepDrawsOnlyByCommands_done : ∃ (cfg : Config) (bright : Byte),
    bright.toNat ≤ cfg.brightnessMax.toNat ∧ bright = 200 := ⟨⟨.n4, 32, 200⟩, 200, by decide⟩

/-- Two commands around a draw: what the step met, in its order. -/
theorem test_ops_along : opsAlong .n4 (.op (.fill 0) (.draw fun v =>
    .op (.setpz v.toNat) (.done zeroSlots 0 false))) [3] 0 = [.fill 0, .setpz 3] := by decide

theorem witness_EffectStepDrawsOnlyByCommands : ∃ (cfg : Config) (prog : EffectProg) (m : Memory)
    (rand : List RandVal) (r : EffectResult), runEffect cfg prog m rand 0 = .ok r ∧ r.mem ≠ m :=
  ⟨⟨.n4, 32, 200⟩, .draw fun v => .op (.setv v.toNat 0 0) (.done zeroSlots 1 false), [], [3], _,
    rfl, by decide⟩

theorem witness_RandomAnswerOutOfRangeHasNoRun :
    ∃ (p : EffectParams) (sf : Bool) (s : State) (i : Fin 5) (k : RandVal → EffectProg)
      (v : RandVal) (rest : List RandVal), s.cur = BitVec.ofNat 8 i ∧
      effectInterval p s.cfg i s.slots ≤ elapsed s.cfg.clkW s.last[i] s.now ∧
      p.step s.cfg i s.slots s.mem s.bright sf = .draw k ∧ s.rand = v :: rest ∧
      cubeN s.cfg.geometry ≤ v.toNat :=
  ⟨⟨fun _ _ _ => 0, fun _ _ slots _ b sf => .draw fun _ => .done slots b sf, fun _ => 1,
    fun _ => 0⟩, false,
    { running 1 with rand := [4] }, 1, _, 4, [], rfl, by
      show effectInterval _ ⟨.n4, 32, 200⟩ 1 _ ≤ _
      exact Nat.zero_le _, rfl, rfl, by decide⟩

/-- An effect that asks to finish at its second step after a request: slot 0 counts. -/
def twoSteps : EffectParams where
  interval := fun _ _ _ => 0
  step := fun _ _ slots _ bright sf =>
    .done (slots.set 0 1) bright (sf && slots[0] == 1)
  cycleBound := fun _ => 2
  axisCode := sampleEffects.axisCode

theorem twoSteps_graceful : GracefulFinish twoSteps := by
  intro cfg i slots bright _ _ _ m rand k r _ h
  refine .inr fun m' rand' k' r' _ h' => .inl ?_
  cases h
  cases h'
  simp

/-- Effect `k` of a build with `CUBE_N` = 4, just started. -/
def justStarted (k : Byte) : State := { on .n4 [] with cur := k }

theorem justStarted_inCycle (p : EffectParams) (k : Byte) : (justStarted k).InCycle p :=
  fun _ => .start

theorem sameEffect_refl {s : State} (h : memOk s.cfg.geometry s.mem) : SameEffect s s :=
  ⟨rfl, rfl, rfl, rfl, h⟩

theorem witness_GracefulFinishBoundsTheUnfinishedRun : ∃ (p : EffectParams) (n : Nat)
    (s : State), GracefulFinish p ∧ s.cfg.wellFormed = true ∧ s.cur.toNat < 5 ∧ s.InCycle p ∧
      SteppedUnfinished p n s ∧ n ≠ 0 :=
  ⟨twoSteps, 1, justStarted 4, twoSteps_graceful, by decide, by decide,
    justStarted_inCycle _ _,
    ⟨_, ⟨justStarted 4, sameEffect_refl (memOk_nil _), rfl, rfl, rfl⟩, trivial⟩, by decide⟩

theorem witness_EveryStepKeepsTheEffectsCycle : ∃ s t : State, s.Idle ∧
    s.InCycle Config.effects ∧ step s = .next t ∧ s.cur = 2 ∧ t.cur = 2 ∧ t.mem ≠ s.mem :=
  ⟨{ offered 0x08123000 with cur := 2 }, _,
    ⟨{ (offered_idle 0x08123000).inv with cur_legal := .inl (by decide) }, rfl⟩,
    fun _ => .start, rfl, rfl, rfl, by decide⟩

/-- Slots along one axis with these positions. -/
def positions (l : List (BitVec 16)) (k : Nat) : Slots := zeroSlots.set 1 (l.getD k 0)

/-- R188, `CUBE_N` = 4: a position that goes 1, 2, 2, 1 or 2, 1, 1, 1, 2 has turned inside the
cube, the rest notwithstanding. -/
theorem test_bounces_not_inside :
    ¬ BouncesAtBounds .n4 (positions [1, 2, 2, 1]) 3 ∧
    ¬ BouncesAtBounds .n4 (positions [2, 1, 1, 1, 2]) 4 :=
  ⟨fun h => absurd (h 0 3 2 (by decide) (fun _ _ _ => rfl)
      ⟨by decide, fun k h1 h2 => by interval_cases k <;> rfl, by decide⟩) (by decide),
    fun h => absurd (h 0 4 1 (by decide) (fun _ _ _ => rfl)
      ⟨by decide, fun k h1 h2 => by interval_cases k <;> rfl, by decide⟩) (by decide)⟩

/-- One that goes 2, 3, 3, 2, 1, 0, 1 has turned at 3 and at 0, as it must. -/
theorem test_bounces_at_bounds :
    BouncesAtBounds .n4 (positions [2, 3, 3, 2, 1, 0, 1]) 6 ∧
    TurnsAt (positions [2, 3, 3, 2, 1, 0, 1]) 0 3 3 ∧
    TurnsAt (positions [2, 3, 3, 2, 1, 0, 1]) 4 6 0 := by
  refine ⟨?_, ⟨by decide, fun k h1 h2 => by interval_cases k <;> rfl, by decide⟩,
    ⟨by decide, fun k h1 h2 => by interval_cases k; rfl, by decide⟩⟩
  rintro a b q hb - ⟨hab, hr, ht⟩
  have hq := hr (a + 1) (by omega) (by omega)
  clear hr
  subst hq
  have ha : a ≤ 4 := by omega
  interval_cases a <;> interval_cases b <;> revert ht <;> decide

theorem test_axis_cycle : nextAxis .z = .y ∧ nextAxis .y = .x ∧ nextAxis .x = .z := by decide

/-- Effect 2 of `sampleEffects` at phase `t` of its cycle, `CUBE_N` = 4. -/
def samplePhase (t : Nat) : State :=
  { justStarted 2 with slots := sampleSlots .n4 t, result := 0x01 }

theorem samplePhase_tick (t : Nat) (ht : t < 12) :
    processWith sampleEffects false (samplePhase t) = .next (samplePhase ((t + 1) % 12)) := by
  interval_cases t <;> rfl

theorem samplePhase_run (n : Nat) : TickRun sampleEffects (justStarted 2).cfg 2 (fun _ => false)
    (fun k => samplePhase (k % 12)) n where
  build := rfl
  running := rfl
  in_cycle := fun _ => .start
  ticks := fun k _ => ⟨_, sameEffect_refl (memOk_nil _), by
    rw [samplePhase_tick _ (Nat.mod_lt _ (by decide)), Nat.mod_add_mod], rfl, rfl⟩

/-- An endless run that turns at the far end along one axis, then at 0, and leaves the axis. -/
theorem witness_RegisteredEffectsKeepTheirSlots : ∃ (p : EffectParams) (cfg : Config)
    (run : Nat → State), Admissible p ∧ cfg.wellFormed = true ∧
    (∀ n, TickRun p cfg 2 (fun _ => false) run n) ∧
    OneAxis (fun k => (run k).slots) 4 7 ∧ TurnsAt (fun k => (run k).slots) 4 6 3 ∧
    TurnsAt (fun k => (run k).slots) 5 7 0 ∧ (run 7).slots[0] ≠ (run 8).slots[0] :=
  ⟨sampleEffects, _, _, sampleEffects_admissible, by decide, samplePhase_run,
    fun k h1 h2 => by interval_cases k <;> rfl,
    ⟨by decide, fun k h1 h2 => by interval_cases k; rfl, by decide⟩,
    ⟨by decide, fun k h1 h2 => by interval_cases k; rfl, by decide⟩, by decide⟩

theorem witness_RegisteredEffectsKeepTheirSlots_blink : ∃ cfg : Config, cfg.wellFormed = true ∧
    0 < cfg.clkW ∧ cfg.clkW = 1 := ⟨⟨.n4, 1, 1⟩, by decide⟩

theorem witness_CurMovesOnlyAsTheTableSays :
    (∃ s t : State, exec (.start 4) s = .next t) ∧ (∃ s t : State, exec .finish s = .next t) ∧
    ∃ (i : Instr) (s t : State), exec i s = .next t ∧ sequencerCommand i = false :=
  ⟨⟨running 2, _, rfl⟩, ⟨running 2, _, rfl⟩, .nop, running 2, _, rfl, rfl⟩

theorem witness_PrevIsWrittenOnlyByAFinish : ∃ (i : Instr) (s t : State), exec i s = .next t ∧
    t.prev ≠ s.prev := ⟨.finish, running 2, _, rfl, by decide⟩

theorem witness_LastIsWrittenOnlyByProcess : ∃ (i : Instr) (s t : State), exec i s = .next t ∧
    t.last ≠ s.last := by
  obtain ⟨r, hr⟩ := runEffect_total
    (Config.effects.step openGate.cfg 4 openGate.slots openGate.mem openGate.bright false)
    openGate.mem openGate.rand openGate.freeIx openGate_rand
  refine ⟨.process false, openGate, completed 0x01 (afterStep 4 r openGate), ?_, ?_⟩
  · have h : exec (.process false) openGate =
        if gateOpen Config.effects 4 openGate then stepEffect Config.effects 4 false openGate
        else complete 0x00 openGate := rfl
    have hg : gateOpen Config.effects 4 openGate = true := decide_eq_true openGate_open
    rw [h, if_pos hg, stepEffect, hr]
    rfl
  · rw [completed_last, afterStep_last]; decide

theorem witness_BrightAndSlotsAreWrittenOnlyBySequencer : ∃ (i : Instr) (s t : State),
    exec i s = .next t ∧ t.bright ≠ s.bright ∧ t.slots ≠ s.slots :=
  ⟨.start 1, running 2, _, rfl, by decide, by decide⟩

theorem witness_BufferIsWrittenOnlyByDrawingAndSequencer : ∃ (i : Instr) (s t : State),
    exec i s = .next t ∧ t.mem ≠ s.mem ∧ drawingCommand i = true :=
  ⟨.setv 0 0 0, running 2, _, rfl, by decide, rfl⟩

theorem witness_HiddenStateShowsOnlyThroughProcess : ∃ (i : Instr) (s t : State),
    (∀ sf, i ≠ .process sf) ∧ exec i s = .next t :=
  ⟨.finish, running 2, _, by simp, rfl⟩

end Sys2Proof.Tests
end

section
/-!
What a command that completes leaves, said once (`Completes`), and what follows from it: the block's
invariant (10_state.md R22 to R28, R53) and which command writes which register.
-/

namespace Sys2Proof.Machine

open Sys2Proof

/-! START's state (R182). -/

/-- What START writes before it completes (R182). -/
def startAction (index : Byte) (s : State) : State :=
  { s with
    mem := clearBuffer s.cfg.geometry s.mem
    bright := s.cfg.brightnessMax
    slots := zeroSlots
    cur := if index.toNat < effectsCount then index else s.cur }

theorem execStart_eq (index : Byte) (s : State) :
    execStart index s = .next (completed 0x00 (startAction index s)) := rfl

@[simp] theorem startAction_mem (index : Byte) (s : State) :
    (startAction index s).mem = clearBuffer s.cfg.geometry s.mem := rfl
@[simp] theorem startAction_cur (index : Byte) (s : State) :
    (startAction index s).cur = if index.toNat < effectsCount then index else s.cur := rfl
@[simp] theorem startAction_prev (index : Byte) (s : State) :
    (startAction index s).prev = s.prev := rfl
@[simp] theorem startAction_bright (index : Byte) (s : State) :
    (startAction index s).bright = s.cfg.brightnessMax := rfl
@[simp] theorem startAction_slots (index : Byte) (s : State) :
    (startAction index s).slots = zeroSlots := rfl
@[simp] theorem startAction_last (index : Byte) (s : State) :
    (startAction index s).last = s.last := rfl
@[simp] theorem startAction_cfg (index : Byte) (s : State) :
    (startAction index s).cfg = s.cfg := rfl

/-! What a completing command leaves. -/

/-- The ways a command can complete, with the state each leaves. A query may move the model's
counter of free values on (log 10); a tick waits or steps the running effect (R185). -/
inductive Completes : Instr → State → State → Prop where
  | draw {i : Instr} {s : State} (drawing : drawingCommand i = true) :
      Completes i s (completed 0x00 (withMem (drawInstr s.cfg.geometry i s.mem) s))
  | query {i : Instr} {s : State} (noDrawing : drawingCommand i = false)
      (noSequencer : sequencerCommand i = false) (r : Byte) {k : Nat}
      (counter : k = s.freeIx ∨ k = s.freeIx + 1) :
      Completes i s (completed r { s with freeIx := k })
  | start {s : State} (index : Byte) :
      Completes (.start index) s (completed 0x00 (startAction index s))
  | finish {s : State} : Completes .finish s (completed 0x00 (finishAction s))
  | wait {s : State} (sf : Bool)
      (waits : s.cur = noneEffect ∨ gateOpen Config.effects s.cur.toNat s = false) :
      Completes (.process sf) s (completed 0x00 s)
  | tick {s : State} (sf : Bool) (r : EffectResult) (running : s.cur.toNat < effectsCount)
      (gate : gateOpen Config.effects s.cur.toNat s = true)
      (ran : runEffect s.cfg (Config.effects.step s.cfg s.cur.toNat s.slots s.mem s.bright sf)
        s.mem s.rand s.freeIx = .ok r) :
      Completes (.process sf) s (completed 0x01 (afterStep s.cur.toNat r s))

/-- A tick that completes waits or steps the running effect. -/
theorem completes_of_processWith {sf : Bool} {s t : State}
    (h : processWith Config.effects sf s = .next t) : Completes (.process sf) s t := by
  rcases processWith_cases Config.effects sf s with ⟨hn, h'⟩ | ⟨_, _, hg, h'⟩ |
    ⟨_, hc, hg, r, hr, h'⟩ | ⟨_, _, _, v, _, h'⟩ | ⟨_, h'⟩ <;> rw [h'] at h <;> cases h
  · exact .wait sf (.inl hn)
  · exact .wait sf (.inr hg)
  · exact .tick sf r hc hg hr

/-- Everything a command that completes can have done. -/
theorem completes_of_exec {i : Instr} {s t : State} (h : exec i s = .next t) :
    Completes i s t := by
  rcases exec_cases i s with ⟨hd, h'⟩ | ⟨hd, hs, r, h' | h'⟩ | ⟨index, rfl, h'⟩ | ⟨rfl, h'⟩ |
    ⟨sf, rfl, h'⟩ <;> rw [h'] at h
  · cases h; exact .draw hd
  · cases h; exact .query hd hs r (.inl rfl)
  · cases h; exact .query hd hs r (.inr rfl)
  · rw [execStart_eq] at h; cases h; exact .start index
  · cases h; exact .finish
  · exact completes_of_processWith h

/-- No command changes the build (R31), and every command leaves `BUSY` 0 (R28). -/
theorem Completes.cfg_busy {i : Instr} {s t : State} (h : Completes i s t) :
    t.cfg = s.cfg ∧ t.busy = false := by
  cases h <;> simp

/-! The invariant, one lemma per update of the state. -/

/-- A store into `LAST` adds no timestamp but the one it stores. -/
theorem eq_or_mem_of_mem_setLast {last : Stamps} {i v t : Nat}
    (h : t ∈ (setLast last i v).toList) : t = v ∨ t ∈ last.toList := by
  rw [setLast, Vector.toList_setIfInBounds] at h
  exact (List.mem_or_eq_of_mem_set h).symm

namespace State.Inv

theorem completed {s : State} (h : s.Inv) (r : Byte) : (completed r s).Inv :=
  ⟨h.mem_ok, h.cur_legal, h.prev_legal, h.bright_legal, h.last_fits⟩

theorem withMem {s : State} (h : s.Inv) {m : Memory} (hm : memOk s.cfg.geometry m) :
    (withMem m s).Inv :=
  ⟨hm, h.cur_legal, h.prev_legal, h.bright_legal, h.last_fits⟩

theorem withFreeIx {s : State} (h : s.Inv) (k : Nat) : ({ s with freeIx := k } : State).Inv :=
  ⟨h.mem_ok, h.cur_legal, h.prev_legal, h.bright_legal, h.last_fits⟩

theorem accept {s : State} (h : s.Inv) (now : Nat) (rest : List HostEvent) :
    (accept now rest s).Inv :=
  ⟨h.mem_ok, h.cur_legal, h.prev_legal, h.bright_legal, h.last_fits⟩

theorem finishAction {s : State} (h : s.Inv) : (finishAction s).Inv :=
  ⟨memOk_clearBuffer h.mem_ok, .inr rfl, h.cur_legal, h.bright_legal, h.last_fits⟩

theorem startAction {s : State} (h : s.Inv) (index : Byte) : (startAction index s).Inv where
  mem_ok := memOk_clearBuffer h.mem_ok
  cur_legal := by
    rw [startAction_cur]
    split
    · exact .inl ‹_›
    · exact h.cur_legal
  prev_legal := h.prev_legal
  bright_legal := le_rfl
  last_fits := h.last_fits

/-- An effect step keeps the invariant when it leaves a canonical buffer and a legal
brightness, at a time that fits the clock. -/
theorem afterStep {s : State} (h : s.Inv) (i : Nat) {r : EffectResult}
    (hm : memOk s.cfg.geometry r.mem) (hb : r.bright.toNat ≤ s.cfg.brightnessMax.toNat)
    (hnow : s.now < 2 ^ s.cfg.clkW) : (afterStep i r s).Inv where
  mem_ok := by
    rw [afterStep_mem, afterStep_cfg]
    split
    · exact memOk_clearBuffer hm
    · exact hm
  cur_legal := by
    rw [afterStep_cur]
    split
    · exact .inr rfl
    · exact h.cur_legal
  prev_legal := by
    rw [afterStep_prev]
    split
    · exact h.cur_legal
    · exact h.prev_legal
  bright_legal := by rwa [afterStep_bright, afterStep_cfg]
  last_fits := by
    rw [afterStep_last, afterStep_cfg]
    intro t ht
    rcases eq_or_mem_of_mem_setLast ht with rfl | ht
    · exact hnow
    · exact h.last_fits t ht

end State.Inv

/-- `RST` leaves the invariant, from any state (R240). -/
theorem inv_assertRst (s : State) : (assertRst s).Inv where
  mem_ok := memOk_nil _
  cur_legal := .inr rfl
  prev_legal := .inr rfl
  bright_legal := le_rfl
  last_fits := by
    intro t ht
    rw [assertRst_last, Vector.mem_toList_iff, Vector.mem_replicate] at ht
    rw [ht.2]
    exact Nat.two_pow_pos _

/-- A command keeps the invariant when `NOW` was sampled on the clock's wires. -/
theorem Completes.inv {i : Instr} {s t : State} (h : Completes i s t) (hs : s.Inv)
    (hnow : s.now < 2 ^ s.cfg.clkW) : t.Inv := by
  cases h with
  | draw => exact (hs.withMem (memOk_drawInstr hs.mem_ok i)).completed _
  | query _ _ r => exact (hs.withFreeIx _).completed r
  | start index => exact (hs.startAction index).completed _
  | finish => exact hs.finishAction.completed _
  | wait => exact hs.completed _
  | tick sf r _ _ hr =>
    obtain ⟨hm, hb, -⟩ := runEffect_ok _ hr hs.mem_ok
    exact (hs.afterStep _ hm hb hnow).completed _

/-- Settles O3: each event a step can take keeps the invariant, a command from the state it is
accepted in. -/
theorem everyStepKeepsTheBlockInvariant : Obligations.EveryStepKeepsTheBlockInvariant := by
  intro s t hs h
  rcases step_cases s with ⟨_, h'⟩ | ⟨rest, _, h'⟩ | ⟨_, _, _, _, _, h'⟩ |
    ⟨w, now, rest, i, _, _, _, h'⟩ | ⟨w, now, rest, _, _, _, _, h'⟩ <;> rw [h'] at h
  · cases h; exact ⟨hs, rfl⟩
  · cases h; exact ⟨⟨inv_assertRst _, rfl⟩, rfl⟩
  · cases h
  · have hc := completes_of_exec h
    obtain ⟨hcfg, hbusy⟩ := hc.cfg_busy
    exact ⟨⟨hc.inv (hs.inv.accept now rest) (sampleNow_lt s.cfg now), hbusy⟩, hcfg⟩
  · cases h; exact ⟨⟨(hs.inv.accept now rest).completed _, rfl⟩, rfl⟩

/-! Which command writes which register. -/

/-- Settles O54: only a finish writes `PREV`, and a tick finishes when its effect step asks to. -/
theorem prevIsWrittenOnlyByAFinish : Obligations.PrevIsWrittenOnlyByAFinish := by
  intro i s t h hne
  cases completes_of_exec h with
  | finish => exact ⟨.inl rfl, rfl, rfl⟩
  | tick sf r =>
    have hfin : r.fin = true := by
      by_contra hf
      simp [hf] at hne
    simp [hfin, noneEffect]
  | _ => exact absurd rfl hne

/-- Settles O55: only a tick that steps its effect writes `LAST`, by `setLast` at `CUR`. -/
theorem lastIsWrittenOnlyByProcess : Obligations.LastIsWrittenOnlyByProcess := by
  intro i s t h hne
  cases completes_of_exec h with
  | tick sf r hc =>
    refine ⟨⟨sf, rfl⟩, ⟨s.cur.toNat, hc⟩, by simp, by simp [setLast], fun j hj => ?_⟩
    have hj' : s.cur.toNat ≠ j := fun e => hj (Fin.ext e.symm)
    simp [setLast, Vector.getElem_setIfInBounds_ne, hj']
  | _ => exact absurd rfl hne

/-- Whatever buffer it starts from, an effect step leaves a legal brightness (R24, log 4). -/
theorem runEffect_bright_le {cfg : Config} (prog : EffectProg) :
    ∀ {m : Memory} {rand : List RandVal} {k : Nat} {r : EffectResult},
      runEffect cfg prog m rand k = .ok r → r.bright.toNat ≤ cfg.brightnessMax.toNat := by
  induction prog with
  | done slots bright fin =>
    intro m rand k r h
    cases h
    exact legalBright_le cfg bright
  | op i rest ih => exact fun h => ih h
  | draw rest ih =>
    intro m rand k r h
    rw [runEffect] at h
    split at h
    · exact ih _ h
    · cases h

/-- Settles O56: START writes the maximum, an effect step what `runEffect_bright_le` limits. -/
theorem brightAndSlotsAreWrittenOnlyBySequencer :
    Obligations.BrightAndSlotsAreWrittenOnlyBySequencer := by
  intro i s t h
  cases completes_of_exec h with
  | start index => exact ⟨fun _ => ⟨.inl ⟨index, rfl⟩, le_rfl⟩, fun _ => rfl⟩
  | finish => exact ⟨fun hne => absurd rfl hne, fun _ => rfl⟩
  | tick sf r _ _ hr =>
    refine ⟨fun _ => ⟨.inr ⟨sf, rfl⟩, ?_⟩, fun _ => rfl⟩
    rw [completed_bright, afterStep_bright]
    exact runEffect_bright_le _ hr
  | _ => exact ⟨fun hne => absurd rfl hne, fun hne => absurd rfl hne⟩

/-- Settles O57: a query leaves the buffer, and a drawing command leaves `drew_completed`. -/
theorem bufferIsWrittenOnlyByDrawingAndSequencer :
    Obligations.BufferIsWrittenOnlyByDrawingAndSequencer := by
  intro i s t h
  have hc := completes_of_exec h
  obtain ⟨hcfg, hbusy⟩ := hc.cfg_busy
  refine ⟨hcfg, hbusy, ?_⟩
  cases hc with
  | draw hd => exact ⟨fun _ => .inl hd, fun _ => drew_completed _ s⟩
  | query hd => exact ⟨fun hne => absurd rfl hne, fun hd' => Bool.noConfusion (hd.symm.trans hd')⟩
  | _ => exact ⟨fun _ => .inr rfl, fun hd => Bool.noConfusion hd⟩

/-- Settles O4: an idle block accepts the offered word, and `accept` is the state O4 names. -/
theorem stepRunsTheDecodedCommand : Obligations.StepRunsTheDecodedCommand := by
  intro s w now rest i hin hbusy hdec
  have hready : cmdReady s = true := by simp [cmdReady, hbusy]
  rw [step, hin]
  simp only [hready, if_true, runWord, hdec]
  rfl

end Sys2Proof.Machine
end

section
/-!
The memory family (20_memory.md): the decoder, the one bit a voxel write changes, rows, `MemRead`
and `MemWrite`, the display port, and the range test that INRANGE answers.
-/

namespace Sys2Proof.Machine

open Sys2Proof

/-! The decoder. -/

/-- Settles O15: by the arithmetic of `place` (R43, R44), of which the decoder's laws speak. -/
theorem decoderIsABijection : Obligations.DecoderIsABijection :=
  ⟨fun _ _ hp => ⟨byteAddr_lt hp, bitIx_lt hp⟩, fun _ _ _ => place_injective,
    fun _ _ _ => place_surjective, rfl, rfl⟩

/-! The bits a voxel write leaves alone (R46). -/

theorem getLsbD_bitMask_other {i j : Nat} (hi : i < 8) (hij : j ≠ i) :
    (bitMask i).getLsbD j = false := by
  rw [getLsbD_bitMask i j hi, decide_eq_false hij.symm]

/-- A store keeps a bit of the buffer when the stored byte has that bit as before, or the bit is of
another byte. -/
theorem getLsbD_memWrite_other (m : Memory) {a b i : Nat} {v : Byte}
    (hv : b = a → v.getLsbD i = (lookupByte m a).getLsbD i) :
    (lookupByte (memWrite m a v) b).getLsbD i = (lookupByte m b).getLsbD i := by
  by_cases hab : a = b
  · subst hab
    rw [lookupByte_memWrite_same, hv rfl]
  · rw [lookupByte_memWrite_other m v hab]

section
variable {g : Geometry} (m : Memory) {p : Coord} {a i : Nat} (hp : inRange g p = true)
  (hother : ¬ (a = byteAddr g p ∧ i = bitIx g p))
include hp hother

theorem getLsbD_bitMask_of_other_place (ha : a = byteAddr g p) :
    (bitMask (bitIx g p)).getLsbD i = false :=
  getLsbD_bitMask_other (bitIx_lt hp) fun hi => hother ⟨ha, hi⟩

theorem getLsbD_setV_other :
    (lookupByte (setV g m p) a).getLsbD i = (lookupByte m a).getLsbD i :=
  getLsbD_memWrite_other m fun ha => by
    rw [BitVec.getLsbD_or, getLsbD_bitMask_of_other_place hp hother ha, Bool.or_false]

theorem getLsbD_clrV_other (h8 : i < 8) :
    (lookupByte (clrV g m p) a).getLsbD i = (lookupByte m a).getLsbD i :=
  getLsbD_memWrite_other m fun ha => by
    rw [BitVec.getLsbD_and, BitVec.getLsbD_not, getLsbD_bitMask_of_other_place hp hother ha,
      decide_eq_true h8, Bool.not_false, Bool.and_true, Bool.and_true]

theorem getLsbD_flipV_other :
    (lookupByte (flipV g m p) a).getLsbD i = (lookupByte m a).getLsbD i :=
  getLsbD_memWrite_other m fun ha => by
    rw [BitVec.getLsbD_xor, getLsbD_bitMask_of_other_place hp hother ha, Bool.xor_false]

end

/-- Settles O16: the written voxel by the laws of `getV`, every other bit because the mask has a
single 1. -/
theorem voxelWritesChangeOneBit : Obligations.VoxelWritesChangeOneBit := by
  intro g m p hp
  refine ⟨?_, ?_, ?_, fun a i h8 hother => ⟨getLsbD_setV_other m hp hother,
    getLsbD_clrV_other m hp hother h8, getLsbD_flipV_other m hp hother⟩⟩
  · rw [getV_setV m hp hp, if_pos rfl]
  · rw [getV_clrV m hp hp, if_pos rfl]
  · rw [getV_flipV m hp hp, if_pos rfl]

/-! Rows (R47). -/

/-- Above `CUBE_N` a row reads as 0: each voxel of the row sets the bit of its own x. -/
theorem getLsbD_readRow_of_ge {g : Geometry} (m : Memory) (y z : Nat) {x : Nat}
    (hx : cubeN g ≤ x) : (readRow g m y z).getLsbD x = false := by
  refine List.foldlRecOn (motive := fun acc : Byte => acc.getLsbD x = false) _ _
    BitVec.getLsbD_zero fun acc hacc p hp => ?_
  have hpx : p.x < cubeN g := (mem_rowCoords.1 hp).1
  have hmask : (bitMask p.x).getLsbD x = false :=
    getLsbD_bitMask_other (hpx.trans_le (cubeN_le g)) (hpx.trans_le hx).ne'
  split
  · rw [BitVec.getLsbD_or, hacc, hmask, Bool.or_false]
  · exact hacc

/-- With eight voxels a row, the row is its byte (R43). -/
theorem lookupByte_writeRow_n8 (m : Memory) {y z : Nat} (r : Byte) (hy : y < cubeN .n8)
    (hz : z < cubeN .n8) : lookupByte (writeRow .n8 m y z r) (z * 8 + y) = r := by
  refine BitVec.eq_of_getLsbD_eq fun x hx => ?_
  have hvoxel := getV_writeRow m r hy hz (q := ⟨x, y, z⟩) (inRange_iff.2 ⟨hx, hy, hz⟩)
  rwa [if_pos ⟨rfl, rfl⟩] at hvoxel

/-- Settles O17: bits below `CUBE_N` are voxels and bits above read as 0; WriteRow voxel by
voxel, and byte by byte where a row is a byte. -/
theorem rowsReadAndWriteTheirOwnVoxels : Obligations.RowsReadAndWriteTheirOwnVoxels := by
  intro g m y z r hy hz
  refine ⟨fun x _ => ?_, fun q => getV_writeRow m r hy hz, ?_⟩
  · by_cases hx : x < cubeN g
    · rw [getLsbD_readRow m y z hx, decide_eq_true hx, Bool.true_and]
    · rw [getLsbD_readRow_of_ge m y z (Nat.not_lt.1 hx), decide_eq_false hx, Bool.false_and]
  · rintro rfl
    exact lookupByte_writeRow_n8 m r hy hz

/-! `MemRead` and `MemWrite` (R48). -/

theorem memRead_memWrite_same {g : Geometry} (m : Memory) {a : Nat} (v : Byte)
    (ha : a < totalBytes g) : memRead g (memWrite m a v) a = v := by
  rw [memRead_of_lt ha, lookupByte_memWrite_same]

theorem memRead_memWrite_other (g : Geometry) (m : Memory) {a b : Nat} (v : Byte) (hab : a ≠ b) :
    memRead g (memWrite m a v) b = memRead g m b := by
  rw [memRead, memRead, lookupByte_memWrite_other m v hab]

/-- Settles O14: the places by evaluation of `place`, the rest by the laws of `memRead`. -/
theorem decoderPlacesVoxels : Obligations.DecoderPlacesVoxels :=
  ⟨fun _ _ _ => rfl, fun _ _ _ => rfl, fun _ _ _ => rfl, fun _ _ _ => rfl,
    fun _ m _ v ha => memRead_memWrite_same m v ha,
    fun g m _ _ v hab => memRead_memWrite_other g m v hab,
    fun _ m _ ha => memRead_of_ge ha m⟩

/-! The display port (R50). -/

theorem displayData_of_not_busy {s : State} (hs : s.busy = false) (k : Nat) (a : BitVec 6) :
    displayData s k a = s.byteAt a.toNat := by
  simp [displayData, State.byteAt, hs]

/-- Settles O18: the display port by `displayData_of_not_busy`; `BRIGHT_OUT` has no other source
than `BRIGHT`. -/
theorem displayReadIsExactWhenNotBusy : Obligations.DisplayReadIsExactWhenNotBusy :=
  ⟨fun _ k a hs => displayData_of_not_busy hs k a, fun _ => rfl⟩

/-! INRANGE (R42, R81). -/

theorem fieldA_eq_bitsAt (w : CommandWord) : fieldA w = bitsAt w 20 4 := wordField_eq_bitsAt w 20 4
theorem fieldB_eq_bitsAt (w : CommandWord) : fieldB w = bitsAt w 16 4 := wordField_eq_bitsAt w 16 4
theorem fieldC_eq_bitsAt (w : CommandWord) : fieldC w = bitsAt w 12 4 := wordField_eq_bitsAt w 12 4

/-- A row of the opcode map whose mask covers the opcode field holds of every word it matches
(R65). -/
theorem encodedAs_of_decodeAs {mask pattern : CommandWord} {i : CommandWord → Instr}
    (hmask : fieldOP mask = 63) (hrow : ∀ w, decodeAs (fieldOP pattern) w = .command (i w)) :
    EncodedAs mask pattern i :=
  fun w hw => (decode_of_match hw hmask).trans (hrow w)

theorem encodedAs_inrange : EncodedAs 0xFC000000 0x60000000
    (fun w => .inrange (bitsAt w 20 4) (bitsAt w 16 4) (bitsAt w 12 4)) :=
  encodedAs_of_decodeAs rfl fun w => by
    rw [← fieldA_eq_bitsAt, ← fieldB_eq_bitsAt, ← fieldC_eq_bitsAt]
    rfl

theorem exec_inrange (s : State) (x y z : Nat) : exec (.inrange x y z) s =
    .next (completed (resultBit (inRange s.cfg.geometry ⟨x, y, z⟩)) s) := rfl

theorem resultBit_inRange (g : Geometry) (x y z : Nat) : resultBit (inRange g ⟨x, y, z⟩) =
    if x < cubeN g ∧ y < cubeN g ∧ z < cubeN g then 0x01 else 0x00 := by
  simp only [resultBit, inRange_iff]

/-- Settles O20: the word by the opcode map's row, the answer by `resultBit_inRange`. -/
theorem inrangeAnswersTheRangeTest : Obligations.InrangeAnswersTheRangeTest := by
  refine ⟨encodedAs_inrange, fun s x y z => ⟨_, exec_inrange s x y z, ?_⟩⟩
  rw [← resultBit_inRange]
  exact answered_completed _ s

end Sys2Proof.Machine
end

section
/-!
The encoding family (30_encoding.md): a decoded word is its command's encoding on the bits its
format uses, the decoder looks at no other bit, the reserved opcodes, and large coordinates.
-/

namespace Sys2Proof.Machine

open Sys2Proof

/-- Settles O9: command by command, by its row of `Laws.RoundTrip`. -/
theorem decodeOfEncodeIsTheCommand : Obligations.DecodeOfEncodeIsTheCommand := by
  intro i
  cases i with
  | nop => exact Laws.RoundTrip.nop
  | inrange x y z => exact Laws.RoundTrip.inrange x y z
  | byteline start stop => exact Laws.RoundTrip.byteline start stop
  | rdb addr => exact Laws.RoundTrip.rdb addr
  | setv x y z => exact Laws.RoundTrip.setv x y z
  | clrv x y z => exact Laws.RoundTrip.clrv x y z
  | tglv x y z => exact Laws.RoundTrip.tglv x y z
  | altv x y z state => exact Laws.RoundTrip.altv x y z state
  | getv x y z => exact Laws.RoundTrip.getv x y z
  | fill pattern => exact Laws.RoundTrip.fill pattern
  | setpx c => exact Laws.RoundTrip.setpx c
  | setpy c => exact Laws.RoundTrip.setpy c
  | setpz c => exact Laws.RoundTrip.setpz c
  | clrpx c => exact Laws.RoundTrip.clrpx c
  | clrpy c => exact Laws.RoundTrip.clrpy c
  | clrpz c => exact Laws.RoundTrip.clrpz c
  | box style x1 y1 z1 x2 y2 z2 => exact Laws.RoundTrip.box style x1 y1 z1 x2 y2 z2
  | line x1 y1 z1 x2 y2 z2 => exact Laws.RoundTrip.line x1 y1 z1 x2 y2 z2
  | shift axis dir => exact Laws.RoundTrip.shift axis dir
  | start index => exact Laws.RoundTrip.start index
  | finish => exact Laws.RoundTrip.finish
  | process sf => exact Laws.RoundTrip.process sf
  | getcur => exact Laws.RoundTrip.getcur
  | getprev => exact Laws.RoundTrip.getprev
  | isfin => exact Laws.RoundTrip.isfin
  | getbright => exact Laws.RoundTrip.getbright

/-! A word's fields (R61, R63). -/

theorem wordField_lt (w : CommandWord) (lo len : Nat) : wordField w lo len < 2 ^ len :=
  Nat.mod_lt _ (Nat.two_pow_pos len)

theorem wordField_zero (w : CommandWord) (lo : Nat) : wordField w lo 0 = 0 := Nat.mod_one _

theorem fieldIMM8_toNat (w : CommandWord) : (fieldIMM8 w).toNat = wordField w 0 8 := by
  rw [fieldIMM8, BitVec.toNat_ofNat]
  exact Nat.mod_eq_of_lt (wordField_lt w 0 8)

theorem coordFits_wordField (w : CommandWord) (lo : Nat) : coordFits (wordField w lo 4) = true :=
  decide_eq_true (wordField_lt w lo 4)

theorem coordCode_wordField (w : CommandWord) (lo : Nat) :
    coordCode (wordField w lo 4) = wordField w lo 4 :=
  coordCode_of_fits (coordFits_wordField w lo)

theorem bitPosFits_wordField (w : CommandWord) (lo : Nat) : bitPosFits (wordField w lo 3) = true :=
  decide_eq_true (wordField_lt w lo 3)

theorem axisCode_axisOf {t : Nat} (ht : t < 4) : axisCode (axisOf t) = t := by
  interval_cases t <;> rfl

theorem boxStyleCode_boxStyleOf {t : Nat} (ht : t < 4) : boxStyleCode (boxStyleOf t) = t := by
  interval_cases t <;> rfl

theorem dirCode_dirOf {b : Nat} (hb : b < 2) : dirCode (dirOf b) = b := by
  interval_cases b <;> rfl

theorem ite_ne_zero_of_lt_two {b : Nat} (hb : b < 2) : (if b != 0 then 1 else 0) = b := by
  interval_cases b <;> rfl

/-! A word under a mask, field by field (R61, R64). -/

theorem wordField_and (w m : CommandWord) (lo len : Nat) :
    wordField (w &&& m) lo len = wordField w lo len &&& wordField m lo len := by
  simp only [wordField_eq_bitsAt, bitsAt, BitVec.extractLsb'_and, BitVec.toNat_and]

/-- A mask that has the low `k` bits of a field leaves those bits of it. -/
theorem wordField_and_low {w m : CommandWord} {lo len k : Nat}
    (hm : wordField m lo len = 2 ^ k - 1) : wordField (w &&& m) lo len = wordField w lo k := by
  have hk : 2 ^ k ≤ 2 ^ len := by have := wordField_lt m lo len; omega
  rw [wordField_and, hm, Nat.and_two_pow_sub_one_eq_mod, wordField, wordField,
    Nat.mod_mod_of_dvd _ (Nat.pow_dvd_pow 2 ((Nat.pow_le_pow_iff_right (by decide)).1 hk))]

theorem encodeFields_of_fields (w : CommandWord) : encodeFields (fieldOP w) (fieldT w) (fieldA w)
    (fieldB w) (fieldC w) (fieldD w) (fieldE w) (fieldF w) = w := by
  have hw := w.isLt
  apply BitVec.eq_of_toNat_eq
  simp only [encodeFields, BitVec.toNat_ofNat, fieldOP, fieldT, fieldA, fieldB, fieldC, fieldD,
    fieldE, fieldF, wordField]
  omega

/-- A word under a mask that has the low `kOP` bits of `OP`, `kT` of `T` and so on is those bits
of its fields; the widths spell out a format of R62. -/
theorem and_eq_encodeFields (w m : CommandWord) (kOP kT kA kB kC kD kE kF : Nat)
    (hm : fieldOP m = 2 ^ kOP - 1 ∧ fieldT m = 2 ^ kT - 1 ∧ fieldA m = 2 ^ kA - 1 ∧
      fieldB m = 2 ^ kB - 1 ∧ fieldC m = 2 ^ kC - 1 ∧ fieldD m = 2 ^ kD - 1 ∧
      fieldE m = 2 ^ kE - 1 ∧ fieldF m = 2 ^ kF - 1) :
    w &&& m = encodeFields (wordField w 26 kOP) (wordField w 24 kT) (wordField w 20 kA)
      (wordField w 16 kB) (wordField w 12 kC) (wordField w 8 kD) (wordField w 4 kE)
      (wordField w 0 kF) := by
  obtain ⟨hOP, hT, hA, hB, hC, hD, hE, hF⟩ := hm
  rw [← encodeFields_of_fields (w &&& m), fieldOP, fieldT, fieldA, fieldB, fieldC, fieldD, fieldE,
    fieldF, wordField_and_low hOP, wordField_and_low hT, wordField_and_low hA,
    wordField_and_low hB, wordField_and_low hC, wordField_and_low hD, wordField_and_low hE,
    wordField_and_low hF]

/-- The immediate is the fields `E` and `F` together. -/
theorem encodeFields_immediate (w : CommandWord) (op t a b c d : Nat) :
    encodeFields op t a b c d 0 (fieldIMM8 w).toNat =
      encodeFields op t a b c d (wordField w 4 4) (wordField w 0 4) := by
  rw [fieldIMM8_toNat, encodeFields, encodeFields, wordField, wordField, wordField]
  exact congrArg (BitVec.ofNat 32) (by omega)

/-! One lemma per format (R62): the word of the fields is the word under the format's mask. -/

section
variable {w : CommandWord} {op : Nat} (hop : fieldOP w = op)
include hop

theorem encodeLow_zero_eq : encodeLow op 0 = w &&& 0xFC000000 := by
  rw [and_eq_encodeFields w _ 6 0 0 0 0 0 0 0 (by decide)]
  simp only [wordField_zero, ← hop, encodeLow, fieldOP]

theorem encodeLow_flag_eq :
    encodeLow op (if fieldBit0 w != 0 then 1 else 0) = w &&& 0xFC000001 := by
  rw [and_eq_encodeFields w _ 6 0 0 0 0 0 0 1 (by decide),
    ite_ne_zero_of_lt_two (b := fieldBit0 w) (wordField_lt w 0 1)]
  simp only [wordField_zero, ← hop, encodeLow, fieldOP, fieldBit0]

theorem encodeLow_immediate_eq : encodeLow op (fieldIMM8 w).toNat = w &&& 0xFC0000FF := by
  rw [and_eq_encodeFields w _ 6 0 0 0 0 0 4 4 (by decide), encodeLow, encodeFields_immediate]
  simp only [wordField_zero, ← hop, fieldOP]

theorem encodePoint_zero_eq :
    encodePoint op (fieldA w) (fieldB w) (fieldC w) 0 = w &&& 0xFCFFF000 := by
  rw [and_eq_encodeFields w _ 6 0 4 4 4 0 0 0 (by decide)]
  simp only [wordField_zero, ← hop, encodePoint, fieldOP, fieldA, fieldB, fieldC,
    coordCode_wordField]

theorem encodePoint_immediate_eq : encodePoint op (fieldA w) (fieldB w) (fieldC w)
    (fieldIMM8 w).toNat = w &&& 0xFCFFF0FF := by
  rw [and_eq_encodeFields w _ 6 0 4 4 4 0 4 4 (by decide), encodePoint, encodeFields_immediate]
  simp only [wordField_zero, ← hop, fieldOP, fieldA, fieldB, fieldC, coordCode_wordField]

theorem encodePlane_eq : encodePlane op (fieldA w) = w &&& 0xFCF00000 := by
  rw [and_eq_encodeFields w _ 6 0 4 0 0 0 0 0 (by decide)]
  simp only [wordField_zero, ← hop, encodePlane, fieldOP, fieldA, coordCode_wordField]

theorem encodeTwoPoints_style_eq : encodeTwoPoints op (boxStyleCode (boxStyleOf (fieldT w)))
    (fieldA w) (fieldB w) (fieldC w) (fieldD w) (fieldE w) (fieldF w) = w &&& 0xFFFFFFFF := by
  rw [and_eq_encodeFields w _ 6 2 4 4 4 4 4 4 (by decide),
    boxStyleCode_boxStyleOf (t := fieldT w) (wordField_lt w 24 2)]
  simp only [← hop, encodeTwoPoints, fieldOP, fieldT, fieldA, fieldB, fieldC, fieldD, fieldE,
    fieldF, coordCode_wordField]

theorem encodeTwoPoints_zero_eq : encodeTwoPoints op 0 (fieldA w) (fieldB w) (fieldC w)
    (fieldD w) (fieldE w) (fieldF w) = w &&& 0xFCFFFFFF := by
  rw [and_eq_encodeFields w _ 6 0 4 4 4 4 4 4 (by decide)]
  simp only [wordField_zero, ← hop, encodeTwoPoints, fieldOP, fieldA, fieldB, fieldC, fieldD,
    fieldE, fieldF, coordCode_wordField]

theorem encodeFields_axis_dir_eq : encodeFields op (axisCode (axisOf (fieldT w))) 0 0 0 0 0
    (dirCode (dirOf (fieldBit0 w))) = w &&& 0xFF000001 := by
  rw [and_eq_encodeFields w _ 6 2 0 0 0 0 0 1 (by decide),
    axisCode_axisOf (t := fieldT w) (wordField_lt w 24 2),
    dirCode_dirOf (b := fieldBit0 w) (wordField_lt w 0 1)]
  simp only [wordField_zero, ← hop, fieldOP, fieldT, fieldBit0]

theorem encodeFields_bitRange_eq :
    encodeFields op 0 (fieldS3 w) (fieldE3 w) 0 0 0 0 = w &&& 0xFC770000 := by
  rw [and_eq_encodeFields w _ 6 0 3 3 0 0 0 0 (by decide)]
  simp only [wordField_zero, ← hop, fieldOP, fieldS3, fieldE3]

end

/-! What a row of the opcode map makes of a word (R65). -/

/-- A decoded operand fits its field (R63). -/
theorem wellFormed_of_decodeAs {op : Nat} {w : CommandWord} {i : Instr}
    (h : decodeAs op w = .command i) : i.wellFormed = true := by
  unfold decodeAs at h
  split at h <;> cases h
  all_goals simp only [Instr.wellFormed, pointFits, fieldA, fieldB, fieldC, fieldD, fieldE, fieldF,
    fieldS3, fieldE3, coordFits_wordField, bitPosFits_wordField, Bool.and_self]

/-- The command's encoding is the word's used bits: each row by its format's lemma. -/
theorem encode_of_decodeAs {op : Nat} {w : CommandWord} {i : Instr} (hop : fieldOP w = op)
    (h : decodeAs op w = .command i) : encode i = w &&& usedBits i := by
  unfold decodeAs at h
  split at h <;> cases h
  · exact encodeLow_zero_eq hop -- NOP
  · exact encodePoint_zero_eq hop -- SETV
  · exact encodePoint_zero_eq hop -- CLRV
  · exact encodePoint_zero_eq hop -- TGLV
  · exact encodePoint_immediate_eq hop -- ALTV
  · exact encodePoint_zero_eq hop -- GETV
  · exact encodeLow_immediate_eq hop -- FILL
  · exact encodePlane_eq hop -- SETPX
  · exact encodePlane_eq hop -- SETPY
  · exact encodePlane_eq hop -- SETPZ
  · exact encodePlane_eq hop -- CLRPX
  · exact encodePlane_eq hop -- CLRPY
  · exact encodePlane_eq hop -- CLRPZ
  · exact encodeTwoPoints_style_eq hop -- BOX
  · exact encodeTwoPoints_zero_eq hop -- LINE
  · exact encodeFields_axis_dir_eq hop -- SHIFT
  · exact encodePoint_zero_eq hop -- INRANGE
  · exact encodeFields_bitRange_eq hop -- BYTELINE
  · exact encodeLow_immediate_eq hop -- RDB
  · exact encodeLow_immediate_eq hop -- START
  · exact encodeLow_zero_eq hop -- FINISH
  · exact encodeLow_flag_eq hop -- PROCESS
  · exact encodeLow_zero_eq hop -- GETCUR
  · exact encodeLow_zero_eq hop -- GETPREV
  · exact encodeLow_zero_eq hop -- ISFIN
  · exact encodeLow_zero_eq hop -- GETBRIGHT

/-- Settles O10: the operands fit, and the encoder gives the used bits back. -/
theorem decodedWordIsItsEncodingOnUsedBits : Obligations.DecodedWordIsItsEncodingOnUsedBits :=
  fun _ _ h => ⟨wellFormed_of_decodeAs h, encode_of_decodeAs rfl h⟩

/-! The bits a format ignores (R64). -/

/-- Whether an opcode stands for a command, and the bits its format uses, do not depend on the
rest of the word. -/
theorem decodeAs_command_of_command {op : Nat} {w : CommandWord} {i : Instr}
    (h : decodeAs op w = .command i) (w' : CommandWord) :
    ∃ i', decodeAs op w' = .command i' ∧ usedBits i' = usedBits i := by
  unfold decodeAs at h
  split at h <;> cases h <;> exact ⟨_, rfl, rfl⟩

theorem fieldOP_usedBits (i : Instr) : fieldOP (usedBits i) = 63 := by
  unfold usedBits
  split <;> rfl

theorem fieldOP_eq_of_and_usedBits {w w' : CommandWord} {i : Instr}
    (h : w &&& usedBits i = w' &&& usedBits i) : fieldOP w' = fieldOP w :=
  (wordField_of_match rfl (fieldOP_usedBits i)).trans
    (wordField_of_match h (fieldOP_usedBits i)).symm

/-- The encoder tells well-formed commands apart (R60). -/
theorem encode_injective {i j : Instr} (hi : i.wellFormed = true) (hj : j.wellFormed = true)
    (h : encode i = encode j) : i = j := by
  have hdec := decodeOfEncodeIsTheCommand i hi
  rw [h, decodeOfEncodeIsTheCommand j hj] at hdec
  exact (Decoded.command.inj hdec).symm

theorem decode_eq_of_and_usedBits {w w' : CommandWord} {i : Instr} (h : decode w = .command i)
    (hand : w &&& usedBits i = w' &&& usedBits i) : decode w' = .command i := by
  obtain ⟨i', hi', hused⟩ := decodeAs_command_of_command h w'
  have hw' : decode w' = .command i' := (decode_of_op (fieldOP_eq_of_and_usedBits hand)).trans hi'
  obtain ⟨hwf, henc⟩ := decodedWordIsItsEncodingOnUsedBits w i h
  obtain ⟨hwf', henc'⟩ := decodedWordIsItsEncodingOnUsedBits w' i' hw'
  have hii' : i' = i := encode_injective hwf' hwf (by rw [henc', hused, henc, hand])
  rw [hw', hii']

theorem encode_and_not_usedBits {i : Instr} (hi : i.wellFormed = true) :
    encode i &&& ~~~ usedBits i = 0 := by
  obtain ⟨-, henc⟩ := decodedWordIsItsEncodingOnUsedBits _ i (decodeOfEncodeIsTheCommand i hi)
  rw [henc, BitVec.and_assoc, BitVec.and_not_self]
  exact BitVec.and_zero

/-- Settles O11: on the used bits a word is its command's encoding (O10), which no other command
has (O9). -/
theorem ignoredBitsChangeNothing : Obligations.IgnoredBitsChangeNothing :=
  ⟨fun _ _ _ => decode_eq_of_and_usedBits, fun _ => encode_and_not_usedBits⟩

/-! The reserved opcodes (R66). -/

/-- The opcodes between the rows of the opcode map. -/
theorem decodeAs_reserved_iff {op : Nat} (hop : op < 64) (w : CommandWord) :
    (∃ r, decodeAs op w = .reserved r) ↔ op ∈ [0x07, 0x0B, 0x0F] ∨ (0x13 ≤ op ∧ op ≤ 0x17) ∨
      (0x1B ≤ op ∧ op ≤ 0x1F) ∨ (0x27 ≤ op ∧ op ≤ 0x3F) := by
  unfold decodeAs
  split
  case h_27 => -- the default arm
    simp only [imp_false] at *
    simp only [List.mem_cons, List.not_mem_nil, or_false]
    exact iff_of_true ⟨op, rfl⟩ (by omega)
  all_goals simp

theorem step_of_reserved {s : State} {w : CommandWord} {now : Nat} {rest : List HostEvent}
    {op : Nat} (hin : s.inputs = .command w now :: rest) (hbusy : s.busy = false)
    (hdec : decode w = .reserved op) : step s = .next (completed 0x00 (accept now rest s)) := by
  have hready : cmdReady s = true := by simp [cmdReady, hbusy]
  rw [step, hin]
  simp only [hready, if_true, runWord, hdec, execReserved, complete_eq]

/-- Settles O6: the list by the opcode map's default arm, the step by `execReserved`. -/
theorem reservedOpcodesChangeNoState : Obligations.ReservedOpcodesChangeNoState :=
  ⟨fun w => decodeAs_reserved_iff (wordField_lt w 26 6) w,
    fun _ _ _ _ _ hin hbusy hdec => ⟨_, step_of_reserved hin hbusy hdec, answered_completed _ _⟩⟩

/-! Coordinates of 16 or more (R63). -/

/-- The coordinate a host puts into the word for `p`. -/
def heldPoint (p : Coord) : Coord := ⟨heldAsFifteen p.x, heldAsFifteen p.y, heldAsFifteen p.z⟩

theorem heldAsFifteen_lt_iff {n : Nat} (hn : n ≤ 8) (c : Nat) : heldAsFifteen c < n ↔ c < n := by
  unfold heldAsFifteen
  split <;> omega

theorem heldAsFifteen_of_lt {n c : Nat} (hn : n ≤ 8) (hc : c < n) : heldAsFifteen c = c :=
  if_pos (by omega)

theorem inRange_heldPoint (g : Geometry) (p : Coord) : inRange g (heldPoint p) = inRange g p := by
  simp only [inRange, heldPoint, heldAsFifteen_lt_iff (cubeN_le g)]

theorem heldPoint_of_inRange {g : Geometry} {p : Coord} (hp : inRange g p = true) :
    heldPoint p = p := by
  obtain ⟨hx, hy, hz⟩ := inRange_iff.1 hp
  rw [heldPoint, heldAsFifteen_of_lt (cubeN_le g) hx, heldAsFifteen_of_lt (cubeN_le g) hy,
    heldAsFifteen_of_lt (cubeN_le g) hz]

/-- What does one thing at every coordinate out of range does not tell 15 from a larger one: 15 is
out of range in either geometry (R42). -/
theorem apply_heldPoint {α : Type} (g : Geometry) (f : Coord → α) (a : α)
    (hf : ∀ p, inRange g p = false → f p = a) (p : Coord) : f (heldPoint p) = f p := by
  cases hp : inRange g p
  · rw [hf p hp, hf _ ((inRange_heldPoint g p).trans hp)]
  · rw [heldPoint_of_inRange hp]

/-- The same for the coordinate of a plane (R121). -/
theorem apply_heldAsFifteen {α : Type} (g : Geometry) (f : Nat → α) (a : α)
    (hf : ∀ c, planeInRange g c = false → f c = a) (c : Nat) : f (heldAsFifteen c) = f c := by
  have hheld := heldAsFifteen_lt_iff (cubeN_le g) c
  by_cases hc : c < cubeN g
  · rw [heldAsFifteen_of_lt (cubeN_le g) hc]
  · rw [hf c (decide_eq_false hc), hf _ (decide_eq_false (mt hheld.1 hc))]

theorem boxPrologue_heldPoint (g : Geometry) (p q : Coord) :
    boxPrologue g (heldPoint p) (heldPoint q) = boxPrologue g p q :=
  (apply_heldPoint g (boxPrologue g · (heldPoint q)) none
    (fun _ h => by simp [boxPrologue, h]) p).trans
  (apply_heldPoint g (boxPrologue g p) none (fun _ h => by simp [boxPrologue, h]) q)

theorem linePrologue_heldPoint (g : Geometry) (p q : Coord) :
    linePrologue g (heldPoint p) (heldPoint q) = linePrologue g p q :=
  (apply_heldPoint g (linePrologue g · (heldPoint q)) none
    (fun _ h => by simp [linePrologue, h]) p).trans
  (apply_heldPoint g (linePrologue g p) none (fun _ h => by simp [linePrologue, h]) q)

theorem drawBox_heldPoint (g : Geometry) (style : BoxStyle) (p q : Coord) (m : Memory) :
    drawBox g style (heldPoint p) (heldPoint q) m = drawBox g style p q m := by
  rw [drawBox, drawBox, boxPrologue_heldPoint]

theorem drawLine_heldPoint (g : Geometry) (p q : Coord) (m : Memory) :
    drawLine g (heldPoint p) (heldPoint q) m = drawLine g p q m := by
  rw [drawLine, drawLine, linePrologue_heldPoint]

theorem drawInstr_largeAsFifteen (g : Geometry) (i : Instr) (m : Memory) :
    drawInstr g (largeAsFifteen i) m = drawInstr g i m := by
  cases i with
  | setv x y z =>
    exact apply_heldPoint g (fun p => drawSetv g p.x p.y p.z m) m
      (fun _ h => by simp [drawSetv, h]) ⟨x, y, z⟩
  | clrv x y z =>
    exact apply_heldPoint g (fun p => drawClrv g p.x p.y p.z m) m
      (fun _ h => by simp [drawClrv, h]) ⟨x, y, z⟩
  | tglv x y z =>
    exact apply_heldPoint g (fun p => drawTglv g p.x p.y p.z m) m
      (fun _ h => by simp [drawTglv, h]) ⟨x, y, z⟩
  | altv x y z state =>
    exact apply_heldPoint g (fun p => drawAltv g p.x p.y p.z state m) m
      (fun _ h => by simp [drawAltv, drawClrv, drawSetv, h]) ⟨x, y, z⟩
  | setpx c =>
    exact apply_heldAsFifteen g (fun c => drawSetpx g c m) m (fun _ h => by simp [drawSetpx, h]) c
  | setpy c =>
    exact apply_heldAsFifteen g (fun c => drawSetpy g c m) m (fun _ h => by simp [drawSetpy, h]) c
  | setpz c =>
    exact apply_heldAsFifteen g (fun c => drawSetpz g c m) m (fun _ h => by simp [drawSetpz, h]) c
  | clrpx c =>
    exact apply_heldAsFifteen g (fun c => drawClrpx g c m) m (fun _ h => by simp [drawClrpx, h]) c
  | clrpy c =>
    exact apply_heldAsFifteen g (fun c => drawClrpy g c m) m (fun _ h => by simp [drawClrpy, h]) c
  | clrpz c =>
    exact apply_heldAsFifteen g (fun c => drawClrpz g c m) m (fun _ h => by simp [drawClrpz, h]) c
  | box style x1 y1 z1 x2 y2 z2 => exact drawBox_heldPoint g style ⟨x1, y1, z1⟩ ⟨x2, y2, z2⟩ m
  | line x1 y1 z1 x2 y2 z2 => exact drawLine_heldPoint g ⟨x1, y1, z1⟩ ⟨x2, y2, z2⟩ m
  | _ => rfl

theorem drawingCommand_largeAsFifteen (i : Instr) :
    drawingCommand (largeAsFifteen i) = drawingCommand i := by cases i <;> rfl

theorem exec_largeAsFifteen (i : Instr) (s : State) : exec (largeAsFifteen i) s = exec i s := by
  cases hd : drawingCommand i
  · cases i with
    | inrange x y z =>
      exact congrArg (fun b => complete (resultBit b) s) (inRange_heldPoint _ ⟨x, y, z⟩)
    | getv x y z =>
      exact apply_heldPoint s.cfg.geometry (fun p => execGetv p.x p.y p.z s) (complete 0x00 s)
        (fun _ h => by simp [execGetv, h]) ⟨x, y, z⟩
    | nop | byteline | rdb | start | finish | process | getcur | getprev | isfin | getbright => rfl
    | _ => exact Bool.noConfusion hd
  · rw [exec_drawing hd, exec_drawing ((drawingCommand_largeAsFifteen i).trans hd),
      drawInstr_largeAsFifteen]

theorem decode_encode_largeAsFifteen {i : Instr} (h : bitPositionsFit i = true) :
    decode (encode i) = .command (largeAsFifteen i) := by
  rw [← encode_largeAsFifteen]
  exact decodeOfEncodeIsTheCommand _ (wellFormed_largeAsFifteen h)

/-- Settles O12: the clamped command has the same word and, by `exec_largeAsFifteen`, the same
meaning. -/
theorem largeCoordinatesActAsFifteen : Obligations.LargeCoordinatesActAsFifteen :=
  ⟨fun _ => ⟨fun h => Nat.min_eq_right (by omega), fun h => Nat.min_eq_left (by omega)⟩,
    fun i h => ⟨decode_encode_largeAsFifteen h, exec_largeAsFifteen i⟩⟩

/-- Settles O13: the decoder's answer to each of the ten words, by evaluation. -/
theorem writtenOutWordsDecode : Obligations.WrittenOutWordsDecode :=
  ⟨rfl, rfl, rfl, rfl, rfl, rfl, rfl, rfl, rfl, rfl⟩

end Sys2Proof.Machine
end

section
/-!
The addressing family (40_addressing.md): NOP, BYTELINE and RDB; INRANGE stands with the memory
family.
-/

namespace Sys2Proof.Machine

open Sys2Proof

/-! NOP (R80). -/

theorem encodedAs_nop : EncodedAs 0xFC000000 0x00000000 (fun _ => .nop) :=
  encodedAs_of_decodeAs rfl fun _ => rfl

theorem exec_nop (s : State) : exec .nop s = .next (completed 0x00 s) := rfl

/-- Settles O19: NOP is a plain completion with 0x00. -/
theorem nopChangesNothing : Obligations.NopChangesNothing :=
  ⟨encodedAs_nop, fun s => ⟨_, exec_nop s, answered_completed _ s⟩⟩

/-! BYTELINE (R82, R83). -/

theorem fieldS3_eq_bitsAt (w : CommandWord) : fieldS3 w = bitsAt w 20 3 :=
  wordField_eq_bitsAt w 20 3
theorem fieldE3_eq_bitsAt (w : CommandWord) : fieldE3 w = bitsAt w 16 3 :=
  wordField_eq_bitsAt w 16 3

theorem encodedAs_byteline : EncodedAs 0xFC000000 0x64000000
    (fun w => .byteline (bitsAt w 20 3) (bitsAt w 16 3)) :=
  encodedAs_of_decodeAs rfl fun w => by
    rw [← fieldS3_eq_bitsAt, ← fieldE3_eq_bitsAt]
    rfl

theorem exec_byteline_of_le {lo hi : Nat} (h : lo ≤ hi) (s : State) :
    exec (.byteline lo hi) s = .next (completed (byteline lo hi) s) := if_pos h

/-- Out of order the answer is a free value, and the counter of free values moves on (log 10). -/
theorem exec_byteline_of_lt {lo hi : Nat} (h : hi < lo) (s : State) : exec (.byteline lo hi) s =
    .next (completed (Config.freeByte s.freeIx) { s with freeIx := s.freeIx + 1 }) :=
  if_neg (Nat.not_le.2 h)

theorem getLsbD_byteline_iff {lo hi k : Nat} (hhi : hi ≤ 7) (hk : k < 8) :
    (byteline lo hi).getLsbD k = true ↔ lo ≤ k ∧ k ≤ hi := by
  rw [getLsbD_byteline hhi hk, Bool.and_eq_true, decide_eq_true_iff, decide_eq_true_iff]

/-- Settles O21: in order by the bits of `byteline`; out of order the free byte is only an
answer. -/
theorem bytelineAnswersTheBitRange : Obligations.BytelineAnswersTheBitRange := by
  refine ⟨encodedAs_byteline, fun s lo hi hhi => ⟨fun hle => ?_, fun hlt => ?_⟩⟩
  · exact ⟨_, exec_byteline_of_le hle s, answered_completed _ s,
      fun _ hk => getLsbD_byteline_iff hhi hk⟩
  · exact ⟨_, exec_byteline_of_lt hlt s, answered_completed _ _⟩

/-! RDB (R84). -/

theorem encodedAs_rdb : EncodedAs 0xFC000000 0x68000000 (fun w => .rdb (immediateOf w)) :=
  encodedAs_of_decodeAs rfl fun w => by
    rw [← fieldIMM8_eq_immediateOf]
    rfl

theorem exec_rdb (addr : Byte) (s : State) :
    exec (.rdb addr) s = .next (completed (s.byteAt addr.toNat) s) := rfl

/-- The byte a voxel lives in shows the voxel at its bit (R45, R48). -/
theorem getLsbD_memRead_byteAddr {g : Geometry} (m : Memory) {p : Coord} (hp : inRange g p = true) :
    (memRead g m (byteAddr g p)).getLsbD (bitIx g p) = getV g m p := by
  rw [memRead_of_lt (byteAddr_lt hp), getV]

/-- Settles O22: RDB answers `MemRead` of its address, which shows the voxels of that byte below
the top and is 0x00 above. -/
theorem rdbAnswersTheBufferByte : Obligations.RdbAnswersTheBufferByte := by
  refine ⟨encodedAs_rdb, fun s addr => ⟨_, exec_rdb addr s, answered_completed _ s,
    fun p hp haddr => ?_, fun htop => memRead_of_ge htop s.mem⟩⟩
  rw [completed_result, ← haddr]
  exact getLsbD_memRead_byteAddr s.mem hp

end Sys2Proof.Machine
end

section
/-!
The point family (41_point.md): SETV, CLRV, TGLV and ALTV write one voxel, GETV reads one, and the
laws of R105 about what follows from one command to the next.
-/

namespace Sys2Proof.Machine

open Sys2Proof

/-! The words (R65). -/

/-- A row of the opcode map in format P or PS; a command of format P ignores the immediate (R62). -/
theorem encodedAs_point {pattern : CommandWord} (i : Nat → Nat → Nat → Byte → Instr)
    (hrow : ∀ w, decodeAs (fieldOP pattern) w =
      .command (i (fieldA w) (fieldB w) (fieldC w) (fieldIMM8 w))) :
    EncodedAs 0xFC000000 pattern
      (fun w => i (bitsAt w 20 4) (bitsAt w 16 4) (bitsAt w 12 4) (immediateOf w)) :=
  encodedAs_of_decodeAs rfl fun w => by
    rw [← fieldA_eq_bitsAt, ← fieldB_eq_bitsAt, ← fieldC_eq_bitsAt, ← fieldIMM8_eq_immediateOf]
    exact hrow w

/-! What a command leaves alone, read off the voxels. -/

/-- A byte is its eight voxels, so a byte with no voxel in `P` is kept when every voxel outside
`P` is. -/
theorem bytesKeptOutside_of_voxels {s t : State} {P : Coord → Prop} (hcfg : t.cfg = s.cfg)
    (h : ∀ p, s.inCube p → ¬ P p → t.voxel p = s.voxel p) : BytesKeptOutside s t P := by
  intro a ha
  simp only [State.voxel, State.byteAt, hcfg] at h ⊢
  exact memRead_eq_of_voxels fun p hp hpa => h p hp fun hP => ha p hp hP hpa

theorem Drew.inCube_iff {s t : State} (h : Drew s t) (p : Coord) : t.inCube p ↔ s.inCube p := by
  rw [State.inCube, State.inCube, h.regs.cfg]

theorem execAll_pair {i j : Instr} {s t u : State} (hi : exec i s = .next t)
    (hj : exec j t = .next u) : execAll [i, j] s = .next u := by
  simp only [execAll, hi, hj]

/-! The commands that write one voxel (R100 to R103). -/

/-- From `s`, the command completes as a drawing command that makes an in-range voxel `c` what
`new` says of its old value, and keeps every other voxel and byte. -/
def WritesVoxel (i : Instr) (s : State) (c : Coord) (new : Bool → Bool) : Prop :=
  ∃ t, exec i s = .next t ∧ Drew s t ∧
    (∀ p, s.inCube p → t.voxel p = if p = c then new (s.voxel p) else s.voxel p) ∧
    BytesKeptOutside s t (fun p => p = c)

/-- It is enough to know what the command's drawing function does to each voxel. -/
theorem writesVoxel_of_getV {i : Instr} (hi : drawingCommand i = true) {s : State} {c : Coord}
    {new : Bool → Bool}
    (h : ∀ p, s.inCube p → getV s.cfg.geometry (drawInstr s.cfg.geometry i s.mem) p =
      if c = p then new (s.voxel p) else s.voxel p) : WritesVoxel i s c new := by
  have hvoxel : ∀ p, s.inCube p →
      (completed 0x00 (withMem (drawInstr s.cfg.geometry i s.mem) s)).voxel p =
        if p = c then new (s.voxel p) else s.voxel p := fun p hp => by
    simp only [eq_comm (a := p)]
    exact h p hp
  exact ⟨_, exec_drawing hi s, drew_completed _ s, hvoxel,
    bytesKeptOutside_of_voxels rfl fun p hp hne => (hvoxel p hp).trans (if_neg hne)⟩

theorem setv_writesVoxel (s : State) (c : Coord) :
    WritesVoxel (.setv c.x c.y c.z) s c (fun _ => true) :=
  writesVoxel_of_getV rfl fun _ hp => getV_drawSetv s.mem c.x c.y c.z hp

theorem clrv_writesVoxel (s : State) (c : Coord) :
    WritesVoxel (.clrv c.x c.y c.z) s c (fun _ => false) :=
  writesVoxel_of_getV rfl fun _ hp => getV_drawClrv s.mem c.x c.y c.z hp

theorem tglv_writesVoxel (s : State) (c : Coord) : WritesVoxel (.tglv c.x c.y c.z) s c not :=
  writesVoxel_of_getV rfl fun _ hp => getV_drawTglv s.mem c.x c.y c.z hp

theorem altv_writesVoxel (s : State) (c : Coord) (v : Byte) :
    WritesVoxel (.altv c.x c.y c.z v) s c (fun _ => decide (v ≠ 0)) :=
  writesVoxel_of_getV rfl fun _ hp => by
    simp only [ne_eq, decide_not]
    exact getV_drawAltv s.mem c.x c.y c.z v hp

/-- Settles O23, by what SETV's drawing function does to each voxel. -/
theorem setvSetsOneVoxel : Obligations.SetvSetsOneVoxel :=
  ⟨encodedAs_point (fun x y z _ => .setv x y z) fun _ => rfl, setv_writesVoxel⟩

/-- Settles O24, by what CLRV's drawing function does to each voxel. -/
theorem clrvClearsOneVoxel : Obligations.ClrvClearsOneVoxel :=
  ⟨encodedAs_point (fun x y z _ => .clrv x y z) fun _ => rfl, clrv_writesVoxel⟩

/-- Settles O25, by what TGLV's drawing function does to each voxel. -/
theorem tglvFlipsOneVoxel : Obligations.TglvFlipsOneVoxel :=
  ⟨encodedAs_point (fun x y z _ => .tglv x y z) fun _ => rfl, tglv_writesVoxel⟩

/-- Settles O26, by what ALTV's drawing function does to each voxel. -/
theorem altvWritesOneVoxel : Obligations.AltvWritesOneVoxel :=
  ⟨encodedAs_point .altv fun _ => rfl, altv_writesVoxel⟩

/-! GETV (R104). -/

theorem exec_getv_of_inCube {s : State} {c : Coord} (hc : s.inCube c) :
    exec (.getv c.x c.y c.z) s = .next (completed (resultBit (s.voxel c)) s) :=
  congrArg (complete · s) (if_pos hc)

theorem exec_getv_of_not_inCube {s : State} {c : Coord} (hc : ¬ s.inCube c) :
    exec (.getv c.x c.y c.z) s = .next (completed 0x00 s) :=
  congrArg (complete · s) (if_neg hc)

/-- Settles O27: in range and out of range GETV only answers. -/
theorem getvAnswersTheVoxel : Obligations.GetvAnswersTheVoxel := by
  refine ⟨encodedAs_point (fun x y z _ => .getv x y z) fun _ => rfl, fun s c => ?_⟩
  by_cases hc : s.inCube c
  · exact ⟨_, exec_getv_of_inCube hc, answered_completed _ s, fun _ => rfl, absurd hc⟩
  · exact ⟨_, exec_getv_of_not_inCube hc, answered_completed _ s, (absurd · hc), fun _ => rfl⟩

/-! The laws (R105). -/

/-- GETV after a command that wrote its voxel answers what was written. -/
theorem WritesVoxel.getv_after {i : Instr} {s : State} {c : Coord} {new : Bool → Bool}
    (h : WritesVoxel i s c new) (hc : s.inCube c) :
    ∃ t, execAll [i, .getv c.x c.y c.z] s = .next t ∧
      t.result = resultBit (new (s.voxel c)) := by
  obtain ⟨t, hexec, hdrew, hvoxel, -⟩ := h
  have hnew : t.voxel c = new (s.voxel c) := (hvoxel c hc).trans (if_pos rfl)
  exact ⟨_, execAll_pair hexec (exec_getv_of_inCube ((hdrew.inCube_iff c).2 hc)),
    congrArg resultBit hnew⟩

/-- A command whose second write undoes its first leaves every voxel, and so every byte. -/
theorem writesVoxel_twice {i : Instr} {s : State} {c : Coord} {new : Bool → Bool}
    (h : ∀ s, WritesVoxel i s c new) (hnew : ∀ b, new (new b) = b) :
    ∃ t, execAll [i, i] s = .next t ∧ (∀ p, s.inCube p → t.voxel p = s.voxel p) ∧
      ∀ a, t.byteAt a = s.byteAt a := by
  obtain ⟨t, hexec, hdrew, hvoxel, -⟩ := h s
  obtain ⟨u, hexec', hdrew', hvoxel', -⟩ := h t
  have hback : ∀ p, s.inCube p → u.voxel p = s.voxel p := fun p hp => by
    rw [hvoxel' p ((hdrew.inCube_iff p).2 hp), hvoxel p hp]
    split
    · exact hnew _
    · rfl
  have hbytes : BytesKeptOutside s u fun _ => False :=
    bytesKeptOutside_of_voxels (hdrew'.regs.cfg.trans hdrew.regs.cfg) fun p hp _ => hback p hp
  exact ⟨u, execAll_pair hexec hexec', hback, fun a => hbytes a fun _ _ => False.elim⟩

theorem WritesVoxel.keeps_others {i : Instr} {s : State} {c : Coord} {new : Bool → Bool}
    (h : WritesVoxel i s c new) :
    ∃ t, exec i s = .next t ∧ ∀ p, s.inCube p → p ≠ c → t.voxel p = s.voxel p := by
  obtain ⟨t, hexec, -, hvoxel, -⟩ := h
  exact ⟨t, hexec, fun p hp hne => (hvoxel p hp).trans (if_neg hne)⟩

/-- Out of range no point command touches the buffer (R42). -/
theorem drawPoint_of_not_inRange {g : Geometry} {c : Coord} (hc : ¬ inRange g c = true) (v : Byte)
    (m : Memory) : drawSetv g c.x c.y c.z m = m ∧ drawClrv g c.x c.y c.z m = m ∧
      drawTglv g c.x c.y c.z m = m ∧ drawAltv g c.x c.y c.z v m = m := by
  have hset : drawSetv g c.x c.y c.z m = m := if_neg hc
  have hclr : drawClrv g c.x c.y c.z m = m := if_neg hc
  refine ⟨hset, hclr, if_neg hc, ?_⟩
  rw [drawAltv, hset, hclr, ite_self]

theorem exec_keeps_mem_of_drawInstr {i : Instr} (hi : drawingCommand i = true) {s : State}
    (h : drawInstr s.cfg.geometry i s.mem = s.mem) : ∃ t, exec i s = .next t ∧ t.mem = s.mem :=
  ⟨_, exec_drawing hi s, h⟩

/-- Settles O28: in range from what each command writes (`WritesVoxel`), out of range from
`drawPoint_of_not_inRange`. -/
theorem pointCommandLaws : Obligations.PointCommandLaws := by
  intro s c
  refine ⟨fun hc => ⟨(setv_writesVoxel s c).getv_after hc, (clrv_writesVoxel s c).getv_after hc,
    writesVoxel_twice (fun s => tglv_writesVoxel s c) Bool.not_not, ?_⟩,
    fun hc => ⟨fun v => ?_, _, exec_getv_of_not_inCube hc, rfl⟩⟩
  · simp only [List.forall_mem_cons]
    exact ⟨(setv_writesVoxel s c).keeps_others, (clrv_writesVoxel s c).keeps_others,
      (tglv_writesVoxel s c).keeps_others, List.forall_mem_nil _⟩
  · obtain ⟨hset, hclr, htgl, halt⟩ := drawPoint_of_not_inRange hc v s.mem
    simp only [List.forall_mem_cons]
    exact ⟨exec_keeps_mem_of_drawInstr rfl hset, exec_keeps_mem_of_drawInstr rfl hclr,
      exec_keeps_mem_of_drawInstr rfl htgl, exec_keeps_mem_of_drawInstr rfl halt,
      List.forall_mem_nil _⟩

end Sys2Proof.Machine
end

section
/-!
The fill and plane family (42_fill_plane.md): FILL stores one byte everywhere, each of the six plane
commands gives the voxels of its plane one value.
-/

namespace Sys2Proof.Machine

open Sys2Proof

/-! FILL (R120). -/

theorem encodedAs_fill : EncodedAs 0xFC000000 0x18000000 (fun w => .fill (immediateOf w)) :=
  encodedAs_of_decodeAs rfl fun w => by
    rw [← fieldIMM8_eq_immediateOf]
    rfl

theorem memRead_drawFill {g : Geometry} {a : Nat} (ha : a < totalBytes g) (pattern : Byte)
    (m : Memory) : memRead g (drawFill g pattern m) a = pattern := by
  rw [memRead_of_lt ha, drawFill, lookupByte_fillBytes, if_pos ha]

/-- Settles O29: each byte by `memRead_drawFill`; a voxel is the pattern's bit at its place, which
the geometry gives (R43, R44). -/
theorem fillStoresEveryByte : Obligations.FillStoresEveryByte := by
  refine ⟨encodedAs_fill, fun s pattern => ⟨_, exec_drawing rfl s, drew_completed _ s,
    fun a ha => memRead_drawFill ha pattern s.mem, fun p hp => ?_⟩⟩
  refine (getV_drawFill s.mem pattern hp).trans ?_
  cases s.cfg.geometry with
  | n8 => rfl
  | n4 => rfl

/-! Planes (R121 to R126). -/

/-- A row of the opcode map in format C: the plane's coordinate stands in field A (R62). -/
theorem encodedAs_plane {pattern : CommandWord} (i : Nat → Instr)
    (hrow : ∀ w, decodeAs (fieldOP pattern) w = .command (i (fieldA w))) :
    EncodedAs 0xFC000000 pattern (fun w => i (bitsAt w 20 4)) :=
  encodedAs_of_decodeAs rfl fun w => by
    rw [← fieldA_eq_bitsAt]
    exact hrow w

/-- From `s`, the command completes as a drawing command that makes each in-range voxel in `P` the
value `b`, and keeps every other voxel and each byte with no voxel in `P`. -/
def PaintsVoxels (i : Instr) (s : State) (P : Coord → Prop) [DecidablePred P] (b : Bool) : Prop :=
  ∃ t, exec i s = .next t ∧ Drew s t ∧
    (∀ p, s.inCube p → t.voxel p = if P p then b else s.voxel p) ∧ BytesKeptOutside s t P

/-- It is enough to know what the command's drawing function does to each voxel. -/
theorem paintsVoxels_of_getV {i : Instr} (hi : drawingCommand i = true) {s : State}
    {P : Coord → Prop} [DecidablePred P] {b : Bool}
    (h : ∀ p, s.inCube p → getV s.cfg.geometry (drawInstr s.cfg.geometry i s.mem) p =
      if P p then b else s.voxel p) : PaintsVoxels i s P b :=
  ⟨_, exec_drawing hi s, drew_completed _ s, h,
    bytesKeptOutside_of_voxels rfl fun p hp hP => (h p hp).trans (if_neg hP)⟩

/-- At or above `CUBE_N` no plane command touches the buffer. -/
theorem planeCommands_keep_mem {s : State} {c : Nat} (hc : cubeN s.cfg.geometry ≤ c) :
    (∀ i ∈ [Instr.setpx c, .setpy c, .setpz c], ∃ t, exec i s = .next t ∧ t.mem = s.mem) ∧
      ∀ i ∈ [Instr.clrpx c, .clrpy c, .clrpz c], ∃ t, exec i s = .next t ∧ t.mem = s.mem := by
  have hout : ¬ planeInRange s.cfg.geometry c = true := mt of_decide_eq_true (Nat.not_lt.2 hc)
  simp only [List.forall_mem_cons]
  exact ⟨⟨exec_keeps_mem_of_drawInstr rfl (if_neg hout),
      exec_keeps_mem_of_drawInstr rfl (if_neg hout),
      exec_keeps_mem_of_drawInstr rfl (if_neg hout), List.forall_mem_nil _⟩,
    exec_keeps_mem_of_drawInstr rfl (if_neg hout), exec_keeps_mem_of_drawInstr rfl (if_neg hout),
    exec_keeps_mem_of_drawInstr rfl (if_neg hout), List.forall_mem_nil _⟩

/-- Settles O30: each plane by what the command's drawing function does to each voxel, out of range
by `planeCommands_keep_mem`. -/
theorem setPlaneCommandsSetTheirPlane : Obligations.SetPlaneCommandsSetTheirPlane :=
  ⟨encodedAs_plane .setpx fun _ => rfl, encodedAs_plane .setpy fun _ => rfl,
    encodedAs_plane .setpz fun _ => rfl, fun s c =>
      ⟨paintsVoxels_of_getV rfl fun _ hp => getV_drawSetpx s.mem c hp,
        paintsVoxels_of_getV rfl fun _ hp => getV_drawSetpy s.mem c hp,
        paintsVoxels_of_getV rfl fun _ hp => getV_drawSetpz s.mem c hp,
        fun hc => (planeCommands_keep_mem hc).1⟩⟩

/-- Settles O31: each plane by what the command's drawing function does to each voxel, out of range
by `planeCommands_keep_mem`. -/
theorem clearPlaneCommandsClearTheirPlane : Obligations.ClearPlaneCommandsClearTheirPlane :=
  ⟨encodedAs_plane .clrpx fun _ => rfl, encodedAs_plane .clrpy fun _ => rfl,
    encodedAs_plane .clrpz fun _ => rfl, fun s c =>
      ⟨paintsVoxels_of_getV rfl fun _ hp => getV_drawClrpx s.mem c hp,
        paintsVoxels_of_getV rfl fun _ hp => getV_drawClrpy s.mem c hp,
        paintsVoxels_of_getV rfl fun _ hp => getV_drawClrpz s.mem c hp,
        fun hc => (planeCommands_keep_mem hc).2⟩⟩

end Sys2Proof.Machine
end

section
/-!
The box and line family (43_box_line.md): the three styles of BOX said of the corners as they are
given, the rounded voxels of LINE, and the line laws of R154.
-/

namespace Sys2Proof.Machine

open Sys2Proof

/-! The words (R65). -/

theorem fieldD_eq_bitsAt (w : CommandWord) : fieldD w = bitsAt w 8 4 := wordField_eq_bitsAt w 8 4
theorem fieldE_eq_bitsAt (w : CommandWord) : fieldE w = bitsAt w 4 4 := wordField_eq_bitsAt w 4 4
theorem fieldF_eq_bitsAt (w : CommandWord) : fieldF w = bitsAt w 0 4 := wordField_eq_bitsAt w 0 4

/-- BOX's row of the opcode map, split by the style's code in `T` (R140). -/
theorem encodedAs_box {pattern : CommandWord} {style : BoxStyle} (hop : fieldOP pattern = 0x10)
    (hstyle : boxStyleOf (fieldT pattern) = style) : EncodedAs 0xFF000000 pattern (fun w =>
      .box style (bitsAt w 20 4) (bitsAt w 16 4) (bitsAt w 12 4) (bitsAt w 8 4) (bitsAt w 4 4)
        (bitsAt w 0 4)) := by
  intro w hw
  have hT : fieldT w = fieldT pattern := wordField_of_match hw rfl
  rw [decode_of_match hw rfl, hop, ← hstyle, ← hT]
  simp only [← fieldA_eq_bitsAt, ← fieldB_eq_bitsAt, ← fieldC_eq_bitsAt, ← fieldD_eq_bitsAt,
    ← fieldE_eq_bitsAt, ← fieldF_eq_bitsAt]
  rfl

theorem encodedAs_line : EncodedAs 0xFC000000 0x44000000 (fun w => .line (bitsAt w 20 4)
    (bitsAt w 16 4) (bitsAt w 12 4) (bitsAt w 8 4) (bitsAt w 4 4) (bitsAt w 0 4)) :=
  encodedAs_of_decodeAs rfl fun w => by
    rw [← fieldA_eq_bitsAt, ← fieldB_eq_bitsAt, ← fieldC_eq_bitsAt, ← fieldD_eq_bitsAt,
      ← fieldE_eq_bitsAt, ← fieldF_eq_bitsAt]
    rfl

/-! From a drawing function to its command. -/

/-- It is enough to know which voxels the drawing function leaves on, and that those outside `Q`
are the ones that were on. -/
theorem exec_drawing_voxels {i : Instr} (hi : drawingCommand i = true) {s : State}
    {on Q : Coord → Prop}
    (hon : ∀ p, s.inCube p →
      (getV s.cfg.geometry (drawInstr s.cfg.geometry i s.mem) p = true ↔ on p))
    (hkeep : ∀ p, ¬ Q p → (on p ↔ s.voxel p = true)) :
    ∃ t, exec i s = .next t ∧ Drew s t ∧ (∀ p, s.inCube p → (t.voxel p = true ↔ on p)) ∧
      BytesKeptOutside s t Q :=
  ⟨_, exec_drawing hi s, drew_completed _ s, hon, bytesKeptOutside_of_voxels rfl fun p hp hQ =>
    Bool.eq_iff_iff.2 ((hon p hp).trans (hkeep p hQ))⟩

theorem exec_drew_of_drawInstr {i : Instr} (hi : drawingCommand i = true) {s : State}
    (h : drawInstr s.cfg.geometry i s.mem = s.mem) :
    ∃ t, exec i s = .next t ∧ Drew s t ∧ t.mem = s.mem :=
  ⟨_, exec_drawing hi s, drew_completed _ s, h⟩

theorem exec_eq_of_drawInstr {i j : Instr} (hi : drawingCommand i = true)
    (hj : drawingCommand j = true) {s : State}
    (h : drawInstr s.cfg.geometry i s.mem = drawInstr s.cfg.geometry j s.mem) :
    exec i s = exec j s := by
  rw [exec_drawing hi, exec_drawing hj, h]

theorem ite_true_eq_true_iff {P : Prop} [Decidable P] {b : Bool} :
    (if P then true else b) = true ↔ P ∨ b = true := by
  by_cases h : P <;> simp [h]

theorem coord_eq_iff {p q : Coord} : p = q ↔ p.x = q.x ∧ p.y = q.y ∧ p.z = q.z := by
  cases p
  cases q
  rw [Coord.mk.injEq]

/-! The corners in order (R140). -/

/-- The two corners with each axis put in order. -/
def orderedCorners (c d : Coord) : TwoPoints :=
  ⟨⟨min c.x d.x, min c.y d.y, min c.z d.z⟩, ⟨max c.x d.x, max c.y d.y, max c.z d.z⟩⟩

theorem boxPrologue_eq (g : Geometry) (c d : Coord) : boxPrologue g c d =
    if inRange g c && inRange g d then some (orderedCorners c d) else none := rfl

theorem boxPrologue_of_inRange {g : Geometry} {c d : Coord} (hc : inRange g c = true)
    (hd : inRange g d = true) : boxPrologue g c d = some (orderedCorners c d) := by
  rw [boxPrologue_eq, hc, hd, Bool.and_self, if_pos rfl]

theorem orderedCorners_ok {g : Geometry} {c d : Coord} (hc : inRange g c = true)
    (hd : inRange g d = true) : BoxOk g (orderedCorners c d) :=
  boxPrologue_ok (boxPrologue_of_inRange hc hd)

theorem orderedCorners_idem (c d : Coord) :
    orderedCorners (orderedCorners c d).p (orderedCorners c d).q = orderedCorners c d := by
  simp only [orderedCorners, min_eq_left min_le_max, max_eq_right min_le_max]

/-- Ordering only moves values between the corners, so the range check does not see it. -/
theorem inRange_orderedCorners (g : Geometry) (c d : Coord) :
    (inRange g (orderedCorners c d).p && inRange g (orderedCorners c d).q) =
      (inRange g c && inRange g d) := by
  rw [Bool.eq_iff_iff, Bool.and_eq_true, Bool.and_eq_true]
  simp only [inRange_iff, orderedCorners]
  omega

theorem boxPrologue_orderedCorners (g : Geometry) (c d : Coord) :
    boxPrologue g (orderedCorners c d).p (orderedCorners c d).q = boxPrologue g c d := by
  rw [boxPrologue_eq, boxPrologue_eq, inRange_orderedCorners, orderedCorners_idem]

theorem atBound_iff_min_or_max {a b v : Nat} : v = min a b ∨ v = max a b ↔ atBound a b v := by
  unfold atBound
  omega

theorem inBox_orderedCorners {c d v : Coord} :
    inBox (orderedCorners c d) v = true ↔ inTheBox c d v := by
  rw [← mem_boxCoords_iff_inBox, mem_boxCoords]
  rfl

/-! BOX (R141 to R145). -/

theorem drawBox_of_inRange {g : Geometry} (style : BoxStyle) {c d : Coord}
    (hc : inRange g c = true) (hd : inRange g d = true) (m : Memory) :
    drawBox g style c d m = drawStyle g style (orderedCorners c d) m := by
  rw [drawBox, boxPrologue_of_inRange hc hd]

theorem drawBox_of_not_inRange {g : Geometry} (style : BoxStyle) {c d : Coord}
    (h : ¬ (inRange g c = true ∧ inRange g d = true)) (m : Memory) :
    drawBox g style c d m = m := by
  rw [← Bool.and_eq_true] at h
  rw [drawBox, boxPrologue_eq, if_neg h]

theorem drawBox_orderedCorners (g : Geometry) (style : BoxStyle) (c d : Coord) (m : Memory) :
    drawBox g style (orderedCorners c d).p (orderedCorners c d).q m = drawBox g style c d m := by
  rw [drawBox, drawBox, boxPrologue_orderedCorners]

theorem drawBox_noStyle (g : Geometry) (c d : Coord) (m : Memory) :
    drawBox g .noStyle c d m = m := by
  unfold drawBox
  split
  · rfl
  · rfl

/-- Settles O32: the word by its style's code; a corner out of range by `drawBox_of_not_inRange`,
the order of the corners by `drawBox_orderedCorners`. -/
theorem boxChecksItsCornersAndOrdersThem : Obligations.BoxChecksItsCornersAndOrdersThem :=
  ⟨encodedAs_box rfl rfl, encodedAs_box rfl rfl, encodedAs_box rfl rfl, encodedAs_box rfl rfl,
    fun s style c d =>
      ⟨fun h => exec_drew_of_drawInstr rfl (drawBox_of_not_inRange style h s.mem),
        exec_eq_of_drawInstr rfl rfl (drawBox_orderedCorners _ style c d s.mem).symm⟩⟩

/-- Settles O36: without a style the buffer stays, in range and out of range. -/
theorem boxWithoutStyleDoesNothing : Obligations.BoxWithoutStyleDoesNothing :=
  ⟨encodedAs_box rfl rfl, fun s c d => exec_drew_of_drawInstr rfl (drawBox_noStyle _ c d s.mem)⟩

/-- At least two of the voxel's coordinates are at a bound of their axis (R143). -/
def atTwoBounds (c d v : Coord) : Prop :=
  (atBound c.x d.x v.x ∧ atBound c.y d.y v.y) ∨ (atBound c.y d.y v.y ∧ atBound c.z d.z v.z) ∨
    (atBound c.x d.x v.x ∧ atBound c.z d.z v.z)

theorem two_le_boundsMet_orderedCorners {c d v : Coord} :
    2 ≤ boundsMet (orderedCorners c d) v ↔ atTwoBounds c d v := by
  have count : ∀ x y z : Bool, 2 ≤ x.toNat + y.toNat + z.toNat ↔
      (x = true ∧ y = true) ∨ (y = true ∧ z = true) ∨ (x = true ∧ z = true) := by decide
  simp only [boundsMet, count, orderedCorners, Bool.or_eq_true, beq_iff_eq, atBound_iff_min_or_max,
    atTwoBounds]

theorem wallsRowVoxel_iff {b : TwoPoints} {v : Coord} {old : Bool} :
    wallsRowVoxel b v old = true ↔
      if v.z = b.p.z ∨ v.z = b.q.z ∨ v.y = b.p.y ∨ v.y = b.q.y then b.p.x ≤ v.x ∧ v.x ≤ b.q.x
      else (v.x = b.p.x ∨ v.x = b.q.x) ∨ old = true := by
  unfold wallsRowVoxel
  split
  · rw [Bool.and_eq_true, decide_eq_true_iff, decide_eq_true_iff]
  · exact ite_true_eq_true_iff

/-- A row on a face is the mask between the bounds, another row gets its two side voxels (R142). -/
theorem wallsRowVoxel_orderedCorners {c d v : Coord} {old : Bool} :
    wallsRowVoxel (orderedCorners c d) v old = true ↔
      if atBound c.y d.y v.y ∨ atBound c.z d.z v.z then between c.x d.x v.x
      else atBound c.x d.x v.x ∨ old = true := by
  have hface : (v.z = min c.z d.z ∨ v.z = max c.z d.z ∨ v.y = min c.y d.y ∨ v.y = max c.y d.y) ↔
      (atBound c.y d.y v.y ∨ atBound c.z d.z v.z) := by
    rw [← or_assoc, atBound_iff_min_or_max, atBound_iff_min_or_max, or_comm]
  have hside : ((v.x = min c.x d.x ∨ v.x = max c.x d.x) ∨ old = true) =
      (atBound c.x d.x v.x ∨ old = true) := by rw [atBound_iff_min_or_max]
  exact wallsRowVoxel_iff.trans (iff_of_eq (if_congr hface rfl hside))

section
variable {g : Geometry} {c d v : Coord} (hc : inRange g c = true) (hd : inRange g d = true)
  (hv : inRange g v = true) (m : Memory)
include hc hd hv

theorem getV_drawBox_filled : getV g (drawBox g .filled c d m) v = true ↔
    inTheBox c d v ∨ getV g m v = true := by
  rw [drawBox_of_inRange .filled hc hd, drawStyle, getV_drawFilled (orderedCorners_ok hc hd) m hv,
    ite_true_eq_true_iff, inBox_orderedCorners]

theorem getV_drawBox_frame : getV g (drawBox g .frame c d m) v = true ↔
    (inTheBox c d v ∧ atTwoBounds c d v) ∨ getV g m v = true := by
  rw [drawBox_of_inRange .frame hc hd, drawStyle, getV_drawFrame (orderedCorners_ok hc hd) m hv,
    ite_true_eq_true_iff, inBox_orderedCorners, two_le_boundsMet_orderedCorners]

theorem getV_drawBox_walls : getV g (drawBox g .walls c d m) v = true ↔
    if between c.y d.y v.y ∧ between c.z d.z v.z then
      if atBound c.y d.y v.y ∨ atBound c.z d.z v.z then between c.x d.x v.x
      else atBound c.x d.x v.x ∨ getV g m v = true
    else getV g m v = true := by
  rw [drawBox_of_inRange .walls hc hd, drawStyle, getV_drawWalls (orderedCorners_ok hc hd) m hv,
    ← wallsRowVoxel_orderedCorners, ← apply_ite (· = true)]
  rfl

end

/-- Settles O33: FILLED adds the voxels of the box to those that were on. -/
theorem boxFilledSetsTheBox : Obligations.BoxFilledSetsTheBox :=
  ⟨encodedAs_box rfl rfl, fun s _ _ hc hd =>
    exec_drawing_voxels rfl (fun _ hp => getV_drawBox_filled hc hd hp s.mem)
      fun _ hout => or_iff_right hout⟩

/-- Settles O34: WALLS as `drawWalls` does it row by row; outside the rows of the box it keeps. -/
theorem boxWallsOverwritesBoundaryRows : Obligations.BoxWallsOverwritesBoundaryRows :=
  ⟨encodedAs_box rfl rfl, fun s _ _ hc hd =>
    exec_drawing_voxels rfl (fun _ hp => getV_drawBox_walls hc hd hp s.mem)
      fun _ hout => iff_of_eq (if_neg hout)⟩

/-- Settles O35: FRAME adds the edges of the box, which lie in it, to the voxels that were on. -/
theorem boxFrameSetsTheEdges : Obligations.BoxFrameSetsTheEdges :=
  ⟨encodedAs_box rfl rfl, fun s _ _ hc hd =>
    exec_drawing_voxels rfl (fun _ hp => getV_drawBox_frame hc hd hp s.mem)
      fun _ hout => or_iff_right fun hedge => hout hedge.1⟩

/-! The rounded coordinate (R151). -/

theorem roundHalfUp_zero (dx : Nat) : roundHalfUp 0 dx = 0 := by
  rw [roundHalfUp, Nat.div_eq_zero_iff]
  omega

theorem lineAt_eq_roundedTo (a b k dx : Nat) : lineAt a b k dx = roundedTo a b k dx := by
  by_cases h : a ≤ b
  · rw [lineAt_up h, roundedTo, if_pos h]
    split
    · subst b
      rw [Nat.sub_self, Nat.zero_mul, ← roundHalfUp, roundHalfUp_zero]
    · rfl
  · rw [roundedTo, if_neg h]
    exact lineAt_down (Nat.lt_of_not_le h) k dx

theorem roundedTo_between {a b k dx : Nat} (hdx : 0 < dx) (hk : k ≤ dx) :
    between a b (roundedTo a b k dx) := by
  rw [← lineAt_eq_roundedTo]
  exact lineAt_between hdx hk

theorem roundedTo_self (a k dx : Nat) : roundedTo a a k dx = a := by
  rw [← lineAt_eq_roundedTo, lineAt_up le_rfl, if_pos rfl, Nat.add_zero]

/-- The rounded coordinate moves only toward the other end (R154). -/
theorem roundedTo_mono (a b dx : Nat) {j k : Nat} (hjk : j ≤ k) :
    (a ≤ b → roundedTo a b j dx ≤ roundedTo a b k dx) ∧
      (b ≤ a → roundedTo a b k dx ≤ roundedTo a b j dx) := by
  have hround : ∀ n, (2 * (n * j) + dx) / (2 * dx) ≤ (2 * (n * k) + dx) / (2 * dx) := fun n =>
    Nat.div_le_div_right (by have := Nat.mul_le_mul_left n hjk; omega)
  refine ⟨fun hab => ?_, fun hba => ?_⟩
  · rw [roundedTo, roundedTo, if_pos hab, if_pos hab]
    exact Nat.add_le_add_left (hround _) a
  · rcases hba.eq_or_lt with rfl | hlt
    · rw [roundedTo_self, roundedTo_self]
    · rw [roundedTo, roundedTo, if_neg (Nat.not_le.2 hlt), if_neg (Nat.not_le.2 hlt)]
      exact Nat.sub_le_sub_left (hround _) a

/-! The voxels of a line (R150 to R153). -/

/-- The voxel is on the line between two endpoints in any order (R152); with equal x it is the
first endpoint (R153). -/
def onLineBetween (c d v : Coord) : Prop :=
  (c.x < d.x ∧ onLine c d v) ∨ (d.x < c.x ∧ onLine d c v) ∨ (c.x = d.x ∧ v = c)

theorem linePrologue_eq (g : Geometry) (c d : Coord) : linePrologue g c d =
    if inRange g c && inRange g d then if d.x < c.x then some ⟨d, c⟩ else some ⟨c, d⟩
    else none := rfl

/-- With different x the prologue puts either order of the endpoints into the same one (R154). -/
theorem linePrologue_comm (g : Geometry) {c d : Coord} (h : c.x ≠ d.x) :
    linePrologue g c d = linePrologue g d c := by
  rw [linePrologue_eq, linePrologue_eq, Bool.and_comm]
  rcases Nat.lt_or_gt_of_ne h with hlt | hgt
  · rw [if_neg hlt.asymm, if_pos hlt]
  · rw [if_pos hgt, if_neg hgt.asymm]

theorem mem_lineCoords_iff_onLine {c d v : Coord} (h : c.x < d.x) :
    v ∈ lineCoords ⟨c, d⟩ ↔ onLine c d v := by
  have hdx : 0 < d.x - c.x := Nat.sub_pos_of_lt h
  simp only [mem_lineCoords, hdx, hdx.ne', false_and, true_and, false_or, lineAt_eq_roundedTo,
    onLine]
  exact exists_congr fun k => and_congr_right fun _ => coord_eq_iff

theorem mem_lineCoords_of_x_eq {c d v : Coord} (h : c.x = d.x) :
    v ∈ lineCoords ⟨c, d⟩ ↔ v = c := by
  simp [mem_lineCoords, h]

/-- LINE draws the voxels between its endpoints, by the order the prologue puts them in. -/
theorem linePrologue_of_inRange {g : Geometry} {c d : Coord} (hc : inRange g c = true)
    (hd : inRange g d = true) :
    ∃ l, linePrologue g c d = some l ∧ ∀ v, v ∈ lineCoords l ↔ onLineBetween c d v := by
  rw [linePrologue_eq, hc, hd, Bool.and_self, if_pos rfl]
  rcases Nat.lt_trichotomy c.x d.x with hlt | heq | hgt
  · refine ⟨⟨c, d⟩, if_neg hlt.asymm, fun v => ?_⟩
    simp [onLineBetween, mem_lineCoords_iff_onLine hlt, hlt, hlt.asymm, hlt.ne]
  · refine ⟨⟨c, d⟩, if_neg heq.not_gt, fun v => ?_⟩
    simp [onLineBetween, mem_lineCoords_of_x_eq heq, heq]
  · refine ⟨⟨d, c⟩, if_pos hgt, fun v => ?_⟩
    simp [onLineBetween, mem_lineCoords_iff_onLine hgt, hgt, hgt.asymm, hgt.ne']

theorem getV_drawLine_of_inRange {g : Geometry} {c d v : Coord} (hc : inRange g c = true)
    (hd : inRange g d = true) (hv : inRange g v = true) (m : Memory) :
    getV g (drawLine g c d m) v = true ↔ onLineBetween c d v ∨ getV g m v = true := by
  obtain ⟨l, hl, hmem⟩ := linePrologue_of_inRange hc hd
  simp only [getV_drawLine c d m hv, hl, ite_true_eq_true_iff, hmem]

theorem drawLine_of_not_inRange {g : Geometry} {c d : Coord}
    (h : ¬ (inRange g c = true ∧ inRange g d = true)) (m : Memory) : drawLine g c d m = m := by
  rw [← Bool.and_eq_true] at h
  rw [drawLine, linePrologue_eq, if_neg h]

theorem drawLine_comm (g : Geometry) {c d : Coord} (h : c.x ≠ d.x) (m : Memory) :
    drawLine g c d m = drawLine g d c m := by
  rw [drawLine, drawLine, linePrologue_comm g h]

/-- LINE adds the voxels between its endpoints to those that were on. -/
theorem exec_line_voxels {s : State} {c d : Coord} (hc : s.inCube c) (hd : s.inCube d) :
    ∃ t, exec (.line c.x c.y c.z d.x d.y d.z) s = .next t ∧ Drew s t ∧
      (∀ p, s.inCube p → (t.voxel p = true ↔ onLineBetween c d p ∨ s.voxel p = true)) ∧
      BytesKeptOutside s t (onLineBetween c d) :=
  exec_drawing_voxels rfl (fun _ hp => getV_drawLine_of_inRange hc hd hp s.mem)
    fun _ hout => or_iff_right hout

/-- Settles O37: out of range by the prologue, in range by `exec_line_voxels`. -/
theorem lineSetsTheRoundedVoxels : Obligations.LineSetsTheRoundedVoxels := by
  refine ⟨encodedAs_line, fun s c d =>
    ⟨fun h => exec_drew_of_drawInstr rfl (drawLine_of_not_inRange h s.mem), fun hc hd => ?_⟩⟩
  obtain ⟨t, hexec, hdrew, hvoxel, hbytes⟩ := exec_line_voxels hc hd
  refine ⟨t, hexec, hdrew, fun p hp => ?_, hbytes⟩
  rw [hvoxel p hp, onLineBetween, or_assoc, or_assoc]

/-! The line laws (R154). -/

theorem between_comm {a b v : Nat} : between a b v ↔ between b a v := by
  rw [between, between, min_comm, max_comm]

theorem inTheBox_comm {c d v : Coord} : inTheBox c d v ↔ inTheBox d c v :=
  and_congr between_comm (and_congr between_comm between_comm)

theorem inTheBox_of_onLine {c d v : Coord} (h : c.x < d.x) (hv : onLine c d v) :
    inTheBox c d v := by
  obtain ⟨k, hk, hx, hy, hz⟩ := hv
  have hdx : 0 < d.x - c.x := Nat.sub_pos_of_lt h
  rw [inTheBox, hx, hy, hz]
  exact ⟨by omega, roundedTo_between hdx hk, roundedTo_between hdx hk⟩

theorem inTheBox_of_onLineBetween {c d v : Coord} (hv : onLineBetween c d v) :
    inTheBox c d v := by
  rcases hv with ⟨hlt, hv⟩ | ⟨hgt, hv⟩ | ⟨-, rfl⟩
  · exact inTheBox_of_onLine hlt hv
  · exact inTheBox_comm.1 (inTheBox_of_onLine hgt hv)
  · exact ⟨⟨min_le_left _ _, le_max_left _ _⟩, ⟨min_le_left _ _, le_max_left _ _⟩,
      ⟨min_le_left _ _, le_max_left _ _⟩⟩

/-- y and z are monotone in x. -/
theorem onLine_mono {c d p q : Coord} (hp : onLine c d p) (hq : onLine c d q) (hpq : p.x ≤ q.x) :
    (c.y ≤ d.y → p.y ≤ q.y) ∧ (d.y ≤ c.y → q.y ≤ p.y) ∧
      (c.z ≤ d.z → p.z ≤ q.z) ∧ (d.z ≤ c.z → q.z ≤ p.z) := by
  obtain ⟨j, -, hpx, hpy, hpz⟩ := hp
  obtain ⟨k, -, hqx, hqy, hqz⟩ := hq
  have hjk : j ≤ k := by omega
  obtain ⟨hyup, hydown⟩ := roundedTo_mono c.y d.y (d.x - c.x) hjk
  obtain ⟨hzup, hzdown⟩ := roundedTo_mono c.z d.z (d.x - c.x) hjk
  rw [hpy, hqy, hpz, hqz]
  exact ⟨hyup, hydown, hzup, hzdown⟩

/-- Between endpoints of one row the line is the row's segment. -/
theorem onLine_iff_of_row {c d v : Coord} (hy : c.y = d.y) (hz : c.z = d.z) (hx : c.x < d.x) :
    onLine c d v ↔ inTheBox c d v := by
  refine ⟨inTheBox_of_onLine hx, fun hv => ⟨v.x - c.x, ?_⟩⟩
  rw [← hy, ← hz, roundedTo_self, roundedTo_self]
  omega

theorem onLineBetween_iff_of_row {c d v : Coord} (hy : c.y = d.y) (hz : c.z = d.z) :
    onLineBetween c d v ↔ inTheBox c d v := by
  refine ⟨inTheBox_of_onLineBetween, fun hv => ?_⟩
  rcases Nat.lt_trichotomy c.x d.x with hlt | heq | hgt
  · exact .inl ⟨hlt, (onLine_iff_of_row hy hz hlt).2 hv⟩
  · refine .inr (.inr ⟨heq, ?_⟩)
    rw [coord_eq_iff]
    omega
  · exact .inr (.inl ⟨hgt, (onLine_iff_of_row hy.symm hz.symm hgt).2 (inTheBox_comm.1 hv)⟩)

/-- Settles O38: a newly set voxel is on the line, whose laws are the lemmas above; the row's
segment is what FILLED sets (O33). -/
theorem lineLaws : Obligations.LineLaws := by
  intro s c d hc hd
  obtain ⟨t, hexec, -, hvoxel, -⟩ := exec_line_voxels hc hd
  have hnew : ∀ p, s.inCube p → s.voxel p = false → t.voxel p = true → onLineBetween c d p :=
    fun p hp hoff hon => ((hvoxel p hp).1 hon).resolve_right (Bool.eq_false_iff.1 hoff)
  have hnew_up : ∀ p, s.inCube p → s.voxel p = false → t.voxel p = true → c.x < d.x →
      onLine c d p := fun p hp hoff hon hx => by
    rcases hnew p hp hoff hon with ⟨-, h⟩ | ⟨hgt, -⟩ | ⟨heq, -⟩
    · exact h
    · exact absurd hgt hx.asymm
    · exact absurd heq hx.ne
  refine ⟨fun hne => exec_eq_of_drawInstr rfl rfl (drawLine_comm _ hne s.mem), t, hexec,
    fun p hp hoff hon => inTheBox_of_onLineBetween (hnew p hp hoff hon),
    fun p q hp hq hpoff hqoff hpon hqon hx => onLine_mono (hnew_up p hp hpoff hpon hx)
      (hnew_up q hq hqoff hqon hx), fun hy hz => ?_⟩
  obtain ⟨u, hexec', -, hvoxel', -⟩ := boxFilledSetsTheBox.2 s c d hc hd
  refine ⟨u, hexec', fun p hp => Bool.eq_iff_iff.2 ?_⟩
  rw [hvoxel p hp, hvoxel' p hp, onLineBetween_iff_of_row hy hz]

end Sys2Proof.Machine
end

section
/-!
The shift family (44_shift.md): where each voxel comes from, the plane the shift vacates, and the
layer-by-layer traversal that needs no second buffer.
-/

namespace Sys2Proof.Machine

open Sys2Proof

/-! The word (R65). -/

/-- SHIFT's row of the opcode map, split by the axis in `T` and the direction in bit 0 (R170). -/
theorem encodedAs_shift {pattern : CommandWord} {axis : Axis} {dir : Dir}
    (hop : fieldOP pattern = 0x12) (haxis : axisOf (fieldT pattern) = axis)
    (hdir : dirOf (fieldBit0 pattern) = dir) :
    EncodedAs 0xFF000001 pattern (fun _ => .shift axis dir) := by
  intro w hw
  have hT : fieldT w = fieldT pattern := wordField_of_match hw rfl
  have hbit : fieldBit0 w = fieldBit0 pattern := wordField_of_match hw rfl
  rw [decode_of_match hw rfl, hop, ← haxis, ← hdir, ← hT, ← hbit]
  rfl

/-! A coordinate along an axis. -/

theorem along_moveTo {axis : Axis} (ha : axis ≠ .noAxis) (k : Nat) (p : Coord) :
    along axis (moveTo axis k p) = k := by
  cases axis
  case noAxis => exact absurd rfl ha
  all_goals rfl

theorem moveTo_moveTo (axis : Axis) (j k : Nat) (p : Coord) :
    moveTo axis k (moveTo axis j p) = moveTo axis k p := by
  cases axis <;> rfl

theorem moveTo_along (axis : Axis) (p : Coord) : moveTo axis (along axis p) p = p := by
  cases axis <;> rfl

theorem along_lt (axis : Axis) {g : Geometry} {p : Coord} (hp : inRange g p = true) :
    along axis p < cubeN g := by
  obtain ⟨hx, hy, hz⟩ := inRange_iff.1 hp
  cases axis
  · exact hx
  · exact hy
  · exact hz
  · exact cubeN_pos g

theorem inRange_moveTo (axis : Axis) {g : Geometry} {p : Coord} {k : Nat}
    (hp : inRange g p = true) (hk : k < cubeN g) : inRange g (moveTo axis k p) = true := by
  obtain ⟨hx, hy, hz⟩ := inRange_iff.1 hp
  cases axis
  · exact inRange_iff.2 ⟨hk, hy, hz⟩
  · exact inRange_iff.2 ⟨hx, hk, hz⟩
  · exact inRange_iff.2 ⟨hx, hy, hk⟩
  · exact hp

theorem mem_planeAt {axis : Axis} (ha : axis ≠ .noAxis) {g : Geometry} {p : Coord}
    (hp : inRange g p = true) {k : Nat} : p ∈ planeAt g axis k ↔ along axis p = k := by
  obtain ⟨hx, hy, hz⟩ := inRange_iff.1 hp
  cases axis
  · exact mem_planeX.trans (and_iff_left ⟨hy, hz⟩)
  · exact mem_planeY.trans (and_iff_left ⟨hx, hz⟩)
  · exact mem_planeZ.trans (and_iff_left ⟨hx, hy⟩)
  · exact absurd rfl ha

theorem planeAt_inRange (axis : Axis) {g : Geometry} {k : Nat} (hk : k < cubeN g) :
    ∀ p ∈ planeAt g axis k, inRange g p = true := by
  cases axis
  · exact planeX_inRange hk
  · exact planeY_inRange hk
  · exact planeZ_inRange hk
  · exact List.forall_mem_nil _

/-! The layers of a shift (R170). -/

/-- The layer that layer `k` comes from. -/
def sourceLayer : Dir → Nat → Nat
  | .minus, k => k + 1
  | .plus, k => k - 1

/-- Layer `k` comes from a layer of the cube. -/
def hasSource (g : Geometry) : Dir → Nat → Bool
  | .minus, k => k < cubeN g - 1
  | .plus, k => 0 < k

/-- The layer that comes from none. -/
def vacatedLayer (g : Geometry) : Dir → Nat
  | .minus => cubeN g - 1
  | .plus => 0

theorem vacatedLayer_lt (g : Geometry) (dir : Dir) : vacatedLayer g dir < cubeN g := by
  cases dir
  · exact Nat.pred_lt (cubeN_pos g).ne'
  · exact cubeN_pos g

theorem hasSource_iff {g : Geometry} {dir : Dir} {k : Nat} (hk : k < cubeN g) :
    hasSource g dir k = true ↔ k ≠ vacatedLayer g dir := by
  cases dir <;> simp only [hasSource, vacatedLayer, decide_eq_true_eq] <;> omega

theorem sourceLayer_lt {g : Geometry} {dir : Dir} {k : Nat} (hk : k < cubeN g)
    (hsource : hasSource g dir k = true) : sourceLayer dir k < cubeN g := by
  cases dir <;> simp only [hasSource, sourceLayer, decide_eq_true_eq] at * <;> omega

/-- The source is one layer nearer to the vacated one. -/
theorem dist_sourceLayer {g : Geometry} {dir : Dir} {k : Nat} (hsource : hasSource g dir k = true) :
    Nat.dist (sourceLayer dir k) (vacatedLayer g dir) + 1 = Nat.dist k (vacatedLayer g dir) := by
  cases dir <;>
    simp only [hasSource, sourceLayer, vacatedLayer, Nat.dist, decide_eq_true_eq] at * <;> omega

theorem shiftedVoxel_eq (g : Geometry) (axis : Axis) (dir : Dir) (m : Memory) (p : Coord) :
    shiftedVoxel g axis dir m p = (hasSource g dir (along axis p) &&
      getV g m (moveTo axis (sourceLayer dir (along axis p)) p)) := by
  cases dir <;> exact Bool.if_false_right _ _

theorem shiftedVoxel_of_vacated {g : Geometry} {axis : Axis} {dir : Dir} {p : Coord}
    (hp : inRange g p = true) (h : along axis p = vacatedLayer g dir) (m : Memory) :
    shiftedVoxel g axis dir m p = false := by
  have hnone : hasSource g dir (along axis p) = false :=
    Bool.eq_false_iff.2 (mt (hasSource_iff (along_lt axis hp)).1 (not_not_intro h))
  rw [shiftedVoxel_eq, hnone, Bool.false_and]

/-- A voxel's new value depends on its source layer only. -/
theorem shiftedVoxel_congr {g : Geometry} {axis : Axis} (ha : axis ≠ .noAxis) {dir : Dir}
    {m n : Memory} {p : Coord} (hp : inRange g p = true)
    (h : ∀ q, inRange g q = true → along axis q = sourceLayer dir (along axis p) →
      getV g m q = getV g n q) : shiftedVoxel g axis dir m p = shiftedVoxel g axis dir n p := by
  rw [shiftedVoxel_eq, shiftedVoxel_eq]
  by_cases hsource : hasSource g dir (along axis p) = true
  · rw [h _ (inRange_moveTo axis hp (sourceLayer_lt (along_lt axis hp) hsource))
      (along_moveTo ha _ p)]
  · rw [Bool.eq_false_iff.2 hsource, Bool.false_and, Bool.false_and]

/-! The command. -/

theorem exec_shift {axis : Axis} (ha : axis ≠ .noAxis) (dir : Dir) (s : State) :
    ∃ t, exec (.shift axis dir) s = .next t ∧ Drew s t ∧ ∀ p, s.inCube p →
      t.voxel p = (hasSource s.cfg.geometry dir (along axis p) &&
        s.voxel (moveTo axis (sourceLayer dir (along axis p)) p)) :=
  ⟨_, exec_drawing rfl s, drew_completed _ s, fun p hp =>
    (getV_drawShift ha dir s.mem hp).trans (shiftedVoxel_eq _ axis dir s.mem p)⟩

/-- Settles O39: the word by its axis and direction, each shift by `exec_shift`. -/
theorem shiftMovesEveryVoxel : Obligations.ShiftMovesEveryVoxel := by
  refine ⟨encodedAs_shift rfl rfl rfl, encodedAs_shift rfl rfl rfl, encodedAs_shift rfl rfl rfl,
    encodedAs_shift rfl rfl rfl, encodedAs_shift rfl rfl rfl, encodedAs_shift rfl rfl rfl,
    encodedAs_shift rfl rfl rfl, encodedAs_shift rfl rfl rfl, fun s => ?_⟩
  have hmoves : ∀ (axis : Axis) (dir : Dir), axis ≠ .noAxis →
      ∃ t, exec (.shift axis dir) s = .next t ∧ Drew s t ∧ ∀ x y z, s.inCube ⟨x, y, z⟩ →
        t.voxel ⟨x, y, z⟩ = (hasSource s.cfg.geometry dir (along axis ⟨x, y, z⟩) &&
          s.voxel (moveTo axis (sourceLayer dir (along axis ⟨x, y, z⟩)) ⟨x, y, z⟩)) := by
    intro axis dir ha
    obtain ⟨t, hexec, hdrew, hvoxel⟩ := exec_shift ha dir s
    exact ⟨t, hexec, hdrew, fun x y z hp => hvoxel ⟨x, y, z⟩ hp⟩
  exact ⟨hmoves .x .minus nofun, hmoves .y .minus nofun, hmoves .z .minus nofun,
    hmoves .x .plus nofun, hmoves .y .plus nofun, hmoves .z .plus nofun,
    fun _ => exec_drew_of_drawInstr rfl rfl⟩

/-! The laws (R171). -/

/-- Every voxel fewer than `n` layers from the layer a shift vacates is off. -/
def ClearNearVacated (axis : Axis) (dir : Dir) (n : Nat) (s : State) : Prop :=
  ∀ p, s.inCube p → Nat.dist (along axis p) (vacatedLayer s.cfg.geometry dir) < n →
    s.voxel p = false

/-- A shift adds one layer to those that are clear. -/
theorem exec_shift_clears {axis : Axis} (ha : axis ≠ .noAxis) {dir : Dir} {n : Nat} {s : State}
    (hclear : ClearNearVacated axis dir n s) :
    ∃ t, exec (.shift axis dir) s = .next t ∧ t.cfg = s.cfg ∧
      ClearNearVacated axis dir (n + 1) t := by
  obtain ⟨t, hexec, hdrew, hvoxel⟩ := exec_shift ha dir s
  refine ⟨t, hexec, hdrew.regs.cfg, fun p hp hnear => ?_⟩
  rw [hdrew.inCube_iff] at hp
  rw [hdrew.regs.cfg] at hnear
  rw [hvoxel p hp, Bool.and_eq_false_imp]
  intro hsource
  refine hclear _ (inRange_moveTo axis hp (sourceLayer_lt (along_lt axis hp) hsource)) ?_
  rw [along_moveTo ha, ← Nat.succ_lt_succ_iff, Nat.succ_eq_add_one, dist_sourceLayer hsource]
  exact hnear

theorem execAll_replicate_shift_clears {axis : Axis} (ha : axis ≠ .noAxis) {dir : Dir} (n : Nat) :
    ∀ {k : Nat} {s : State}, ClearNearVacated axis dir k s →
      ∃ t, execAll (List.replicate n (.shift axis dir)) s = .next t ∧ t.cfg = s.cfg ∧
        ClearNearVacated axis dir (k + n) t := by
  induction n with
  | zero => exact fun {_ s} hclear => ⟨s, rfl, rfl, hclear⟩
  | succ n ih =>
    intro k s hclear
    obtain ⟨t, hexec, hcfg, hclear'⟩ := exec_shift_clears ha hclear
    obtain ⟨u, hexec', hcfg', hclear''⟩ := ih hclear'
    refine ⟨u, ?_, hcfg'.trans hcfg, ?_⟩
    · rw [List.replicate_succ, execAll, hexec]
      exact hexec'
    · rwa [Nat.add_right_comm] at hclear''

theorem byteAt_eq_zero_of_voxels {s : State} (h : ∀ p, s.inCube p → s.voxel p = false) (a : Nat) :
    s.byteAt a = 0x00 :=
  calc s.byteAt a = memRead s.cfg.geometry [] a := memRead_eq_of_voxels fun p hp _ =>
      (h p hp).trans (getV_nil _ p).symm
    _ = 0x00 := ite_self _

/-- Settles O40: each shift clears one layer more (`exec_shift_clears`), and every layer is fewer
than `CUBE_N` layers from the vacated one. -/
theorem repeatedShiftsClearTheBuffer : Obligations.RepeatedShiftsClearTheBuffer := by
  intro s axis dir ha
  obtain ⟨t, hexec, hcfg, hclear⟩ := execAll_replicate_shift_clears ha (cubeN s.cfg.geometry)
    (k := 0) (s := s) (dir := dir) fun _ _ h => absurd h (Nat.not_lt_zero _)
  have hoff : ∀ p, t.inCube p → t.voxel p = false := fun p hp => by
    have hlt := along_lt axis hp
    have hvacated := vacatedLayer_lt t.cfg.geometry dir
    refine hclear p hp ?_
    rw [← hcfg, Nat.dist]
    omega
  refine ⟨t, hexec, fun p hp => hoff p ?_, byteAt_eq_zero_of_voxels hoff⟩
  rwa [State.inCube, hcfg]

/-- Settles O41: what comes back from the layer below is what the first shift brought there from the
voxel itself. -/
theorem shiftThereAndBackLosesOnePlane : Obligations.ShiftThereAndBackLosesOnePlane := by
  intro s axis ha
  obtain ⟨t, hexec, hdrew, hvoxel⟩ := exec_shift ha .minus s
  obtain ⟨u, hexec', hdrew', hvoxel'⟩ := exec_shift ha .plus t
  refine ⟨u, execAll_pair hexec hexec', fun p hp => ?_⟩
  have hlt : along axis p < cubeN s.cfg.geometry := along_lt axis hp
  have hsource : s.inCube (moveTo axis (sourceLayer .plus (along axis p)) p) :=
    inRange_moveTo axis hp ((Nat.sub_le _ 1).trans_lt hlt)
  rw [hvoxel' p ((hdrew.inCube_iff p).2 hp), hvoxel _ hsource, along_moveTo ha, moveTo_moveTo]
  by_cases h0 : along axis p = 0
  · simp [hasSource, h0]
  · have hback : along axis p - 1 + 1 = along axis p := by omega
    have hbelow : along axis p - 1 < cubeN s.cfg.geometry - 1 := by omega
    simp [hasSource, sourceLayer, hback, hbelow, moveTo_along, Nat.pos_iff_ne_zero]

/-! The traversal in place (R170). -/

/-- The layers in the order they are copied in. -/
def sweptLayers (g : Geometry) : Dir → List Nat
  | .minus => span 0 (cubeN g - 2)
  | .plus => (span 1 (cubeN g - 1)).reverse

theorem shiftInPlace_eq (g : Geometry) (axis : Axis) (dir : Dir) (m : Memory) :
    shiftInPlace g axis dir m = clrAll g ((sweptLayers g dir).foldl (moveLayer g axis dir) m)
      (planeAt g axis (vacatedLayer g dir)) := by
  cases dir <;> rfl

/-- Every layer is copied but the vacated one. -/
theorem mem_sweptLayers {g : Geometry} {dir : Dir} {k : Nat} :
    k ∈ sweptLayers g dir ↔ k < cubeN g ∧ k ≠ vacatedLayer g dir := by
  have hcube : 2 ≤ cubeN g := by cases g <;> decide
  cases dir <;> simp only [sweptLayers, vacatedLayer, List.mem_reverse, mem_span] <;> omega

theorem pairwise_lt_span (a b : Nat) : (span a b).Pairwise (· < ·) := List.pairwise_lt_range'

/-- No layer is copied twice, nor from a layer copied before. -/
theorem sweptLayers_pairwise (g : Geometry) (dir : Dir) :
    (sweptLayers g dir).Pairwise fun j k => k ≠ j ∧ sourceLayer dir k ≠ j := by
  cases dir
  · refine (pairwise_lt_span _ _).imp fun hjk => ?_
    simp only [sourceLayer]
    omega
  · refine List.pairwise_reverse.2 ((pairwise_lt_span _ _).imp fun hkj => ?_)
    simp only [sourceLayer]
    omega

section
variable {g : Geometry} {axis : Axis} (ha : axis ≠ .noAxis) {dir : Dir}
include ha

theorem getV_moveLayer (m : Memory) {k : Nat} (hk : k < cubeN g) {p : Coord}
    (hp : inRange g p = true) : getV g (moveLayer g axis dir m k) p =
      if along axis p = k then shiftedVoxel g axis dir m p else getV g m p := by
  rw [moveLayer, getV_putAll _ m _ (planeAt_inRange axis hk) hp]
  exact if_congr (mem_planeAt ha hp) rfl rfl

/-- Copied in an order that reads no layer already written, the layers take their values from the
buffer before the first copy. -/
theorem getV_foldl_moveLayer {ks : List Nat} (hks : ∀ k ∈ ks, k < cubeN g)
    (horder : ks.Pairwise fun j k => k ≠ j ∧ sourceLayer dir k ≠ j) (m : Memory) {p : Coord}
    (hp : inRange g p = true) : getV g (ks.foldl (moveLayer g axis dir) m) p =
      if along axis p ∈ ks then shiftedVoxel g axis dir m p else getV g m p := by
  induction ks generalizing m with
  | nil => rfl
  | cons j ks ih =>
    obtain ⟨hj, hks⟩ := List.forall_mem_cons.1 hks
    obtain ⟨hfirst, horder⟩ := List.pairwise_cons.1 horder
    rw [List.foldl_cons, ih hks horder]
    by_cases hmem : along axis p ∈ ks
    · rw [if_pos hmem, if_pos (List.mem_cons_of_mem j hmem)]
      refine shiftedVoxel_congr ha hp fun q hq hsource => ?_
      rw [getV_moveLayer ha m hj hq, if_neg]
      exact hsource ▸ (hfirst _ hmem).2
    · rw [if_neg hmem, getV_moveLayer ha m hj hp]
      simp only [List.mem_cons, hmem, or_false]

theorem getV_shiftInPlace (m : Memory) {p : Coord} (hp : inRange g p = true) :
    getV g (shiftInPlace g axis dir m) p = shiftedVoxel g axis dir m p := by
  rw [shiftInPlace_eq, clrAll_eq_putAll,
    getV_putAll _ _ _ (planeAt_inRange axis (vacatedLayer_lt g dir)) hp]
  by_cases hvacated : along axis p = vacatedLayer g dir
  · rw [if_pos ((mem_planeAt ha hp).2 hvacated), shiftedVoxel_of_vacated hp hvacated]
  · rw [if_neg (mt (mem_planeAt ha hp).1 hvacated),
      getV_foldl_moveLayer ha (fun _ hk => (mem_sweptLayers.1 hk).1) (sweptLayers_pairwise g dir)
        m hp,
      if_pos (mem_sweptLayers.2 ⟨along_lt axis hp, hvacated⟩)]

end

theorem memOk_shiftInPlace {g : Geometry} {m : Memory} (hm : memOk g m) (axis : Axis) (dir : Dir) :
    memOk g (shiftInPlace g axis dir m) := by
  rw [shiftInPlace_eq, clrAll_eq_putAll]
  refine memOk_putAll _ ?_ _ (planeAt_inRange axis (vacatedLayer_lt g dir))
  exact List.foldlRecOn (motive := fun m => memOk g m) _ _ hm fun m hm k hk =>
    memOk_putAll _ hm _ (planeAt_inRange axis (mem_sweptLayers.1 hk).1)

/-- Settles O42: both buffers are canonical and have the voxels of R170. -/
theorem inPlaceShiftGivesTheSameBuffer : Obligations.InPlaceShiftGivesTheSameBuffer :=
  fun _ axis dir m ha hm =>
    memOk_ext (memOk_shiftInPlace hm axis dir) (memOk_drawShift hm axis dir) fun _ hp =>
      (getV_shiftInPlace ha m hp).trans (getV_drawShift ha dir m hp).symm

end Sys2Proof.Machine
end

section
/-!
The cycles of the effects (45_sequencer.md R187, R188): what the running effect's registers hold at
every step of the block and along a run of ticks, the graceful-finish bound, and the bouncing
planes.
-/

namespace Sys2Proof.Machine

open Sys2Proof

/-! Every step stays in the cycle of the running effect. -/

/-- With no effect running there is no cycle to stay in. -/
theorem inCycle_of_noneEffect (p : EffectParams) {s : State} (hcur : s.cur = noneEffect) :
    s.InCycle p :=
  fun h => absurd (hcur ▸ h) (by decide)

/-- START leaves the start of its effect's cycle, and that of the running effect when its index is
no effect's (R182). -/
theorem inCycle_startAction (p : EffectParams) (index : Byte) (s : State) :
    (startAction index s).InCycle p :=
  fun _ => .start

/-- A step of the running effect goes on along its cycle, or finishes and leaves no effect running
(R185). -/
theorem State.InCycle.afterStep {p : EffectParams} {sf : Bool} {s : State} {r : EffectResult}
    (h : s.InCycle p) (hmem : memOk s.cfg.geometry s.mem) (running : s.cur.toNat < effectsCount)
    (ran : runEffect s.cfg (p.step s.cfg s.cur.toNat s.slots s.mem s.bright sf) s.mem s.rand
      s.freeIx = .ok r) : (afterStep s.cur.toNat r s).InCycle p := by
  cases hfin : r.fin with
  | true => exact inCycle_of_noneEffect p (by rw [afterStep_cur, if_pos hfin])
  | false =>
    intro _
    simp only [afterStep_cfg, afterStep_cur, afterStep_slots, afterStep_bright, hfin]
    exact .step (h running) ⟨sf, s.mem, s.rand, s.freeIx, hmem, ran⟩ hfin

/-- No command but START, a finish and the effect's own step touches the registers of its cycle. -/
theorem Completes.inCycle {i : Instr} {s t : State} (hc : Completes i s t)
    (hmem : memOk s.cfg.geometry s.mem) (h : s.InCycle Config.effects) :
    t.InCycle Config.effects := by
  cases hc with
  | start index => exact inCycle_startAction _ index s
  | finish => exact inCycle_of_noneEffect _ rfl
  | tick sf r running _ ran => exact h.afterStep hmem running ran
  | draw | query | wait => exact h

/-- Settles O59: each event a step can take keeps the cycle; `RST` leaves no effect running. -/
theorem everyStepKeepsTheEffectsCycle : Obligations.EveryStepKeepsTheEffectsCycle := by
  intro s t hs hcycle h
  rcases step_cases s with ⟨_, h'⟩ | ⟨rest, _, h'⟩ | ⟨_, _, _, _, _, h'⟩ |
    ⟨w, now, rest, i, _, _, _, h'⟩ | ⟨w, now, rest, _, _, _, _, h'⟩ <;> rw [h'] at h
  · cases h; exact hcycle
  · cases h; exact inCycle_of_noneEffect _ rfl
  · cases h
  · exact (completes_of_exec h).inCycle hs.inv.mem_ok hcycle
  · cases h; exact hcycle

/-! A run of ticks follows the cycle. -/

/-- A tick that steps the running effect without ending it is an unfinished step from the registers
it found. -/
theorem SteppedTo.stepsWith {p : EffectParams} {sf : Bool} {s t : State} (h : SteppedTo p sf s t) :
    t.cfg = s.cfg ∧ t.cur = s.cur ∧ ∃ r,
      StepsWith p s.cfg s.cur.toNat sf s.slots s.bright r ∧ r.fin = false ∧
        t.slots = r.slots ∧ t.bright = r.bright := by
  obtain ⟨r, m, rand, k, hm, hr, hfin, hslots, hbright, hcfg, hcur⟩ := steppedTo_result h
  exact ⟨hcfg, hcur, r, ⟨m, rand, k, hm, hr⟩, hfin, hslots, hbright⟩

theorem SteppedTo.inCycle {p : EffectParams} {sf : Bool} {s t : State} (h : SteppedTo p sf s t)
    (hcycle : s.InCycle p) : t.InCycle p := by
  obtain ⟨hcfg, hcur, r, hr, hfin, hslots, hbright⟩ := h.stepsWith
  intro running
  rw [hcur] at running
  rw [hcfg, hcur, hslots, hbright]
  exact .step (hcycle running) ⟨sf, hr⟩ hfin

/-! The graceful finish (R187). -/

/-- Where a finish comes within `bound` steps, fewer than `bound` ticks are unfinished. -/
theorem lt_of_finishesWithin {p : EffectParams} {bound : Nat} : ∀ {n : Nat} {s : State},
    FinishesWithin p s.cfg s.cur.toNat bound s.slots s.bright → SteppedUnfinished p n s →
      n < bound := by
  induction bound with
  | zero => exact fun hfinish _ => hfinish.elim
  | succ bound ih =>
    intro n s hfinish hticks
    cases n with
    | zero => exact Nat.succ_pos bound
    | succ n =>
      obtain ⟨t, htick, hticks⟩ := hticks
      obtain ⟨hcfg, hcur, r, ⟨m, rand, k, hm, hr⟩, hfin, hslots, hbright⟩ := htick.stepsWith
      have hrest : FinishesWithin p s.cfg s.cur.toNat bound r.slots r.bright :=
        (hfinish m rand k r hm hr).resolve_left (by simp [hfin])
      rw [← hcfg, ← hcur, ← hslots, ← hbright] at hrest
      exact Nat.succ_lt_succ (ih hrest hticks)

/-- The build's own effects meet the contract they are declared with (D26). -/
theorem effects_admissible : Admissible Config.effects := Config.openEffects.admissible

/-- Settles O52: each unfinished tick uses up one step of the bound. -/
theorem gracefulFinishBoundsTheUnfinishedRun :
    Obligations.GracefulFinishBoundsTheUnfinishedRun :=
  ⟨fun _ hgraceful _ s hwf hcur hcycle =>
    lt_of_finishesWithin (hgraceful s.cfg s.cur.toNat s.slots s.bright hwf hcur (hcycle hcur)),
    effects_admissible.graceful⟩

/-! The bouncing planes (R188). -/

section
variable {p : EffectParams} {cfg : Config} {i : Byte} {flag : Nat → Bool} {run : Nat → State}
  {n : Nat}

theorem TickRun.inCycle (h : TickRun p cfg i flag run n) {k : Nat} (hk : k ≤ n) :
    (run k).InCycle p := by
  induction k with
  | zero => exact h.in_cycle
  | succ k ih => exact (h.ticks k hk).inCycle (ih (Nat.le_of_succ_le hk))

/-- Tick `k` of a run is an unfinished step from a point of the effect's cycle. -/
theorem TickRun.stepsTo (h : TickRun p cfg i flag run n) (hi : i.toNat < effectsCount) {k : Nat}
    (hk : k < n) : InCycle p cfg i.toNat (run k).slots (run k).bright ∧ ∃ r,
      StepsTo p cfg i.toNat (run k).slots (run k).bright r ∧ r.fin = false ∧
        (run (k + 1)).slots = r.slots ∧ (run (k + 1)).bright = r.bright := by
  obtain ⟨hcfg, hcur⟩ := tickRun_cfg_cur h k hk.le
  have hcycle := h.inCycle hk.le
  obtain ⟨-, -, r, hr, hrest⟩ := (h.ticks k hk).stepsWith
  rw [State.InCycle, hcfg, hcur] at hcycle
  rw [hcfg, hcur] at hr
  exact ⟨hcycle hi, r, ⟨_, hr⟩, hrest⟩

/-- After every tick of a plane's run the slots name an axis and a position. -/
theorem TickRun.onAxis (h : TickRun p cfg i flag run n) (hi : i.toNat < effectsCount)
    (hplane : BouncingPlane p cfg i.toNat) {k : Nat} (h0 : 0 < k) (hk : k ≤ n) :
    OnAxis p cfg.geometry (run k).slots := by
  obtain ⟨k, rfl⟩ := Nat.exists_eq_succ_of_ne_zero h0.ne'
  obtain ⟨hcycle, r, hr, hfin, hslots, -⟩ := h.stepsTo hi hk
  rw [hslots]
  exact hplane.on_axis _ _ r hcycle hr hfin

/-- From one tick of a plane's run to the next the axis stays or goes on along its cycle. -/
theorem TickRun.axisCycles (h : TickRun p cfg i flag run n) (hi : i.toNat < effectsCount)
    (hplane : BouncingPlane p cfg i.toNat) {k : Nat} (h0 : 0 < k) (hk : k < n) :
    AxisCycles p (run k).slots (run (k + 1)).slots := by
  obtain ⟨k, rfl⟩ := Nat.exists_eq_succ_of_ne_zero h0.ne'
  obtain ⟨hcycle, r, hr, hfin, hslots, hbright⟩ := h.stepsTo hi (Nat.lt_of_succ_lt hk)
  obtain ⟨-, r', hr', hfin', hslots', -⟩ := h.stepsTo hi hk
  rw [hslots, hbright] at hr'
  rw [hslots, hslots']
  exact hplane.axis_cycles _ _ r r' hcycle hr hfin hr' hfin'

/-- Along one axis a plane's run of ticks reverses only at the bounds. -/
theorem TickRun.bounces (h : TickRun p cfg i flag run n) (hi : i.toNat < effectsCount)
    (hplane : BouncingPlane p cfg i.toNat) {a b q : Nat} (h0 : 0 < a) (hb : b ≤ n)
    (haxis : OneAxis (fun k => (run k).slots) a b)
    (hturn : TurnsAt (fun k => (run k).slots) a b q) : atCubeBound cfg.geometry q := by
  have hab := hturn.between
  obtain ⟨a, rfl⟩ := Nat.exists_eq_succ_of_ne_zero h0.ne'
  obtain ⟨b, rfl⟩ := Nat.exists_eq_succ_of_ne_zero (n := b) (by omega)
  obtain ⟨n, rfl⟩ := Nat.exists_eq_succ_of_ne_zero (n := n) (by omega)
  obtain ⟨f, hf⟩ := unfinishedRun_of_tickRun (p := p) (cfg := cfg) (flag := flag) run hi
  obtain ⟨hrun, hslots⟩ := hf n h
  refine hplane.bounces flag f n hrun a b q (by omega) (fun k h1 h2 => ?_)
    (turnsAt_congr (fun k hk => (hslots k (by omega)).symm) (turnsAt_shift.2 hturn))
  rw [hslots k (by omega), hslots a (by omega)]
  exact haxis (k + 1) (by omega) (by omega)

/-- Some run of ticks reverses at each of the two bounds. -/
theorem exists_tickRun_turnsAt (hi : i.toNat < effectsCount)
    (hplane : BouncingPlane p cfg i.toNat) {q : Nat} (hq : atCubeBound cfg.geometry q) :
    ∃ flag run n a b, TickRun p cfg i flag run n ∧ 0 < a ∧ b ≤ n ∧
      TurnsAt (fun k => (run k).slots) a b q := by
  obtain ⟨flag, f, n, a, b, hrun, hb, hturn⟩ := hplane.can_turn q hq
  obtain ⟨run, hticks, hslots⟩ := tickRun_of_unfinishedRun hi hrun
  exact ⟨flag, run, n + 1, a + 1, b + 1, hticks, Nat.succ_pos a, Nat.succ_le_succ hb,
    turnsAt_shift.1 (turnsAt_congr (fun k hk => (hslots k (hk.trans hb)).symm) hturn)⟩

/-- Some run of ticks goes from each axis to the next. -/
theorem exists_tickRun_nextAxis (hi : i.toNat < effectsCount)
    (hplane : BouncingPlane p cfg i.toNat) {a : Axis} (ha : a ≠ .noAxis) :
    ∃ flag run n k, TickRun p cfg i flag run n ∧ 0 < k ∧ k < n ∧
      planeAxis (run k).slots = p.axisCode a ∧
      planeAxis (run (k + 1)).slots = p.axisCode (nextAxis a) := by
  obtain ⟨flag, f, n, k, hrun, hk, haxis, hnext⟩ := hplane.can_cycle a ha
  obtain ⟨run, hticks, hslots⟩ := tickRun_of_unfinishedRun hi hrun
  refine ⟨flag, run, n + 1, k + 1, hticks, Nat.succ_pos k, Nat.succ_lt_succ hk, ?_, ?_⟩
  · rwa [hslots k hk.le]
  · rwa [hslots (k + 1) hk]

end

section
variable {p : EffectParams} {cfg : Config} {i : Byte} {run : Nat → State}
  (h : ∀ n, TickRun p cfg i (fun _ => false) run n) (hi : i.toNat < effectsCount)
include h hi

/-- An endless run of ticks is an endless run of steps, one tick behind. -/
theorem exists_unfinishedRun_of_endless : ∃ f : Nat → EffectResult,
    (∀ n, UnfinishedRun p cfg i.toNat (fun _ => false) f n) ∧
      ∀ k, slotsOf f k = (run (k + 1)).slots := by
  obtain ⟨f, hf⟩ := unfinishedRun_of_tickRun (p := p) (cfg := cfg) (flag := fun _ => false) run hi
  exact ⟨f, fun n => (hf n (h (n + 1))).1, fun k => (hf k (h (k + 1))).2 k le_rfl⟩

variable (hplane : BouncingPlane p cfg i.toNat)
include hplane

theorem endless_turnsAt {q : Nat} (hq : atCubeBound cfg.geometry q) (n : Nat) :
    ∃ a b, n ≤ a ∧ TurnsAt (fun k => (run k).slots) a b q := by
  obtain ⟨f, hrun, hslots⟩ := exists_unfinishedRun_of_endless h hi
  obtain ⟨a, b, ha, hturn⟩ := hplane.keeps_turning f hrun q hq n
  exact ⟨a + 1, b + 1, Nat.le_succ_of_le ha,
    turnsAt_shift.1 (turnsAt_congr (fun k _ => hslots k) hturn)⟩

theorem endless_takes_axis {a : Axis} (ha : a ≠ .noAxis) (n : Nat) :
    ∃ k, n ≤ k ∧ planeAxis (run k).slots = p.axisCode a := by
  obtain ⟨f, hrun, hslots⟩ := exists_unfinishedRun_of_endless h hi
  obtain ⟨m, hm, haxis⟩ := hplane.keeps_cycling f hrun a ha n
  exact ⟨m + 1, Nat.le_succ_of_le hm, by rwa [← hslots m]⟩

end

/-- Effects 2 and 3 are bouncing planes (R188). -/
theorem Admissible.bouncing {p : EffectParams} (hp : Admissible p) {cfg : Config}
    (hwf : cfg.wellFormed = true) {i : Byte} (hi : i = 2 ∨ i = 3) :
    i.toNat < effectsCount ∧ BouncingPlane p cfg i.toNat := by
  rcases hi with rfl | rfl
  · exact ⟨by decide, hp.bouncing_plane cfg hwf⟩
  · exact ⟨by decide, hp.sticky_bouncing_plane cfg hwf⟩

/-- Settles O60: what the contract says of runs of steps, carried over to runs of ticks. -/
theorem registeredEffectsKeepTheirSlots : Obligations.RegisteredEffectsKeepTheirSlots := by
  refine ⟨effects_admissible, fun p hp => ⟨fun cfg i hwf hi => ?_, hp.accelerating_blink⟩⟩
  obtain ⟨hi, hplane⟩ := hp.bouncing hwf hi
  refine ⟨fun flag run n h => ⟨fun k h0 hk => h.onAxis hi hplane h0 hk, fun k h0 hk => ?_,
    fun a b q h0 hb => h.bounces hi hplane h0 hb⟩,
    fun q hq => exists_tickRun_turnsAt hi hplane hq,
    fun a ha => exists_tickRun_nextAxis hi hplane ha,
    fun run h n => ⟨endless_turnsAt h hi hplane (.inl rfl) n,
      endless_turnsAt h hi hplane (.inr rfl) n, fun a ha => endless_takes_axis h hi hplane ha n⟩⟩
  have hnext := h.axisCycles hi hplane h0 hk
  exact ⟨hnext .z nofun, hnext .y nofun, hnext .x nofun⟩

end Sys2Proof.Machine
end

section
/-!
The sequencer family (45_sequencer.md R180 to R193): START, FINISH and the inspection commands, the
transitions of `CUR`, the elapsed time, the gate of the tick, and the running of one effect step.
-/

namespace Sys2Proof.Machine

open Sys2Proof

/-! What a cleared buffer and cleared slots read as (R181). -/

theorem memRead_clearBuffer (g : Geometry) (m : Memory) (a : Nat) :
    memRead g (clearBuffer g m) a = 0x00 := by
  by_cases ha : a < totalBytes g
  · exact memRead_drawFill ha 0x00 m
  · exact memRead_of_ge (Nat.not_lt.1 ha) _

theorem zeroSlots_getElem (k : Fin 5) : zeroSlots[k] = 0 := Vector.getElem_replicate k.isLt

/-! START (R182) and FINISH (R183). -/

theorem encodedAs_start : EncodedAs 0xFC000000 0x80000000 (fun w => .start (immediateOf w)) :=
  encodedAs_of_decodeAs rfl fun w => by
    rw [← fieldIMM8_eq_immediateOf]
    rfl

theorem exec_start (index : Byte) (s : State) :
    exec (.start index) s = .next (completed 0x00 (startAction index s)) := rfl

theorem exec_finish (s : State) : exec .finish s = .next (completed 0x00 (finishAction s)) := rfl

/-- Settles O43: what `startAction` writes, its buffer by the laws of `clearBuffer`. -/
theorem startResetsAndActivates : Obligations.StartResetsAndActivates :=
  ⟨encodedAs_start, fun s index => ⟨_, exec_start index s, rfl, rfl,
    fun _ hp => getV_clearBuffer s.mem hp, memRead_clearBuffer _ s.mem, rfl, zeroSlots_getElem,
    fun hlt => if_pos hlt, fun hge => if_neg (Nat.not_lt.2 hge), rfl, rfl, rfl, rfl, rfl, rfl, rfl⟩⟩

/-- Settles O44: what `finishAction` writes, its buffer by the laws of `clearBuffer`. -/
theorem finishRecordsAndStops : Obligations.FinishRecordsAndStops :=
  ⟨encodedAs_of_decodeAs rfl fun _ => rfl, fun s => ⟨_, exec_finish s, rfl, rfl,
    fun _ hp => getV_clearBuffer s.mem hp, memRead_clearBuffer _ s.mem, zeroSlots_getElem,
    rfl, rfl, rfl, rfl, rfl, rfl, rfl, rfl, rfl⟩⟩

/-! The inspection commands (R189 to R192). -/

theorem exec_getcur (s : State) : exec .getcur s = .next (completed s.cur s) := rfl
theorem exec_getprev (s : State) : exec .getprev s = .next (completed s.prev s) := rfl
theorem exec_getbright (s : State) : exec .getbright s = .next (completed s.bright s) := rfl

theorem resultBit_noEffectRunning (s : State) :
    resultBit (noEffectRunning s) = if s.cur = 0xFF then 0x01 else 0x00 := by
  simp only [resultBit, noEffectRunning, noneEffect, beq_iff_eq]

theorem exec_isfin (s : State) :
    exec .isfin s = .next (completed (if s.cur = 0xFF then 0x01 else 0x00) s) := by
  rw [← resultBit_noEffectRunning]
  rfl

/-- Settles O45: each command is a plain answer. -/
theorem inspectionCommandsAnswerTheirRegister :
    Obligations.InspectionCommandsAnswerTheirRegister :=
  ⟨encodedAs_of_decodeAs rfl fun _ => rfl, encodedAs_of_decodeAs rfl fun _ => rfl,
    encodedAs_of_decodeAs rfl fun _ => rfl, encodedAs_of_decodeAs rfl fun _ => rfl,
    fun s => ⟨⟨_, exec_getcur s, answered_completed _ s⟩,
      ⟨_, exec_getprev s, answered_completed _ s⟩, ⟨_, exec_isfin s, answered_completed _ s⟩,
      ⟨_, exec_getbright s, answered_completed _ s⟩⟩⟩

/-! The sequencer laws (R193). -/

/-- GETV of a state with every voxel off answers 0x00, in range or not. -/
theorem exec_getv_of_clear {s : State} (h : ∀ p, s.inCube p → s.voxel p = false) (c : Coord) :
    exec (.getv c.x c.y c.z) s = .next (completed 0x00 s) := by
  by_cases hc : s.inCube c
  · rw [exec_getv_of_inCube hc, h c hc]
    rfl
  · exact exec_getv_of_not_inCube hc

theorem execAll_getv_of_clear {i : Instr} {s t : State} (hi : exec i s = .next t)
    (h : ∀ p, t.inCube p → t.voxel p = false) (c : Coord) :
    ∃ u, execAll [i, .getv c.x c.y c.z] s = .next u ∧ u.result = 0x00 :=
  ⟨_, execAll_pair hi (exec_getv_of_clear h c), rfl⟩

theorem ne_noneEffect_of_lt {index : Byte} (h : index.toNat < effectsCount) :
    index ≠ noneEffect := by
  rintro rfl
  exact absurd h (by decide)

theorem execAll_start_isfin {index : Byte} (h : index.toNat < effectsCount) (s : State) :
    ∃ t, execAll [.start index, .isfin] s = .next t ∧ t.result = 0x00 := by
  refine ⟨_, execAll_pair (exec_start index s) (exec_isfin _), ?_⟩
  have hcur : (completed 0x00 (startAction index s)).cur = index := if_pos h
  rw [completed_result, hcur]
  exact if_neg (ne_noneEffect_of_lt h)

/-- Settles O46: each command sequence is its first command's state, then the answer. -/
theorem sequencerLaws : Obligations.SequencerLaws := by
  intro s
  refine ⟨fun index h => ⟨execAll_start_isfin h s, _, execAll_pair (exec_start index s)
      (exec_getcur _), if_pos h⟩,
    ⟨⟨_, execAll_pair (exec_finish s) (exec_isfin _), rfl⟩,
      ⟨_, execAll_pair (exec_finish s) (exec_getprev _), rfl⟩, 
      execAll_getv_of_clear (exec_finish s) fun _ hp => getV_clearBuffer s.mem hp⟩,
    fun index => ?_,
    fun index => ⟨⟨_, execAll_pair (exec_start index s) (exec_getbright _), rfl⟩, 
      execAll_getv_of_clear (exec_start index s) fun _ hp => getV_clearBuffer s.mem hp⟩⟩
  simp only [List.forall_mem_cons]
  exact ⟨⟨_, exec_start index s, zeroSlots_getElem⟩, ⟨_, exec_finish s, zeroSlots_getElem⟩,
    List.forall_mem_nil _⟩

/-! The transitions of `CUR` (R180). -/

/-- Only the sequencer's commands write `CUR`. -/
theorem Completes.cur_kept {i : Instr} {s t : State} (h : Completes i s t)
    (hseq : sequencerCommand i = false) : t.cur = s.cur := by
  cases h with
  | draw | query => rfl
  | start | finish | wait | tick => exact Bool.noConfusion hseq

/-- Settles O53: a tick moves `CUR` only when its effect step asks to finish. -/
theorem curMovesOnlyAsTheTableSays : Obligations.CurMovesOnlyAsTheTableSays := by
  intro i s t h
  refine ⟨?_, ?_, ?_, (completes_of_exec h).cur_kept⟩
  · rintro index rfl
    rw [exec_start] at h
    cases h
    rfl
  · rintro rfl
    rw [exec_finish] at h
    cases h
    rfl
  · rintro sf rfl hmoved
    cases completes_of_exec h with
    | draw hdraw => exact Bool.noConfusion hdraw
    | query _ hseq => exact Bool.noConfusion hseq
    | wait => exact absurd rfl hmoved
    | tick _ r running =>
      have hfin : r.fin = true := by
        by_contra hfin
        simp [hfin] at hmoved
      exact ⟨by simp [hfin, noneEffect], by simp [hfin], running⟩

/-! The elapsed time (R184). -/

theorem elapsed_of_le {w t1 t2 : Nat} (h2 : t2 < 2 ^ w) (h : t1 ≤ t2) :
    elapsed w t1 t2 = t2 - t1 := by
  have hpow : ((2 ^ w : Nat) : Int) = 2 ^ w := by norm_cast
  rw [elapsed, ← hpow, Int.emod_eq_of_lt (by omega) (by omega)]
  omega

theorem elapsed_of_wrap {w t1 t2 : Nat} (h1 : t1 < 2 ^ w) (h : t2 < t1) :
    elapsed w t1 t2 = 2 ^ w - t1 + t2 := by
  have hpow : ((2 ^ w : Nat) : Int) = 2 ^ w := by norm_cast
  rw [elapsed, ← hpow, ← Int.add_emod_right, Int.emod_eq_of_lt (by omega) (by omega)]
  omega

theorem add_elapsed_mod {w t1 t2 : Nat} (h1 : t1 < 2 ^ w) (h2 : t2 < 2 ^ w) :
    (t1 + elapsed w t1 t2) % 2 ^ w = t2 := by
  rcases Nat.lt_or_ge t2 t1 with h | h
  · have hsum : t1 + (2 ^ w - t1 + t2) = t2 + 2 ^ w := by omega
    rw [elapsed_of_wrap h1 h, hsum, Nat.add_mod_right, Nat.mod_eq_of_lt h2]
  · rw [elapsed_of_le h2 h, Nat.add_sub_cancel' h, Nat.mod_eq_of_lt h2]

/-- Settles O47: without a wrap, across one, and the sum in either case. -/
theorem elapsedIsTheWrappedDifference : Obligations.ElapsedIsTheWrappedDifference :=
  fun w t1 t2 h1 h2 => ⟨elapsed_of_le h2, elapsed_of_wrap h1, elapsed_lt w t1 t2,
    add_elapsed_mod h1 h2⟩

/-! The tick (R185). -/

/-- PROCESS's row of the opcode map, split by the flag in bit 0. -/
theorem encodedAs_process {pattern : CommandWord} {sf : Bool} (hop : fieldOP pattern = 0x22)
    (hflag : (fieldBit0 pattern != 0) = sf) :
    EncodedAs 0xFC000001 pattern (fun _ => .process sf) := by
  intro w hw
  have hbit : fieldBit0 w = fieldBit0 pattern := wordField_of_match hw rfl
  rw [decode_of_match hw rfl, hop, ← hflag, ← hbit]
  rfl

section
variable {p : EffectParams} {sf : Bool} {s : State} {i : Fin 5} (hcur : s.cur = BitVec.ofNat 8 i)
include hcur

theorem cur_toNat_of_eq : s.cur.toNat = i := by
  rw [hcur, BitVec.toNat_ofNat]
  exact Nat.mod_eq_of_lt (by omega)

/-- With effect i running the tick is its gate (R185). -/
theorem processWith_of_running : processWith p sf s =
    if effectInterval p s.cfg i s.slots ≤ elapsed s.cfg.clkW s.last[i] s.now
      then stepEffect p i sf s else complete 0x00 s := by
  have hi : s.cur.toNat = i := cur_toNat_of_eq hcur
  have hrunning : s.cur.toNat < effectsCount := hi ▸ i.isLt
  have hlast : s.last.getD i 0 = s.last[i] := by simp [Vector.getD]
  rw [processWith, if_neg (ne_noneEffect_of_lt hrunning), if_pos hrunning, hi, gateOpen, hlast]
  simp only [decide_eq_true_eq]

theorem processWith_of_early
    (early : elapsed s.cfg.clkW s.last[i] s.now < effectInterval p s.cfg i s.slots) :
    processWith p sf s = .next (completed 0x00 s) := by
  rw [processWith_of_running hcur, if_neg (Nat.not_le.2 early), complete_eq]

theorem processWith_of_step {r : EffectResult}
    (gate : effectInterval p s.cfg i s.slots ≤ elapsed s.cfg.clkW s.last[i] s.now)
    (ran : runEffect s.cfg (p.step s.cfg i s.slots s.mem s.bright sf) s.mem s.rand s.freeIx =
      .ok r) : processWith p sf s = .next (completed 0x01 (afterStep i r s)) := by
  rw [processWith_of_running hcur, if_pos gate, stepEffect, ran]
  rfl

end

theorem setLast_same (last : Stamps) (i : Fin 5) (t : Nat) : (setLast last i t)[i] = t := by
  simp [setLast]

theorem setLast_other (last : Stamps) {i j : Fin 5} (hj : j ≠ i) (t : Nat) :
    (setLast last i t)[j] = last[j] :=
  Vector.getElem_setIfInBounds_ne j.isLt fun h => hj (Fin.ext h.symm)

/-- Settles O48: `NONE` and the closed gate only answer; through the open gate the registers are
those of `afterStep`. -/
theorem tickIsGatedAndRunsOneEffectStep : Obligations.TickIsGatedAndRunsOneEffectStep := by
  refine ⟨encodedAs_process rfl rfl, encodedAs_process rfl rfl, fun _ _ => rfl,
    fun p sf s hnone => ⟨_, if_pos hnone, answered_completed _ s⟩,
    fun p sf s i hcur early => ⟨_, processWith_of_early hcur early, answered_completed _ s⟩,
    fun p sf s i r hcur gate ran => ⟨_, processWith_of_step hcur gate ran, ?_⟩⟩
  simp only [completed_result, completed_busy, completed_last, completed_bright, completed_rand,
    completed_freeIx, completed_cfg, completed_inputs, completed_now, afterStep_last,
    afterStep_bright, afterStep_rand, afterStep_freeIx, afterStep_cfg, afterStep_inputs,
    afterStep_now, true_and]
  refine ⟨setLast_same s.last i s.now, fun j hj => setLast_other s.last hj s.now,
    fun hfin => ?_, fun hfin => ?_⟩
  · simp [hfin]
  · refine ⟨fun k => ?_, fun a => ?_, by simp [hfin, noneEffect], by simp [hfin]⟩
    · rw [completed_slots, afterStep_slots, if_pos hfin]
      exact zeroSlots_getElem k
    · rw [State.byteAt, completed_mem, afterStep_mem, if_pos hfin, completed_cfg, afterStep_cfg]
      exact memRead_clearBuffer _ r.mem a

/-- Settles O49: answers in range bring every effect step to its end (`runEffect_total`). -/
theorem processStepsWhenTheGateIsOpen : Obligations.ProcessStepsWhenTheGateIsOpen := by
  intro sf s i hcur hrand gate
  obtain ⟨r, ran⟩ := runEffect_total (Config.effects.step s.cfg i s.slots s.mem s.bright sf) s.mem
    s.rand s.freeIx hrand
  refine ⟨_, processWith_of_step hcur gate ran, rfl, rfl, ?_⟩
  simp only [completed_last, completed_cur, completed_prev, afterStep_last, afterStep_cur,
    afterStep_prev]
  refine ⟨setLast_same s.last i s.now, fun j hj => setLast_other s.last hj s.now, ?_⟩
  cases r.fin
  · exact .inl ⟨rfl, rfl⟩
  · exact .inr ⟨rfl, rfl⟩

/-! One effect step (R186). -/

/-- An op node that is no drawing command draws nothing (log 3). -/
theorem drawInstr_of_not_drawing {i : Instr} (hi : drawingCommand i = false) (g : Geometry)
    (m : Memory) : drawInstr g i m = m := by
  cases i <;> cases hi <;> rfl

theorem runEffect_op_of_not_drawing {i : Instr} (hi : drawingCommand i = false) (cfg : Config)
    (rest : EffectProg) (m : Memory) (rand : List RandVal) (k : Nat) :
    runEffect cfg (.op i rest) m rand k = runEffect cfg rest m rand k := by
  rw [runEffect, drawInstr_of_not_drawing hi]

theorem runEffect_op_of_exec {i : Instr} (hi : drawingCommand i = true) {s t : State}
    (h : exec i s = .next t) (rest : EffectProg) (rand : List RandVal) (k : Nat) :
    runEffect s.cfg (.op i rest) s.mem rand k = runEffect s.cfg rest t.mem rand k := by
  rw [exec_drawing hi] at h
  cases h
  rfl

theorem drawRand_cons {g : Geometry} {v : RandVal} (hv : v.toNat < cubeN g) (rest : List RandVal)
    (k : Nat) : drawRand g (v :: rest) k = .ok (v, rest, k) := if_pos hv

theorem runEffect_draw_of_ok {cfg : Config} {rand rand' : List RandVal} {k k' : Nat} {v : RandVal}
    (h : drawRand cfg.geometry rand k = .ok (v, rand', k')) (f : RandVal → EffectProg)
    (m : Memory) : runEffect cfg (.draw f) m rand k = runEffect cfg (f v) m rand' k' := by
  rw [runEffect, h]

theorem legalBright_of_le {cfg : Config} {b : Byte} (h : b.toNat ≤ cfg.brightnessMax.toNat) :
    legalBright cfg b = b := if_pos h

/-- A step that comes to its end leaves the buffer that executing the drawing commands it met, in
their order, leaves. -/
theorem execAll_opsAlong {prog : EffectProg} : ∀ {s : State} {rand : List RandVal} {k : Nat}
    {r : EffectResult}, runEffect s.cfg prog s.mem rand k = .ok r →
      ∃ t, execAll ((opsAlong s.cfg.geometry prog rand k).filter drawingCommand) s = .next t ∧
        t.mem = r.mem := by
  induction prog with
  | done slots bright fin =>
    intro s rand k r h
    cases h
    exact ⟨s, rfl, rfl⟩
  | op i rest ih =>
    intro s rand k r h
    rw [opsAlong]
    cases hi : drawingCommand i with
    | true =>
      rw [List.filter_cons_of_pos hi, execAll, exec_drawing hi]
      exact ih (s := completed 0x00 (withMem (drawInstr s.cfg.geometry i s.mem) s)) h
    | false =>
      rw [List.filter_cons_of_neg (by simp [hi])]
      exact ih (runEffect_op_of_not_drawing hi _ rest _ rand k ▸ h)
  | draw f ih =>
    intro s rand k r h
    rw [runEffect] at h
    rw [opsAlong]
    cases hd : drawRand s.cfg.geometry rand k with
    | ok answer =>
      rw [hd] at h
      exact ih answer.1 h
    | error v =>
      rw [hd] at h
      cases h

/-- Settles O50: node by node by the equations of `runEffect`, and the whole step by
`execAll_opsAlong`. -/
theorem effectStepDrawsOnlyByCommands : Obligations.EffectStepDrawsOnlyByCommands := by
  refine ⟨fun i rest rand k s t hi h => runEffect_op_of_exec hi h rest rand k,
    fun cfg i rest m rand k hi => runEffect_op_of_not_drawing hi cfg rest m rand k,
    fun cfg f m v rest k hv => runEffect_draw_of_ok (drawRand_cons hv rest k) f m, fun cfg k => ?_,
    fun cfg slots bright fin m rand k hb => ?_, fun s prog rand k r => execAll_opsAlong⟩
  · have hd : drawRand cfg.geometry [] k = .ok (_, [], k + 1) := rfl
    exact ⟨_, (drawRand_ok hd).1, runEffect_draw_of_ok hd⟩
  · rw [runEffect, legalBright_of_le hb]

end Sys2Proof.Machine
end

section
/-!
Exceptions (60_exceptions.md): there are none. From a legal state every command completes
(R220, R246), and with nothing offered the block idles (R231). Only an answer of the random
generator out of range leaves a tick without a run (R228), and only a tick shows the registers that
have no port (R227).
-/

namespace Sys2Proof.Machine

open Sys2Proof

/-! Completion (R220, R246). -/

/-- With legal registers the tick meets none of its two stops. -/
theorem processWith_completes (p : EffectParams) (sf : Bool) {s : State}
    (hcur : effectLegal s.cur) (hrand : s.RandInRange) : ∃ t, processWith p sf s = .next t := by
  rcases processWith_cases p sf s with ⟨_, h⟩ | ⟨_, _, _, h⟩ | ⟨_, _, _, _, _, h⟩ |
    ⟨_, _, _, _, hrefused, _⟩ | ⟨hillegal, _⟩
  · exact ⟨_, h⟩
  · exact ⟨_, h⟩
  · exact ⟨_, h⟩
  · obtain ⟨r, ran⟩ := runEffect_total
      (p.step s.cfg s.cur.toNat s.slots s.mem s.bright sf) s.mem s.rand s.freeIx hrand
    cases hrefused.symm.trans ran
  · exact absurd hcur hillegal

/-- Settles O7: every command but PROCESS completes from any state, PROCESS by
`processWith_completes`. -/
theorem everyCommandCompletes : Obligations.EveryCommandCompletes := by
  intro i s hs hrand
  rcases exec_cases i s with ⟨_, h⟩ | ⟨_, _, _, h | h⟩ | ⟨index, _, h⟩ | ⟨_, h⟩ | ⟨sf, _, h⟩
  · exact ⟨_, h⟩
  · exact ⟨_, h⟩
  · exact ⟨_, h⟩
  · exact ⟨_, h.trans (execStart_eq index s)⟩
  · exact ⟨_, h⟩
  · rw [h]
    exact processWith_completes Config.effects sf hs.cur_legal hrand

/-- A command takes random answers away and lines none up. -/
theorem Completes.randInRange {i : Instr} {s t : State} (hc : Completes i s t)
    (hmem : memOk s.cfg.geometry s.mem) (h : s.RandInRange) : t.RandInRange := by
  cases hc with
  | tick sf r _ _ ran =>
    obtain ⟨_, _, hsub⟩ := runEffect_ok _ ran hmem
    intro v hv
    rw [completed_rand, afterStep_rand] at hv
    rw [completed_cfg, afterStep_cfg]
    exact h v (hsub v hv)
  | draw | query | start | finish | wait => exact h

/-- Settles O8: an idle block accepts what is offered, and the command completes by O7. -/
theorem everyStepFromIdleCompletes : Obligations.EveryStepFromIdleCompletes := by
  intro s hs hrand
  rcases step_cases s with ⟨_, h⟩ | ⟨_, _, h⟩ | ⟨_, _, _, _, hbusy, _⟩ |
    ⟨w, now, rest, i, _, _, _, h⟩ | ⟨_, _, _, _, _, _, _, h⟩
  · exact ⟨_, h, hrand⟩
  · exact ⟨_, h, hrand⟩
  · exact absurd (hs.not_busy.symm.trans hbusy) Bool.false_ne_true
  · obtain ⟨t, ht⟩ := everyCommandCompletes i _ (hs.inv.accept now rest) hrand
    exact ⟨t, h.trans ht, (completes_of_exec ht).randInRange hs.inv.mem_ok hrand⟩
  · exact ⟨_, h, hrand⟩

/-! Idling and acceptance (R231, R28, R29). -/

theorem cmdReady_iff (s : State) : cmdReady s = true ↔ s.busy = false := by
  rw [cmdReady, Bool.not_eq_true']

section
variable {s : State} {w : CommandWord} {now : Nat} {rest : List HostEvent}
  (hin : s.inputs = .command w now :: rest)
include hin

theorem step_of_busy (hbusy : s.busy = true) : step s = .refused (.commandWhileBusy w) := by
  have hready : cmdReady s = false := by rw [cmdReady, hbusy, Bool.not_true]
  rw [step, hin]
  simp only [hready, Bool.false_eq_true, if_false]

theorem step_of_ready (hbusy : s.busy = false) : step s = runWord w (accept now rest s) := by
  rw [step, hin]
  exact if_pos ((cmdReady_iff s).2 hbusy)

/-- The step that takes a command answers next when the command is accepted and its word runs. -/
theorem step_command_next_iff {t : State} :
    step s = .next t ↔ s.busy = false ∧ runWord w (accept now rest s) = .next t := by
  cases hbusy : s.busy with
  | false => simp [step_of_ready hin hbusy]
  | true => simp [step_of_busy hin hbusy]

end

/-- Settles O5: the step by the event offered, `DONE` by `commandDone_iff`. -/
theorem nothingRunsUnlessACommandIsAccepted :
    Obligations.NothingRunsUnlessACommandIsAccepted := by
  refine fun s => ⟨fun hin => by rw [step, hin], cmdReady_iff s,
    fun _ _ _ hin hbusy => step_of_busy hin hbusy, ?_⟩
  rw [doneAfter, commandDone_iff]
  exact exists₄_congr fun _ _ _ _ => and_congr_right fun hin => step_command_next_iff hin

/-! A random answer out of range (R228, U5). -/

theorem drawRand_of_out_of_range {g : Geometry} {v : RandVal} (hv : cubeN g ≤ v.toNat)
    (rest : List RandVal) (k : Nat) : drawRand g (v :: rest) k = .error v :=
  if_neg (Nat.not_lt.2 hv)

theorem runEffect_draw_of_error {cfg : Config} {rand : List RandVal} {k : Nat} {v : RandVal}
    (h : drawRand cfg.geometry rand k = .error v) (f : RandVal → EffectProg) (m : Memory) :
    runEffect cfg (.draw f) m rand k = .error v := by
  rw [runEffect, h]

theorem processWith_of_error {p : EffectParams} {sf : Bool} {s : State} {i : Fin 5} {v : RandVal}
    (hcur : s.cur = BitVec.ofNat 8 i)
    (gate : effectInterval p s.cfg i s.slots ≤ elapsed s.cfg.clkW s.last[i] s.now)
    (ran : runEffect s.cfg (p.step s.cfg i s.slots s.mem s.bright sf) s.mem s.rand s.freeIx =
      .error v) : processWith p sf s = .refused (.randOutOfRange v) := by
  rw [processWith_of_running hcur, if_pos gate, stepEffect, ran]

/-- Settles O51: the first draw fails, with it the effect step, with it the tick. -/
theorem randomAnswerOutOfRangeHasNoRun : Obligations.RandomAnswerOutOfRangeHasNoRun := by
  intro p sf s i f v rest hcur gate hdraw hrand hv
  refine processWith_of_error hcur gate ?_
  rw [hdraw, hrand]
  exact runEffect_draw_of_error (drawRand_of_out_of_range hv rest s.freeIx) f s.mem

/-! `NOW`, `LAST` and `SLOT` have no port (R227, R245). -/

/-- The state with another `NOW`, `LAST` and `SLOT`. -/
def withHidden (now : Nat) (last : Stamps) (slots : Slots) (s : State) : State :=
  { s with now := now, last := last, slots := slots }

/-- What a query answers does not depend on the registers without a port, and it keeps them. -/
theorem exec_query_withHidden {i : Instr} (hd : drawingCommand i = false)
    (hs : sequencerCommand i = false) {s t : State} (h : exec i s = .next t) (now : Nat)
    (last : Stamps) (slots : Slots) :
    exec i (withHidden now last slots s) = .next (withHidden now last slots t) := by
  cases i
  case byteline start stop =>
    change execByteline start stop s = .next t at h
    change execByteline start stop (withHidden now last slots s) = _
    unfold execByteline at h ⊢
    split at h
    next hle => cases h; exact if_pos hle
    next hgt => cases h; exact if_neg hgt
  case nop | inrange | rdb | getv | getcur | getprev | isfin | getbright => cases h; rfl
  case start | finish | process => cases hs
  all_goals cases hd

/-- Settles O58: drawing reads the buffer alone, START and FINISH overwrite the slots unread, and
a query answers the same by `exec_query_withHidden`. -/
theorem hiddenStateShowsOnlyThroughProcess : Obligations.HiddenStateShowsOnlyThroughProcess := by
  intro i s t now last slots hnot h
  cases completes_of_exec h with
  | draw hd => exact ⟨_, exec_drawing hd _, rfl, rfl, rfl, rfl, rfl, rfl, rfl⟩
  | query hd hs =>
    exact ⟨_, exec_query_withHidden hd hs h now last slots, rfl, rfl, rfl, rfl, rfl, rfl, rfl⟩
  | start index => exact ⟨_, exec_start index _, rfl, rfl, rfl, rfl, rfl, rfl, rfl⟩
  | finish => exact ⟨_, exec_finish _, rfl, rfl, rfl, rfl, rfl, rfl, rfl⟩
  | wait sf | tick sf => exact absurd rfl (hnot sf)

end Sys2Proof.Machine
end

section
/-!
Reset (70_reset_and_hazards.md R240): the state `RST` leaves is the table of R240, and the state
after reset of a build is one that `RST` leaves, so what holds of the first holds of the second.
-/

namespace Sys2Proof.Machine

open Sys2Proof

/-- An empty buffer reads as 0x00 at every address, listed nowhere or past its end (R20, R48). -/
theorem memRead_nil (g : Geometry) (a : Nat) : memRead g [] a = 0x00 := by
  by_cases ha : a < totalBytes g
  · exact memRead_of_lt ha []
  · exact memRead_of_ge (Nat.not_lt.1 ha) []

/-- `RST` has nothing left to do in the state after reset. -/
theorem assertRst_resetWith (cfg : Config) :
    assertRst (State.resetWith cfg) = State.resetWith cfg := rfl

/-- `RST` leaves R240's table, whatever the state before it. -/
theorem atReset_assertRst (s : State) : AtReset s.cfg (assertRst s) where
  bytes := memRead_nil s.cfg.geometry
  voxels := getV_nil s.cfg.geometry
  cur := rfl
  prev := rfl
  bright := rfl
  slots := zeroSlots_getElem
  last k := Vector.getElem_replicate k.isLt
  result := rfl
  busy := rfl
  build := rfl

/-- The step that takes `RST` (R240, log 14). -/
theorem step_of_rst {s : State} {rest : List HostEvent} (hin : s.inputs = .rst :: rest) :
    step s = .next (assertRst { s with inputs := rest }) := by
  rw [step, hin]

/-- Settles O1: by `atReset_assertRst` both states meet the table, and `RST` writes no input. -/
theorem resetPutsEveryRegisterAtItsResetValue :
    Obligations.ResetPutsEveryRegisterAtItsResetValue := by
  refine ⟨fun cfg => ?_, fun s rest hin => ?_⟩
  · have h := atReset_assertRst (State.resetWith cfg)
    rwa [assertRst_resetWith, resetWith_cfg] at h
  · exact ⟨_, step_of_rst hin, atReset_assertRst { s with inputs := rest }, rfl, rfl, rfl, rfl⟩

theorem idle_resetWith (cfg : Config) : (State.resetWith cfg).Idle where
  inv := by
    rw [← assertRst_resetWith]
    exact inv_assertRst (State.resetWith cfg)
  not_busy := resetWith_busy cfg

/-- Settles O2: the invariant is that of `RST`, and with no effect running there is no cycle to
stay in. -/
theorem resetMeetsTheBlockInvariant : Obligations.ResetMeetsTheBlockInvariant :=
  ⟨idle_resetWith, idle_resetWith Config.build,
    fun cfg p => inCycle_of_noneEffect p (resetWith_cur cfg)⟩

end Sys2Proof.Machine
end
